-- ==== Sys2Proof/Word.lean ====
section
/-! DEFINITION. The word types of CSC-CMD: 32-bit registers and addresses, 8-bit channels and memory
bytes (`00_scope.md` R6, R8). Nothing else is fixed here. -/

namespace Sys2Proof

/-- A pixel channel, a byte of image memory, an entry of the equalization map (R6 `CHW`, `NMAP`). -/
abbrev Byte := BitVec 8

/-- A register, a command word, an address, a histogram counter (R6 `REGW`, `AW`, `CNTW`). -/
abbrev Word := BitVec 32

end Sys2Proof
end

