-- ==== Sys2Proof/Config.lean ====
section
/-! DEFINITION. What an implementation or the platform fixes and the spec leaves OPEN (`00_scope.md` R6,
`92_eei_decisions.md` OPEN table), and the FREE VALUES: constants without a body, so no proof can see
what they are. Each free value names the entry U<n> of `93_implementation_defined.md` it stands for and
the row of the assumption log that declares it. -/

namespace Sys2Proof.Config

/-- Number of byte addresses of image memory, 2^32 (R60 (a)). -/
def addressSpace : Nat := 4294967296

/-- The constant the read-only register `ID` holds, ASCII "CSC1" (R2, R37). -/
def idValue : Word := 0x43534331#32

/-- Size of the register block in the host's address space: 16 KiB (R39). -/
def windowBytes : Nat := 16384

/-- OPEN parameter `REG_BASE` (R6, U10): where the platform puts the register block.  A free value;
no rule depends on it. Log entry 11. -/
opaque regBase : Nat

/-- FREE VALUE (U3): what a host read of a result register, of the `HIST` window or of the `MAP` window
returns while `BUSY = 1`; the argument is the moment of the read, so that each read draws afresh.
Log entry 3. -/
opaque busyRead : Nat → Word

/-- FREE VALUE: what a register read returns while the reset input is asserted, when the block
"accepts no register access" (R290). Log entry 4. -/
opaque readInReset : Nat → Word

/-- FREE VALUE (U2): which of the values a source byte has held since acceptance one read of the engine
sees, when the host wrote it under a running command (R300).  Arguments: the moment, which read of the
command it is, the address. Log entry 5. -/
opaque racedRead : Nat → Nat → Nat → Nat

/-- FREE VALUE (U2): whether the host's value survives in a destination byte that the host wrote under a
running command (R300: "ends with the host's or the engine's value"). Log entry 5. -/
opaque hostWriteSurvives : Nat → Nat → Bool

/-- FREE VALUE (U2): whether a host read of image memory under a running command already sees the
engine's value (R300: "holds its old or its new value"). Log entry 5. -/
opaque earlyReadSeesNew : Nat → Nat → Bool

/-- FREE VALUE (U8): whether an abandoned command had already written the byte at an address
(R292). Arguments: the moment, the address. Log entry 6. -/
opaque abandonedWrote : Nat → Nat → Bool

end Sys2Proof.Config
end

