-- ==== Sys2Proof/Syntax.lean ====
section
/-! DEFINITION. The command set CSC-CMD as syntax: one constructor of `Instr` for each of the twenty rows
of `spec/opcode_table.json` (`30_encoding.md` R93). `FMT` is a field of every row (R102), so every
constructor carries it, with its reserved code too: an illegal `FMT`, channel or bank is a fault of the
decoded instruction, not a different instruction. -/

namespace Sys2Proof

/-- The four codes of the `FMT` field (R95). -/
inductive Fmt where
  | gray
  | rgb
  | rgba
  | reserved
  deriving DecidableEq, Repr

/-- The twenty instructions (R93, second table). `k` and `b` are the 4-bit `ARG` of the rows that leave
it free (R94, R97). -/
inductive Instr where
  | nop (fmt : Fmt)
  | cvtRgb (fmt : Fmt)
  | cvtHsv (fmt : Fmt)
  | cvtHsl (fmt : Fmt)
  | cvtHsi (fmt : Fmt)
  | cvtYuv (fmt : Fmt)
  | invRgb (fmt : Fmt)
  | invHsv (fmt : Fmt)
  | invHsl (fmt : Fmt)
  | invHsi (fmt : Fmt)
  | invYuv (fmt : Fmt)
  | luma (fmt : Fmt)
  | avg (fmt : Fmt)
  | xch (fmt : Fmt) (k : BitVec 4)
  | ich (fmt : Fmt) (k : BitVec 4)
  | bin (fmt : Fmt)
  | binA (fmt : Fmt)
  | hist (fmt : Fmt)
  | eqmap (fmt : Fmt) (b : BitVec 4)
  | eqapp (fmt : Fmt)
  deriving DecidableEq, Repr

end Sys2Proof
end

