-- ==== Sys2Proof/WellFormed.lean ====
section
/-! DEFINITION. Which instructions have legal fields: the legal `FMT` sets of `30_encoding.md` R93 (second
table) and R95, and the legal channel and bank numbers of R97. An instruction that fails this check still
decodes and still runs: it takes `E_FMT` or `E_ARG` (R98). -/

namespace Sys2Proof

/-- The formats of an image with three colour channels: `RGB`, `RGBA` (R95). -/
def Fmt.colour : Fmt → Bool
  | .rgb => true
  | .rgba => true
  | .gray => false
  | .reserved => false

/-- `FMT` is legal for the instruction (R93 second table, R256 check 3). -/
def Instr.fmtLegal : Instr → Bool
  | .nop fmt => fmt == .gray
  | .cvtRgb fmt => fmt.colour
  | .cvtHsv fmt => fmt.colour
  | .cvtHsl fmt => fmt.colour
  | .cvtHsi fmt => fmt.colour
  | .cvtYuv fmt => fmt.colour
  | .invRgb fmt => fmt.colour
  | .invHsv fmt => fmt.colour
  | .invHsl fmt => fmt.colour
  | .invHsi fmt => fmt.colour
  | .invYuv fmt => fmt.colour
  | .luma fmt => fmt.colour
  | .avg fmt => fmt == .gray
  | .xch fmt _ => fmt.colour
  | .ich fmt _ => fmt.colour
  | .bin fmt => fmt == .gray
  | .binA fmt => fmt == .gray
  | .hist fmt => fmt != .reserved
  | .eqmap fmt _ => fmt == .gray
  | .eqapp fmt => fmt == .gray

/-- The channel or bank number is legal for the instruction (R97, R256 check 4). -/
def Instr.argLegal : Instr → Bool
  | .xch _ k => decide (k.toNat ≤ 2)
  | .ich fmt k => decide (k.toNat ≤ 2 ∨ (k.toNat = 3 ∧ fmt = .rgba))
  | .eqmap _ b => decide (b.toNat ≤ 3)
  | .nop _ => true
  | .cvtRgb _ => true
  | .cvtHsv _ => true
  | .cvtHsl _ => true
  | .cvtHsi _ => true
  | .cvtYuv _ => true
  | .invRgb _ => true
  | .invHsv _ => true
  | .invHsl _ => true
  | .invHsi _ => true
  | .invYuv _ => true
  | .luma _ => true
  | .avg _ => true
  | .bin _ => true
  | .binA _ => true
  | .hist _ => true
  | .eqapp _ => true

/-- The word is "one of the twenty instructions with legal fields" (R98). -/
def Instr.wellFormed (i : Instr) : Bool := i.fmtLegal && i.argLegal

end Sys2Proof
end

