-- ==== Sys2Proof/Decode.lean ====
section
/-! DEFINITION. The decoder of `30_encoding.md` R103, total on 32-bit words, and the encoder of R90, R93,
R95, R96. A word is refused by name: `illegal` (R98, `E_ILLEGAL`) or `badColourSpace` (R96,
`E_CSPACE`). -/

namespace Sys2Proof

/-- What decoding a word gives (R103). -/
inductive Decoded where
  /-- One of the twenty instructions; its fields may still be illegal (R102). -/
  | instr (i : Instr)
  /-- Reserved bits set, unknown opcode, or a non-zero `ARG` where zero is required (R98). -/
  | illegal
  /-- `CVT` or `INV` with a colour-space code 5 to 15 (R96). -/
  | badColourSpace
  deriving DecidableEq, Repr

/-- `RSV`, bits 31:14 (R90). -/
def rsvField (w : Word) : BitVec 18 := w.extractLsb' 14 18

/-- `FMT`, bits 13:12 (R90). -/
def fmtField (w : Word) : BitVec 2 := w.extractLsb' 12 2

/-- `ARG`, bits 11:8 (R90). -/
def argField (w : Word) : BitVec 4 := w.extractLsb' 8 4

/-- `OPC`, bits 7:0 (R90). -/
def opcField (w : Word) : BitVec 8 := w.extractLsb' 0 8

/-- The `FMT` codes (R95). -/
def fmtOfCode (c : BitVec 2) : Fmt :=
  if c = 0#2 then .gray
  else if c = 1#2 then .rgb
  else if c = 2#2 then .rgba
  else .reserved

/-- `CVT` of colour space `arg`, in the order RGB, HSV, HSL, HSI, YUV (R96). -/
def decodeCvt (arg : BitVec 4) (fmt : Fmt) : Decoded :=
  if arg = 0#4 then .instr (.cvtRgb fmt)
  else if arg = 1#4 then .instr (.cvtHsv fmt)
  else if arg = 2#4 then .instr (.cvtHsl fmt)
  else if arg = 3#4 then .instr (.cvtHsi fmt)
  else if arg = 4#4 then .instr (.cvtYuv fmt)
  else .badColourSpace

/-- `INV` of colour space `arg` (R96). -/
def decodeInv (arg : BitVec 4) (fmt : Fmt) : Decoded :=
  if arg = 0#4 then .instr (.invRgb fmt)
  else if arg = 1#4 then .instr (.invHsv fmt)
  else if arg = 2#4 then .instr (.invHsl fmt)
  else if arg = 3#4 then .instr (.invHsi fmt)
  else if arg = 4#4 then .instr (.invYuv fmt)
  else .badColourSpace

/-- `BIN` with `ARG = 0`, `BIN.A` with `ARG = 1`, else illegal (R94, R98). -/
def decodeBin (arg : BitVec 4) (fmt : Fmt) : Decoded :=
  if arg = 0#4 then .instr (.bin fmt)
  else if arg = 1#4 then .instr (.binA fmt)
  else .illegal

/-- An opcode whose `ARG` must be zero (R98). -/
def decodeNoArg (arg : BitVec 4) (i : Instr) : Decoded :=
  if arg = 0#4 then .instr i else .illegal

/-- The opcode map, first table of R93. -/
def decodeOpc (opc : BitVec 8) (arg : BitVec 4) (fmt : Fmt) : Decoded :=
  if opc = 0x00#8 then decodeNoArg arg (.nop fmt)
  else if opc = 0x10#8 then decodeCvt arg fmt
  else if opc = 0x11#8 then decodeInv arg fmt
  else if opc = 0x20#8 then decodeNoArg arg (.luma fmt)
  else if opc = 0x21#8 then decodeNoArg arg (.avg fmt)
  else if opc = 0x22#8 then .instr (.xch fmt arg)
  else if opc = 0x23#8 then .instr (.ich fmt arg)
  else if opc = 0x30#8 then decodeBin arg fmt
  else if opc = 0x40#8 then decodeNoArg arg (.hist fmt)
  else if opc = 0x50#8 then .instr (.eqmap fmt arg)
  else if opc = 0x51#8 then decodeNoArg arg (.eqapp fmt)
  else .illegal

/-- The decode function of R103. -/
def decode (w : Word) : Decoded :=
  if rsvField w ≠ 0#18 then .illegal
  else decodeOpc (opcField w) (argField w) (fmtOfCode (fmtField w))

/-! ## The encoder -/

/-- The code of a format (R95). -/
def Fmt.code : Fmt → BitVec 2
  | .gray => 0#2
  | .rgb => 1#2
  | .rgba => 2#2
  | .reserved => 3#2

/-- `OPC` of an instruction (R93). -/
def Instr.opc : Instr → BitVec 8
  | .nop _ => 0x00#8
  | .cvtRgb _ => 0x10#8
  | .cvtHsv _ => 0x10#8
  | .cvtHsl _ => 0x10#8
  | .cvtHsi _ => 0x10#8
  | .cvtYuv _ => 0x10#8
  | .invRgb _ => 0x11#8
  | .invHsv _ => 0x11#8
  | .invHsl _ => 0x11#8
  | .invHsi _ => 0x11#8
  | .invYuv _ => 0x11#8
  | .luma _ => 0x20#8
  | .avg _ => 0x21#8
  | .xch _ _ => 0x22#8
  | .ich _ _ => 0x23#8
  | .bin _ => 0x30#8
  | .binA _ => 0x30#8
  | .hist _ => 0x40#8
  | .eqmap _ _ => 0x50#8
  | .eqapp _ => 0x51#8

/-- `ARG` of an instruction (R93, R96). -/
def Instr.arg : Instr → BitVec 4
  | .nop _ => 0#4
  | .cvtRgb _ => 0#4
  | .cvtHsv _ => 1#4
  | .cvtHsl _ => 2#4
  | .cvtHsi _ => 3#4
  | .cvtYuv _ => 4#4
  | .invRgb _ => 0#4
  | .invHsv _ => 1#4
  | .invHsl _ => 2#4
  | .invHsi _ => 3#4
  | .invYuv _ => 4#4
  | .luma _ => 0#4
  | .avg _ => 0#4
  | .xch _ k => k
  | .ich _ k => k
  | .bin _ => 0#4
  | .binA _ => 1#4
  | .hist _ => 0#4
  | .eqmap _ b => b
  | .eqapp _ => 0#4

/-- `FMT` of an instruction (R102: a field of every row). -/
def Instr.fmt : Instr → Fmt
  | .nop fmt => fmt
  | .cvtRgb fmt => fmt
  | .cvtHsv fmt => fmt
  | .cvtHsl fmt => fmt
  | .cvtHsi fmt => fmt
  | .cvtYuv fmt => fmt
  | .invRgb fmt => fmt
  | .invHsv fmt => fmt
  | .invHsl fmt => fmt
  | .invHsi fmt => fmt
  | .invYuv fmt => fmt
  | .luma fmt => fmt
  | .avg fmt => fmt
  | .xch fmt _ => fmt
  | .ich fmt _ => fmt
  | .bin fmt => fmt
  | .binA fmt => fmt
  | .hist fmt => fmt
  | .eqmap fmt _ => fmt
  | .eqapp fmt => fmt

/-- `w = FMT × 2^12 + ARG × 2^8 + OPC`, `RSV = 0` (R90). -/
def encode (i : Instr) : Word :=
  BitVec.ofNat 32 (i.fmt.code.toNat * 4096 + i.arg.toNat * 256 + i.opc.toNat)

/-! ## The opcode table (R102) -/

/-- The `mask` of the instruction's row: everything but `FMT`, and but `ARG` where it is free. -/
def Instr.mask : Instr → Word
  | .xch _ _ => 0xFFFFC0FF#32
  | .ich _ _ => 0xFFFFC0FF#32
  | .eqmap _ _ => 0xFFFFC0FF#32
  | .nop _ => 0xFFFFCFFF#32
  | .cvtRgb _ => 0xFFFFCFFF#32
  | .cvtHsv _ => 0xFFFFCFFF#32
  | .cvtHsl _ => 0xFFFFCFFF#32
  | .cvtHsi _ => 0xFFFFCFFF#32
  | .cvtYuv _ => 0xFFFFCFFF#32
  | .invRgb _ => 0xFFFFCFFF#32
  | .invHsv _ => 0xFFFFCFFF#32
  | .invHsl _ => 0xFFFFCFFF#32
  | .invHsi _ => 0xFFFFCFFF#32
  | .invYuv _ => 0xFFFFCFFF#32
  | .luma _ => 0xFFFFCFFF#32
  | .avg _ => 0xFFFFCFFF#32
  | .bin _ => 0xFFFFCFFF#32
  | .binA _ => 0xFFFFCFFF#32
  | .hist _ => 0xFFFFCFFF#32
  | .eqapp _ => 0xFFFFCFFF#32

/-- The `match` of the instruction's row. -/
def Instr.pattern : Instr → Word
  | .nop _ => 0x00000000#32
  | .cvtRgb _ => 0x00000010#32
  | .cvtHsv _ => 0x00000110#32
  | .cvtHsl _ => 0x00000210#32
  | .cvtHsi _ => 0x00000310#32
  | .cvtYuv _ => 0x00000410#32
  | .invRgb _ => 0x00000011#32
  | .invHsv _ => 0x00000111#32
  | .invHsl _ => 0x00000211#32
  | .invHsi _ => 0x00000311#32
  | .invYuv _ => 0x00000411#32
  | .luma _ => 0x00000020#32
  | .avg _ => 0x00000021#32
  | .xch _ _ => 0x00000022#32
  | .ich _ _ => 0x00000023#32
  | .bin _ => 0x00000030#32
  | .binA _ => 0x00000130#32
  | .hist _ => 0x00000040#32
  | .eqmap _ _ => 0x00000050#32
  | .eqapp _ => 0x00000051#32

/-- The word `w` is the instruction's row: `w and mask = match` (R102). -/
def Instr.matchesRow (i : Instr) (w : Word) : Bool := w &&& i.mask == i.pattern

/-! ## The host's table words -/

/-- The 32-bit command word of which the low `nbits` bits are given and the rest are zero. -/
def tableWord (nbits w : Nat) : Word := BitVec.ofNat 32 (w % 2 ^ nbits)

/-- The instruction the decoder reads from the word, none where it refuses. -/
def decodeTableWord (nbits w : Nat) : Option Instr :=
  match decode (tableWord nbits w) with
  | .instr i => some i
  | .illegal => none
  | .badColourSpace => none

end Sys2Proof
end

