-- ==== Sys2Proof/Machine/ColourTables.lean ====
section
/-! DEFINITION. The two constant tables of the HSI conversions: `Wt` (`40_codec_forward.md` R132) and `Rq`
(`41_codec_inverse.md` R161), four entries to a line as the spec prints them, in pieces joined. -/

namespace Sys2Proof.Machine

def wt0 : List Nat :=
  [4294315431, 4289102890, 4278690464, 4263103434,
   4242379647, 4216569420, 4185735420, 4149952512,
   4109307579, 4063899307, 4013837948, 3959245052,
   3900253170, 3837005537, 3769655718, 3698367240,
   3623313193, 3544675808, 3462646019, 3377422995,
   3289213660, 3198232186, 3104699478, 3008842635,
   2910894399, 2811092590, 2709679528, 2606901445,
   2503007889, 2398251115, 2292885473, 2187166794]

def wt1 : List Nat :=
  [2081351763, 1975697301, 1870459939, 1765895196,
   1662256954, 1559796851, 1458763661, 1359402693,
   1261955199, 1166657781, 1073741824, 983432928,
   895950366, 811506546, 730306500, 652547382,
   578417992, 508098318, 441759098, 379561403,
   321656251, 268184237, 219275191, 175047865,
   135609644, 101056284, 71471682, 46927670,
   27483840, 13187403, 4073070, 162972]

def wt2 : List Nat :=
  [1466602, 7980794, 19689734, 36564990,
   58565589, 85638114, 117716832, 154723856,
   196569331, 243151658, 294357731, 350063224,
   410132881, 474420853, 542771048, 615017510,
   690984823, 770488539, 853335620, 939324913,
   1028247634, 1119887877, 1214023140, 1310424858,
   1408858969, 1509086472, 1610864013, 1713944475,
   1818077577, 1923010482, 2028488411, 2134255263]

def wt3 : List Nat :=
  [2240054233, 2345628441, 2450721550, 2555078392,
   2658445588, 2760572161, 2861210145, 2960115190,
   3057047153, 3151770681, 3244055785, 3333678395,
   3420420905, 3504072704, 3584430683, 3661299733,
   3734493213, 3803833409, 3869151963, 3930290279,
   3987099912, 4039442928, 4087192238, 4130231905,
   4168457429, 4201775996, 4230106710, 4253380782,
   4271541703, 4284545378, 4292360234, 4294967296]

/-- `Wt[1..128]` in order: `floor(2^32 × cos^2(pi (2j-1) / 255))` (R131, R132). -/
def wt : List Nat :=
  wt0 ++ wt1 ++ wt2 ++ wt3

def rq0 : List Int :=
  [8589934592, 8238273419, 7913894677, 7613390810,
   7333892257, 7072964904, 6828530126, 6598801797,
   6382236219, 6177491982, 5983397517, 5798924691,
   5623167152, 5455322470, 5294677305, 5140595030,
   4992505340, 4849895480, 4712302811, 4579308478,
   4450531991, 4325626562, 4204275087, 4086186663,
   3971093555, 3858748545, 3748922613, 3641402889,
   3535990845, 3432500689, 3330757936, 3230598123]

def rq1 : List Int :=
  [3131865657, 3034412770, 2938098574, 2842788193,
   2748351962, 2654664692, 2561604980, 2469054560,
   2376897688, 2285020556, 2193310725, 2101656571,
   2009946740, 1918069608, 1825912736, 1733362316,
   1640302604, 1546615334, 1452179103, 1356868722,
   1260554526, 1163101639, 1064369173, 964209360,
   862466607, 758976451, 653564407, 546044683,
   436218751, 323873741, 208780633, 90692209]

def rq2 : List Int :=
  [-30659266, -155564695, -284341182, -417335515,
   -554928184, -697538044, -845627734, -999710009,
   -1160355174, -1328199856, -1503957395, -1688430221,
   -1882524686, -2087268923, -2303834501, -2533562830,
   -2777997608, -3038924961, -3318423514, -3618927381,
   -3943306123, -4294967296]

/-- `Rq[0..85]` in order: `rnd(2^32 × cos(24j/17°) / cos(60° - 24j/17°))` (R160, R161). -/
def rq : List Int :=
  rq0 ++ rq1 ++ rq2

end Sys2Proof.Machine
end

