-- ==== Sys2Proof/Machine/State.lean ====
section
/-! DEFINITION. The state of the block (`10_state.md`), of image memory (`20_memory.md` R60) and of what
the outside world still has to do (`00_scope.md` R12, R15), as plain data; the reset state (R47); and the
two ways a step of the MODEL can stop. The hardware's own faults are no stops: they are latched in state
(`60_exceptions.md` R255). -/

namespace Sys2Proof.Machine

/-- The fault codes of R252, by name.  The codes 11 to 255 do not exist in this type: they "are never
produced". -/
inductive ErrorCode where
  | eNone
  | eIllegal
  | eCspace
  | eFmt
  | eArg
  | eLevel
  | eEmpty
  | eNohist
  | eNomap
  | eRange
  | eOverlap
  deriving DecidableEq, Repr

/-- The size of a register access (R72). -/
inductive AccessSize where
  | byte
  | half
  | word
  | double
  | burst
  deriving DecidableEq, Repr

/-- What the host can do (`00_scope.md` R12, R15; `30_encoding.md` R101): a register read or write at a
byte offset of the 16 KiB window (R39), a read or write of one byte of image memory, or `WAIT` (R233).
The issue of a command is a register write to `CMD`. -/
inductive HostAction where
  | regRead (size : AccessSize) (offset : BitVec 14)
  | regWrite (size : AccessSize) (offset : BitVec 14) (value : Word)
  | memRead (addr : Word)
  | memWrite (addr : Word) (value : Byte)
  | wait
  deriving DecidableEq, Repr

/-- What happens next: an action of the host, a turn of the engine, or an edge of the reset input
(R290). -/
inductive Event where
  | host (a : HostAction)
  | engine
  | resetAssert
  | resetRelease
  deriving DecidableEq, Repr

/-- One histogram: 256 counters of 32 bits (R40). -/
abbrev Bank := Vector Word 256

/-- Image memory: the listed bytes, in the canonical form of `Memory.wf` (Ops). -/
abbrev Memory := List Host.Cell

/-- The whole state. `ID` is a constant (R37) and `CTRL` holds nothing (R38), so neither has a field;
`irq` and the `STATUS` and `IE` words are functions of the fields (R46, R32, R36). -/
structure State where
  /-- `SRC` (R21) -/
  src : Word
  /-- `DST` (R22) -/
  dst : Word
  /-- `DIM` (R23) -/
  dim : Word
  /-- `LEVEL` (R24), all 32 bits as written -/
  level : Word
  /-- `AVG[7:0]` (R26) -/
  avg : Byte
  /-- `LVLUSED[7:0]` (R28) -/
  lvlUsed : Byte
  /-- `SUMLO` (R27) -/
  sumLo : Word
  /-- `SUMHI` (R27) -/
  sumHi : Word
  /-- `CMD`, the last accepted word (R33) -/
  cmd : Word
  /-- `STATUS.BUSY` (R32) -/
  busy : Bool
  /-- `STATUS.DONE` (R32) -/
  done : Bool
  /-- `STATUS.ERR` (R32) -/
  err : Bool
  /-- `STATUS.DROP` (R32) -/
  drop : Bool
  /-- `STATUS.HV[3:0]` (R32) -/
  hv : BitVec 4
  /-- `STATUS.MV` (R32) -/
  mv : Bool
  /-- `ERRCODE` (R34) -/
  errCode : ErrorCode
  /-- `ERRINFO` (R35) -/
  errInfo : Word
  /-- `IE[1]` (R36) -/
  doneIE : Bool
  /-- `IE[2]` (R36) -/
  errIE : Bool
  /-- `IE[3]` (R36) -/
  dropIE : Bool
  /-- `HIST`, four banks (R40) -/
  hist : Vector Bank 4
  /-- `MAP`, 256 entries (R42) -/
  map : Vector Byte 256
  /-- the level of the reset input (R290) -/
  inReset : Bool
  /-- image memory (R60 (a)); not part of the block -/
  mem : Memory
  /-- what the outside world still does, next first (R15): the host script with the engine's turns
  between its actions -/
  agenda : List Event
  /-- the value the host's last read returned (R231) -/
  readData : Word
  /-- the values that host writes replaced in image memory since the running command was accepted,
  newest first (R300); the model's own record -/
  raced : List Host.Cell
  /-- how many host actions have been taken; the model's own counter, from which free values are
  drawn -/
  moment : Nat
  deriving DecidableEq, Repr

/-- Every way the MODEL's machine stops with a fault: none.  Every fault the spec gives is taken as a
next state (R255), and the block "never halts" (R15). -/
inductive Fault where
  deriving DecidableEq, Repr

/-- Every way the model declines a step. -/
inductive Refusal where
  /-- Raised by `exec` for an instruction without a meaning; no arm raises it in this model. Safe: the
  model says nothing of what follows. -/
  | notModelled (mnemonic : String)
  /-- Raised by a host register access that is not a naturally aligned 32-bit access. Safe: R72 calls the
  result unspecified and says that "a model refuses it" (U4). -/
  | registerAccess
  deriving DecidableEq, Repr

/-- A histogram with every counter zero. -/
def emptyBank : Bank := Vector.replicate 256 0#32

/-- The machine right after reset (R47, R290), with nothing listed in memory and nothing on the agenda.
The contents of `HIST` and `MAP` are unspecified and unobservable; zeros are held, as U1 allows (log
entry 2).  `readData`, `raced`, `moment` and `agenda` are the model's (log entries 8, 9). -/
def State.reset : State where
  src := 0#32
  dst := 0#32
  dim := 0#32
  level := 0#32
  avg := 0#8
  lvlUsed := 0#8
  sumLo := 0#32
  sumHi := 0#32
  cmd := 0#32
  busy := false
  done := false
  err := false
  drop := false
  hv := 0#4
  mv := false
  errCode := .eNone
  errInfo := 0#32
  doneIE := false
  errIE := false
  dropIE := false
  hist := Vector.replicate 4 emptyBank
  map := Vector.replicate 256 0#8
  inReset := false
  mem := []
  agenda := []
  readData := 0#32
  raced := []
  moment := 0

end Sys2Proof.Machine
end

