-- ==== Sys2Proof/Machine/Ops.lean ====
section
/-! DEFINITION. The named operations over image memory and over the state: reading and writing one byte,
the engine's reads of its source region and writes of its destination set (`20_memory.md` R66), the named
updates of registers and tables, completing a command (`30_encoding.md` R92), TAKING A FAULT
(`60_exceptions.md` R255) and the return from one (R259), acceptance (`10_state.md` R33) and reset
(`70_reset_and_hazards.md` R290, R291). -/

namespace Sys2Proof.Machine

/-! ## Image memory -/

/-- What an unlisted byte of image memory reads as.  DESIGN CHOICE, unsafe (log entry 1): the spec gives
memory no contents before the host writes it. -/
def Memory.background : Byte := 0#8

/-- The canonical form: addresses strictly rising and inside image memory, no byte listed that an
unlisted address reads as anyway. -/
abbrev Memory.wf (m : Memory) : Prop :=
  m.Pairwise (fun c d => c.1 < d.1) ∧
    ∀ c ∈ m, c.1 < Config.addressSpace ∧ c.2 ≠ Memory.background

/-- "A read returns the byte last written to that address" (R61). -/
def Memory.read : Memory → Nat → Byte
  | [], _ => Memory.background
  | c :: rest, a => if c.1 = a then c.2 else Memory.read rest a

/-- List a byte in its place. -/
def Memory.insert (a : Nat) (v : Byte) : Memory → Memory
  | [] => [(a, v)]
  | c :: rest => if a < c.1 then (a, v) :: c :: rest else c :: Memory.insert a v rest

/-- "A write changes that byte only" (R61). -/
def Memory.write (m : Memory) (a : Nat) (v : Byte) : Memory :=
  let others := m.filter (fun c => c.1 != a)
  if v = Memory.background then others else Memory.insert a v others

/-- Each address holds the byte of `old` or of `new`, as `pick` says; the listed addresses are the only
ones where the two can differ. -/
def Memory.mix (pick : Nat → Bool) (old new : Memory) : Memory :=
  ((old ++ new).map (fun c => c.1)).foldl
    (fun m a => if pick a then m.write a (new.read a) else m) old

/-! ## The engine's accesses -/

/-- The values that host writes under the running command replaced at an address. -/
def State.replaced (s : State) (a : Nat) : List Byte :=
  (s.raced.filter (fun c => c.1 == a)).map (fun c => c.2)

/-- The byte the engine sees at a source address: the byte in memory, or, where the host wrote that byte
under the running command, any of the values it has held since acceptance, "independently at each read"
(R300; `r` says which read of the command it is). -/
def State.sourceByte (s : State) (r a : Nat) : Byte :=
  match s.replaced a with
  | [] => s.mem.read a
  | v :: old =>
    (s.mem.read a :: v :: old).getD (Config.racedRead s.moment r a % (old.length + 2)) v

/-- The engine's one write of a destination byte (R66 (b)); where the host wrote that byte under the
running command it "ends with the host's or the engine's value" (R300). -/
def State.storeByte (s : State) (m : Memory) (a : Nat) (v : Byte) : Memory :=
  if !(s.replaced a).isEmpty && Config.hostWriteSurvives s.moment a then m else m.write a v

/-- Image memory after the engine has written `f j` at `base + j × stride` for `j` below the count: the
destination sets of R67 are all of this form. -/
def State.storeRun (s : State) (base stride : Nat) (f : Nat → Byte) : Nat → Memory
  | 0 => s.mem
  | n + 1 => s.storeByte (s.storeRun base stride f n) (base + n * stride) (f n)

/-- The sum of the first `n` values (R183 `sum`), an unbounded integer: R7 shows it stays below 2^40. -/
def sumRun (f : Nat → Byte) : Nat → Nat
  | 0 => 0
  | n + 1 => sumRun f n + (f n).toNat

/-! ## Named updates -/

/-- Image memory gets new contents. -/
def State.withMem (m : Memory) (s : State) : State := { s with mem := m }

/-- `AVG`, `SUMLO`, `SUMHI` get the sum of a grey image and its truncated mean (R26, R27, R183). -/
def State.withAverage (sum npix : Nat) (s : State) : State :=
  { s with
    sumLo := BitVec.ofNat 32 sum
    sumHi := BitVec.ofNat 32 (sum / 4294967296)
    avg := BitVec.ofNat 8 (sum / npix) }

/-- `LVLUSED` gets the decision boundary (R28). -/
def State.withLevelUsed (t : Nat) (s : State) : State := { s with lvlUsed := BitVec.ofNat 8 t }

/-- `HIST` and `HV` get the outcome of a count (R210). -/
def State.withHistogram (banks : Vector Bank 4) (valid : BitVec 4) (s : State) : State :=
  { s with hist := banks, hv := valid }

/-- `MAP` gets its entries and `MV` is set (R220). -/
def State.withMap (entries : Vector Byte 256) (s : State) : State :=
  { s with map := entries, mv := true }

/-- A counter bank by its number; there are four (R40). -/
def State.bank (s : State) (b : Nat) : Bank := s.hist[b]?.getD emptyBank

/-! ## Ending a command -/

/-- Completion (R92 step 5): `BUSY <- 0`, `DONE <- 1`. The record of host writes under the command ends
with it. -/
def State.complete (s : State) : State := { s with busy := false, done := true, raced := [] }

/-- TAKING A FAULT, `raise F(w)` for the accepted word `w` (R255): `ERRCODE`, `ERRINFO`, `ERR`, `BUSY`,
and nothing else.  `CMD` holds `w` while the command is busy (R44). -/
def State.takeFault (c : ErrorCode) (s : State) : State :=
  { s with errCode := c, errInfo := s.cmd, err := true, busy := false, raced := [] }

/-- The return from a fault (R259): `ERR`, `ERRCODE` and `ERRINFO` are cleared, nothing is restored. -/
def State.returnFromFault (s : State) : State :=
  { s with err := false, errCode := .eNone, errInfo := 0#32 }

/-- Acceptance of a command word (R33). -/
def State.accept (w : Word) (s : State) : State :=
  { s with cmd := w, busy := true, done := false, raced := [] }

/-- A host write that cannot take effect now is lost and recorded (R29, R33). -/
def State.dropWrite (s : State) : State := { s with drop := true }

/-- One check of R256: the code it raises, and whether it fails. -/
abbrev Check := ErrorCode × Bool

/-- "The first failing check in this list, top to bottom" (R256). -/
def firstFailing : List Check → Option ErrorCode
  | [] => none
  | c :: rest => if c.2 then some c.1 else firstFailing rest

/-- Steps (3) to (5) of the life of a command (R92): the first failing check ends it as a fault with no
other change of state; otherwise it has its effect and completes. -/
def perform (checks : List Check) (effect : State → State) (s : State) :
    Host.Outcome State Fault Refusal :=
  match firstFailing checks with
  | some c => .next (s.takeFault c)
  | none => .next (effect s).complete

/-! ## The outside world -/

/-- The next event is taken off the agenda. -/
def State.popEvent (s : State) : State := { s with agenda := s.agenda.tail }

/-- One more host action has been taken. -/
def State.tick (s : State) : State := { s with moment := s.moment + 1 }

/-- A host read returns a value. -/
def State.withReadData (w : Word) (s : State) : State := { s with readData := w }

/-- A host write of one byte of image memory; under a running command the replaced byte is recorded
(R300). -/
def State.hostStore (a : Nat) (v : Byte) (s : State) : State :=
  { s with
    mem := s.mem.write a v
    raced := if s.busy then (a, s.mem.read a) :: s.raced else s.raced }

/-- The block in exactly the state of R290 and R47, image memory as given; what is outside the block
stays. -/
def State.resetBlock (m : Memory) (s : State) : State :=
  { State.reset with
    mem := m
    inReset := s.inReset
    agenda := s.agenda
    readData := s.readData
    moment := s.moment }

/-- The level of the reset input (R290). -/
def State.withResetInput (asserted : Bool) (s : State) : State := { s with inReset := asserted }

end Sys2Proof.Machine
end

