-- ==== Sys2Proof/Machine/Operands.lean ====
section
/-! DEFINITION. Every operand form: the fields of `DIM` (`10_state.md` R23), the images and regions of the
commands (`00_scope.md` R11, `20_memory.md` R67), the pixels they read, and the checks on operands in the
form `perform` takes them (`60_exceptions.md` R256, R262 to R266). -/

namespace Sys2Proof

/-- Channels per pixel (R95). The reserved code never gets past the `E_FMT` check. -/
def Fmt.channels : Fmt → Nat
  | .gray => 1
  | .rgb => 3
  | .rgba => 4
  | .reserved => 0

end Sys2Proof

namespace Sys2Proof.Machine

/-- `WIDTH = DIM[15:0]` (R23). -/
def State.width (s : State) : Nat := (s.dim.extractLsb' 0 16).toNat

/-- `HEIGHT = DIM[31:16]` (R23). -/
def State.height (s : State) : Nat := (s.dim.extractLsb' 16 16).toNat

/-- `npix = WIDTH × HEIGHT` (R23). -/
def State.npix (s : State) : Nat := s.width * s.height

/-- A region of image memory: the byte range `[base, base + len)` (R11). -/
structure Region where
  base : Nat
  len : Nat
  deriving DecidableEq, Repr

/-- The source region of an image with `n` channels (R67). -/
def State.srcRegion (s : State) (n : Nat) : Region := ⟨s.src.toNat, s.npix * n⟩

/-- The destination region of an image with `n` channels (R67). -/
def State.dstRegion (s : State) (n : Nat) : Region := ⟨s.dst.toNat, s.npix * n⟩

/-- The region has a byte and runs past the top of image memory, computed without wrap-around
(R68, R265). -/
def Region.outOfRange (r : Region) : Bool :=
  decide (0 < r.len) && decide (Config.addressSpace < r.base + r.len)

/-- Both regions have a byte and they share one (R69, R266). -/
def Region.overlaps (r q : Region) : Bool :=
  decide (0 < r.len) && decide (0 < q.len) &&
    decide (r.base < q.base + q.len) && decide (q.base < r.base + r.len)

/-! ## The checks of R256 on operands -/

/-- Check 3. -/
def checkFmt (legal : Bool) : Check := (.eFmt, !legal)

/-- Check 4. -/
def checkArg (legal : Bool) : Check := (.eArg, !legal)

/-- Check 5: `LEVEL > 255`, compared as a 32-bit unsigned number (R263). -/
def State.checkLevel (s : State) : Check := (.eLevel, decide (255 < s.level.toNat))

/-- Check 6: a zero-area image (R262). -/
def State.checkEmpty (s : State) : Check := (.eEmpty, decide (s.npix = 0))

/-- Check 7 of `EQMAP`: the bank holds no histogram (R264). -/
def State.checkBank (s : State) (b : Nat) : Check := (.eNohist, !(s.hv.getLsbD b))

/-- Check 7 of `EQAPP`: no map has been built (R264). -/
def State.checkMap (s : State) : Check := (.eNomap, !s.mv)

/-- Check 8 of a command that only reads an image (R265). -/
def State.checkSource (s : State) (n : Nat) : List Check :=
  [(.eRange, (s.srcRegion n).outOfRange)]

/-- Checks 8 and 9 of a command with a source image of `n` channels and a destination image of `d`:
source range, destination range, overlap (R265, R266). -/
def State.checkImages (s : State) (n d : Nat) : List Check :=
  [(.eRange, (s.srcRegion n).outOfRange),
   (.eRange, (s.dstRegion d).outOfRange),
   (.eOverlap, (s.srcRegion n).overlaps (s.dstRegion d))]

/-! ## Pixels -/

/-- The three non-alpha channels of a pixel, at offsets 0, 1, 2 (R63). -/
structure Triple where
  c0 : Byte
  c1 : Byte
  c2 : Byte
  deriving DecidableEq, Repr

/-- The channel at an offset (R63). -/
def Triple.channel (t : Triple) : Nat → Byte
  | 0 => t.c0
  | 1 => t.c1
  | _ => t.c2

/-- Channel `c` of pixel `p` of the `n`-channel source image: the byte at `SRC + p × n + c` (R62,
R237), as read `r` of the command sees it. -/
def State.sourceChannel (s : State) (r n p c : Nat) : Byte :=
  s.sourceByte r (s.src.toNat + p * n + c)

/-- The three non-alpha channels of pixel `p` of the `n`-channel source image. -/
def State.sourcePixel (s : State) (r n p : Nat) : Triple :=
  ⟨s.sourceChannel r n p 0, s.sourceChannel r n p 1, s.sourceChannel r n p 2⟩

end Sys2Proof.Machine
end

