-- ==== Sys2Proof/Machine/ColourForward.lean ====
section
/-! DEFINITION. The per-pixel functions of the forward conversions, `f_CS` of `40_codec_forward.md`, in the
integer forms of R125 to R133, and `luma8` of `42_grayscale_planes.md` R180. Integers are unbounded (R9);
every quantised channel goes through `clamp8` (R123). -/

namespace Sys2Proof.Machine

/-- `clamp8(n) = 0 if n < 0, 255 if n > 255, else n` (R9). -/
def clamp8 (n : Int) : Byte :=
  if n < 0 then 0#8 else if 255 < n then 255#8 else BitVec.ofInt 8 n

/-- `rdiv(n, d) = (2n + d) div (2d)` (R9); `/` is floor division for a positive divisor. -/
def rdiv (n d : Int) : Int := (2 * n + d) / (2 * d)

/-- A channel as an integer in 0..255 (R122). -/
def level (b : Byte) : Int := b.toNat

/-- `M = max(R, G, B)` (R124). -/
def maxOf (r g b : Int) : Int := max (max r g) b

/-- `m = min(R, G, B)` (R124). -/
def minOf (r g b : Int) : Int := min (min r g) b

/-- `num` of R125: the hue in units of a sixth of `1/d`. -/
def hueNumerator (r g b d : Int) : Int :=
  if maxOf r g b = r then (if g - b < 0 then g - b + 6 * d else g - b)
  else if maxOf r g b = g then b - r + 2 * d
  else r - g + 4 * d

/-- `H8` of HSV and HSL (R125). -/
def hue8 (r g b : Int) : Int :=
  let d := maxOf r g b - minOf r g b
  if d = 0 then 0 else (85 * hueNumerator r g b d + d) / (2 * d)

/-- `S8` of HSV (R127). -/
def hsvSat8 (r g b : Int) : Int :=
  let m := maxOf r g b
  if m = 0 then 0 else (510 * (m - minOf r g b) + m) / (2 * m)

/-- `255 × (1 - |2l - 1|)` of HSL, the divisor of its saturation (R128). -/
def hslDenominator (r g b : Int) : Int :=
  let t := maxOf r g b + minOf r g b
  if t ≤ 255 then t else 510 - t

/-- `S8` of HSL (R128). -/
def hslSat8 (r g b : Int) : Int :=
  let d := maxOf r g b - minOf r g b
  let den := hslDenominator r g b
  if d = 0 then 0 else (510 * d + den) / (2 * den)

/-- `L8` of HSL (R128). -/
def hslLight8 (r g b : Int) : Int := (maxOf r g b + minOf r g b + 1) / 2

/-- `N` of R129. -/
def hsiNumerator (r g b : Int) : Int := 2 * r - g - b

/-- `D` of R129. -/
def hsiSquare (r g b : Int) : Int := r * r + g * g + b * b - r * g - r * b - g * b

/-- `le(j, N, D)` of R131, with the table's `Wt[j]` given. -/
def hueAtLeast (j w : Nat) (n d : Int) : Bool :=
  if j ≤ 64 then decide (n ≤ 0) || decide (n * n * 4294967296 ≤ 4 * d * w)
  else decide (n < 0) && decide (4 * d * w ≤ n * n * 4294967296)

/-- The "number of j in 1..128 with le(j, N, D)" of R131. -/
def hueCount (n d : Int) : Nat := wt.zipIdx.countP (fun e => hueAtLeast (e.2 + 1) e.1 n d)

/-- `hsi_hue8` of R131. -/
def hsiHue8 (r g b : Int) : Int :=
  let n := hsiNumerator r g b
  let d := hsiSquare r g b
  if d = 0 then 0
  else if b ≤ g then hueCount n d
  else if 0 < n ∧ n * n = d then 255 - (hueCount n d - 1)
  else 255 - hueCount n d

/-- `S8` of HSI (R129). -/
def hsiSat8 (r g b : Int) : Int :=
  let sg := r + g + b
  if sg = 0 then 0 else (510 * (sg - 3 * minOf r g b) + sg) / (2 * sg)

/-- `I8` of HSI (R129). -/
def hsiIntensity8 (r g b : Int) : Int := (2 * (r + g + b) + 3) / 6

/-- `luma8` (R180), also `Y8` of `CVT.YUV` (R133), before the clamp that never acts. -/
def lumaLevel (r g b : Int) : Int := (299 * r + 587 * g + 114 * b + 500) / 1000

/-- `f_RGB`, the identity (R126). -/
def forwardRgb (t : Triple) : Triple := t

/-- `f_HSV` (R127). -/
def forwardHsv (t : Triple) : Triple :=
  ⟨clamp8 (hue8 (level t.c0) (level t.c1) (level t.c2)),
   clamp8 (hsvSat8 (level t.c0) (level t.c1) (level t.c2)),
   clamp8 (maxOf (level t.c0) (level t.c1) (level t.c2))⟩

/-- `f_HSL` (R128). -/
def forwardHsl (t : Triple) : Triple :=
  ⟨clamp8 (hue8 (level t.c0) (level t.c1) (level t.c2)),
   clamp8 (hslSat8 (level t.c0) (level t.c1) (level t.c2)),
   clamp8 (hslLight8 (level t.c0) (level t.c1) (level t.c2))⟩

/-- `f_HSI` (R129, R131). -/
def forwardHsi (t : Triple) : Triple :=
  ⟨clamp8 (hsiHue8 (level t.c0) (level t.c1) (level t.c2)),
   clamp8 (hsiSat8 (level t.c0) (level t.c1) (level t.c2)),
   clamp8 (hsiIntensity8 (level t.c0) (level t.c1) (level t.c2))⟩

/-- `luma8` as a byte (R180). -/
def luma8 (t : Triple) : Byte := clamp8 (lumaLevel (level t.c0) (level t.c1) (level t.c2))

/-- `U8` of `CVT.YUV` before the clamp (R133). -/
def yuvU (r g b : Int) : Int := (-169 * r - 331 * g + 500 * b + 128500) / 1000

/-- `V8` of `CVT.YUV` before the clamp (R133). -/
def yuvV (r g b : Int) : Int := (500 * r - 419 * g - 81 * b + 128500) / 1000

/-- `f_YUV` (R133). -/
def forwardYuv (t : Triple) : Triple :=
  ⟨luma8 t,
   clamp8 (yuvU (level t.c0) (level t.c1) (level t.c2)),
   clamp8 (yuvV (level t.c0) (level t.c1) (level t.c2))⟩

end Sys2Proof.Machine
end

