-- ==== Sys2Proof/Machine/ColourInverse.lean ====
section
/-! DEFINITION. The per-pixel functions of the inverse conversions, `g_CS` of `41_codec_inverse.md`, in the
integer forms of R153 to R162, defined on all byte triples (R151). -/

namespace Sys2Proof.Machine

/-- The sector 0..5 of a stored hue, `min((2 H8) div 85, 5)` (R153). -/
def sectorOf (h : Int) : Int := min (2 * h / 85) 5

/-- `Ft` of R153: 85 times the secondary component's share of the chroma. -/
def sectorRamp (h : Int) : Int := 85 - |2 * h % 170 - 85|

/-- The channels that get `c + m`, `x + m` and `m`, placed by sector (R153, R154). -/
def placeSector (k : Int) (c x z : Byte) : Triple :=
  if k = 0 then ⟨c, x, z⟩
  else if k = 1 then ⟨x, c, z⟩
  else if k = 2 then ⟨z, c, x⟩
  else if k = 3 then ⟨z, x, c⟩
  else if k = 4 then ⟨x, z, c⟩
  else ⟨c, z, x⟩

/-- `Xc` of `INV.HSV` (R154). -/
def hsvSecond (h s v : Int) : Int := rdiv (v * (21675 - 85 * s + s * sectorRamp h)) 21675

/-- `Zc` of `INV.HSV` (R154). -/
def hsvOffset (s v : Int) : Int := rdiv (v * (255 - s)) 255

/-- `A` of R156. -/
def hslReach (l : Int) : Int := 255 - |2 * l - 255|

/-- `Cc` of `INV.HSL` (R156). -/
def hslFirst (s l : Int) : Int := rdiv (510 * l + hslReach l * s) 510

/-- `Zc` of `INV.HSL` (R156). -/
def hslOffset (s l : Int) : Int := rdiv (510 * l - hslReach l * s) 510

/-- `Xc` of `INV.HSL` (R156). -/
def hslSecond (h s l : Int) : Int :=
  rdiv (43350 * l + hslReach l * s * (2 * sectorRamp h - 85)) 43350

/-- The sector 0..2 of a stored hue for HSI (R159 (a)); 360 degrees is put in the last one. -/
def hsiSector (h : Int) : Int := if h < 85 then 0 else if h < 170 then 1 else 2

/-- The ratio `rho` times 2^32, `Rq[j]` with `j = H8 - 85 k` (R160). -/
def hsiRatio (h : Int) : Int := rq.getD (h - 85 * hsiSector h).toNat 0

/-- `Xc` of `INV.HSI` before the clamp (R160). -/
def hsiCentre (h s i : Int) : Int :=
  (510 * i * 4294967296 + 2 * (i * s) * hsiRatio h + 255 * 4294967296) / (510 * 4294967296)

/-- `Zc` of `INV.HSI` before the clamp (R160). -/
def hsiRest (h s i : Int) : Int :=
  (510 * i * 4294967296 + 2 * (i * s) * (4294967296 - hsiRatio h) + 255 * 4294967296) /
    (510 * 4294967296)

/-- `Yc` of `INV.HSI` (R160). -/
def hsiOpposite (s i : Int) : Int := rdiv (i * (255 - s)) 255

/-- `g_RGB`, the identity (R152). -/
def inverseRgb (t : Triple) : Triple := t

/-- `g_HSV` (R154). -/
def inverseHsv (t : Triple) : Triple :=
  placeSector (sectorOf (level t.c0)) (clamp8 (level t.c2))
    (clamp8 (hsvSecond (level t.c0) (level t.c1) (level t.c2)))
    (clamp8 (hsvOffset (level t.c1) (level t.c2)))

/-- `g_HSL` (R156). -/
def inverseHsl (t : Triple) : Triple :=
  placeSector (sectorOf (level t.c0)) (clamp8 (hslFirst (level t.c1) (level t.c2)))
    (clamp8 (hslSecond (level t.c0) (level t.c1) (level t.c2)))
    (clamp8 (hslOffset (level t.c1) (level t.c2)))

/-- `g_HSI` (R158, R160): `x` in the channel of the sector, `y` opposite, `z` the remaining one. -/
def inverseHsi (t : Triple) : Triple :=
  let x := clamp8 (hsiCentre (level t.c0) (level t.c1) (level t.c2))
  let z := clamp8 (hsiRest (level t.c0) (level t.c1) (level t.c2))
  let y := clamp8 (hsiOpposite (level t.c1) (level t.c2))
  if hsiSector (level t.c0) = 0 then ⟨x, z, y⟩
  else if hsiSector (level t.c0) = 1 then ⟨y, x, z⟩
  else ⟨z, y, x⟩

/-- One row of the inverse matrix of R162, before the clamp: the divisor is the determinant's share
236311, the dividend may be negative and the division is floor division. -/
def yuvRow (cu cv y u v : Int) : Int :=
  (2 * (236311 * y + cu * (u - 128) + cv * (v - 128)) + 236311) / 472622

/-- `g_YUV` (R162). -/
def inverseYuv (t : Triple) : Triple :=
  ⟨clamp8 (yuvRow (-219) 331234 (level t.c0) (level t.c1) (level t.c2)),
   clamp8 (yuvRow (-81219) (-168766) (level t.c0) (level t.c1) (level t.c2)),
   clamp8 (yuvRow 418781 234 (level t.c0) (level t.c1) (level t.c2))⟩

end Sys2Proof.Machine
end

