-- ==== Sys2Proof/Machine/Codec.lean ====
section
/-! DEFINITION. The `CVT` and `INV` commands (`40_codec_forward.md`, `41_codec_inverse.md`): one frame for
the ten of them (R120, R150) with the checks of R121, and one meaning for each. -/

namespace Sys2Proof.Machine

/-- The checks of every `CVT` and `INV` command after decoding, in order (R121, R256). -/
def State.convertChecks (s : State) (fmt : Fmt) : List Check :=
  checkFmt fmt.colour :: s.checkImages fmt.channels fmt.channels

/-- Byte `j` of the destination image: channel `j mod n` of pixel `j div n`, the converted channel for
the offsets 0, 1, 2 and the copied alpha for offset 3 (R120). -/
def State.convertByte (s : State) (f : Triple → Triple) (n j : Nat) : Byte :=
  if j % n < 3 then (f (s.sourcePixel (j % n) n (j / n))).channel (j % n)
  else s.sourceChannel 3 n (j / n) 3

/-- The effect of the frame of R120: every byte of the destination image is written. -/
def State.convertImage (f : Triple → Triple) (n : Nat) (s : State) : State :=
  s.withMem (s.storeRun s.dst.toNat 1 (s.convertByte f n) (s.npix * n))

/-- The frame of R120 and R150 with the per-pixel function `f`. -/
def convert (f : Triple → Triple) (fmt : Fmt) (s : State) : Host.Outcome State Fault Refusal :=
  perform (s.convertChecks fmt) (State.convertImage f fmt.channels) s

/-- `CVT.RGB` (R126). -/
def execCvtRgb (fmt : Fmt) (s : State) : Host.Outcome State Fault Refusal := convert forwardRgb fmt s

/-- `CVT.HSV` (R127). -/
def execCvtHsv (fmt : Fmt) (s : State) : Host.Outcome State Fault Refusal := convert forwardHsv fmt s

/-- `CVT.HSL` (R128). -/
def execCvtHsl (fmt : Fmt) (s : State) : Host.Outcome State Fault Refusal := convert forwardHsl fmt s

/-- `CVT.HSI` (R129). -/
def execCvtHsi (fmt : Fmt) (s : State) : Host.Outcome State Fault Refusal := convert forwardHsi fmt s

/-- `CVT.YUV` (R133). -/
def execCvtYuv (fmt : Fmt) (s : State) : Host.Outcome State Fault Refusal := convert forwardYuv fmt s

/-- `INV.RGB` (R152). -/
def execInvRgb (fmt : Fmt) (s : State) : Host.Outcome State Fault Refusal := convert inverseRgb fmt s

/-- `INV.HSV` (R154). -/
def execInvHsv (fmt : Fmt) (s : State) : Host.Outcome State Fault Refusal := convert inverseHsv fmt s

/-- `INV.HSL` (R156). -/
def execInvHsl (fmt : Fmt) (s : State) : Host.Outcome State Fault Refusal := convert inverseHsl fmt s

/-- `INV.HSI` (R158). -/
def execInvHsi (fmt : Fmt) (s : State) : Host.Outcome State Fault Refusal := convert inverseHsi fmt s

/-- `INV.YUV` (R162). -/
def execInvYuv (fmt : Fmt) (s : State) : Host.Outcome State Fault Refusal := convert inverseYuv fmt s

end Sys2Proof.Machine
end

