-- ==== Sys2Proof/Machine/Grayscale.lean ====
section
/-! DEFINITION. The unit grayscale_reducer: `LUMA`, `AVG`, `XCH`, `ICH` (`42_grayscale_planes.md`). -/

namespace Sys2Proof.Machine

/-- Sample `p` of the single-channel source image, as read `r` of the command sees it (R62 with one
channel). -/
def State.graySample (s : State) (r p : Nat) : Byte := s.sourceChannel r 1 p 0

/-- The sum of all grey samples (R183). -/
def State.graySum (s : State) : Nat := sumRun (s.graySample 0) s.npix

/-- The effect of a command whose destination is the single-channel image with sample `f p` at
`DST + p`. -/
def State.storePlane (f : Nat → Byte) (s : State) : State :=
  s.withMem (s.storeRun s.dst.toNat 1 f s.npix)

/-- `LUMA`'s effect: the luma of every pixel; alpha is not used (R181). -/
def State.lumaImage (n : Nat) (s : State) : State :=
  s.storePlane (fun p => luma8 (s.sourcePixel 0 n p))

/-- `LUMA` (R181). -/
def execLuma (fmt : Fmt) (s : State) : Host.Outcome State Fault Refusal :=
  perform (checkFmt fmt.colour :: s.checkImages fmt.channels 1) (State.lumaImage fmt.channels) s

/-- `AVG`'s effect (R183). -/
def State.averageImage (s : State) : State := s.withAverage s.graySum s.npix

/-- `AVG` (R183). -/
def execAvg (fmt : Fmt) (s : State) : Host.Outcome State Fault Refusal :=
  perform (checkFmt (fmt == .gray) :: s.checkEmpty :: s.checkSource 1) State.averageImage s

/-- `XCH`'s effect: channel `k` of every pixel (R185). -/
def State.extractChannel (n k : Nat) (s : State) : State :=
  s.storePlane (fun p => s.sourceChannel 0 n p k)

/-- `XCH` (R185). -/
def execXch (fmt : Fmt) (k : BitVec 4) (s : State) : Host.Outcome State Fault Refusal :=
  perform
    (checkFmt fmt.colour :: checkArg (decide (k.toNat ≤ 2)) :: s.checkImages fmt.channels 1)
    (State.extractChannel fmt.channels k.toNat) s

/-- `ICH`'s effect: the bytes `DST + p × n + k` and no others (R186). -/
def State.insertChannel (n k : Nat) (s : State) : State :=
  s.withMem (s.storeRun (s.dst.toNat + k) n (s.graySample 0) s.npix)

/-- `ICH` (R186); channel 3 is legal with `RGBA` only (R97). -/
def execIch (fmt : Fmt) (k : BitVec 4) (s : State) : Host.Outcome State Fault Refusal :=
  perform
    (checkFmt fmt.colour ::
      checkArg (decide (k.toNat ≤ 2 ∨ (k.toNat = 3 ∧ fmt = .rgba))) ::
      s.checkImages 1 fmt.channels)
    (State.insertChannel fmt.channels k.toNat) s

end Sys2Proof.Machine
end

