-- ==== Sys2Proof/Machine/Histogram.lean ====
section
/-! DEFINITION. The unit histogram_builder: `HIST` (`44_histogram.md`). -/

namespace Sys2Proof.Machine

/-- Counter `g` of a bank. -/
def Bank.counter (bank : Bank) (g : Byte) : Word := bank[g.toNat]'g.isLt

/-- `HIST[b][g] <- HIST[b][g] + 1` (R210). -/
def Bank.bump (bank : Bank) (g : Byte) : Bank := bank.set g.toNat (bank.counter g + 1#32) g.isLt

/-- A cleared bank after the values `f 0`, ..., `f (n - 1)` have been counted in it (R210). -/
def countRun (f : Nat → Byte) : Nat → Bank
  | 0 => emptyBank
  | n + 1 => (countRun f n).bump (f n)

/-- The banks of a grey image: bank 0 and, "luma of a grey pixel is the pixel", bank 3 (R210). -/
def State.grayBanks (s : State) : Vector Bank 4 :=
  #v[countRun (s.graySample 0) s.npix, emptyBank, emptyBank, countRun (s.graySample 3) s.npix]

/-- The banks of a colour image of `n` channels: the three channels and the luma re-derived from each
pixel; alpha is not counted (R210). -/
def State.colourBanks (s : State) (n : Nat) : Vector Bank 4 :=
  #v[countRun (fun p => s.sourceChannel 0 n p 0) s.npix,
     countRun (fun p => s.sourceChannel 1 n p 1) s.npix,
     countRun (fun p => s.sourceChannel 2 n p 2) s.npix,
     countRun (fun p => luma8 (s.sourcePixel 3 n p)) s.npix]

/-- `HIST`'s effect (R210). -/
def State.countImage (fmt : Fmt) (s : State) : State :=
  if fmt = .gray then s.withHistogram s.grayBanks 0b1001#4
  else s.withHistogram (s.colourBanks fmt.channels) 0b1111#4

/-- `HIST` (R210). -/
def execHist (fmt : Fmt) (s : State) : Host.Outcome State Fault Refusal :=
  perform (checkFmt (fmt != .reserved) :: s.checkEmpty :: s.checkSource fmt.channels)
    (State.countImage fmt) s

end Sys2Proof.Machine
end

