-- ==== Sys2Proof/Machine/Equalizer.lean ====
section
/-! DEFINITION. The unit histogram_equalizer: `EQMAP`, `EQAPP` (`45_equalizer.md`). -/

namespace Sys2Proof.Machine

/-- The sum of the first `n` counters of a bank, an unbounded integer. -/
def Bank.sumBelow (bank : Bank) (n : Nat) : Nat := ((bank.toList.take n).map BitVec.toNat).sum

/-- `total`: the sum over all bins (R220). -/
def Bank.total (bank : Bank) : Nat := bank.sumBelow 256

/-- `cumsum(i)`, inclusive of bin `i` (R220). -/
def Bank.cumsum (bank : Bank) (i : Nat) : Nat := bank.sumBelow (i + 1)

/-- `(cum*255 + total div 2) div total` (R220). -/
def Bank.mapEntry (bank : Bank) (i : Nat) : Byte :=
  BitVec.ofNat 8 ((bank.cumsum i * 255 + bank.total / 2) / bank.total)

/-- The 256 entries of the map (R220). -/
def Bank.equalization (bank : Bank) : Vector Byte 256 :=
  ⟨((List.range 256).map bank.mapEntry).toArray, by simp⟩

/-- `EQMAP`'s effect (R220). -/
def State.buildMap (b : Nat) (s : State) : State := s.withMap (s.bank b).equalization

/-- `EQMAP` (R220). -/
def execEqmap (fmt : Fmt) (b : BitVec 4) (s : State) : Host.Outcome State Fault Refusal :=
  perform [checkFmt (fmt == .gray), checkArg (decide (b.toNat ≤ 3)), s.checkBank b.toNat]
    (State.buildMap b.toNat) s

/-- `MAP[g]` (R223). -/
def State.mapped (s : State) (g : Byte) : Byte := s.map[g.toNat]'g.isLt

/-- `EQAPP`'s effect (R223). -/
def State.applyMap (s : State) : State := s.storePlane (fun p => s.mapped (s.graySample 0 p))

/-- `EQAPP` (R223). -/
def execEqapp (fmt : Fmt) (s : State) : Host.Outcome State Fault Refusal :=
  perform (checkFmt (fmt == .gray) :: s.checkMap :: s.checkImages 1 1) State.applyMap s

end Sys2Proof.Machine
end

