-- ==== Sys2Proof/Machine/System.lean ====
section
/-! DEFINITION. The command that belongs to no unit: `NOP` (`46_system.md` R230). -/

namespace Sys2Proof.Machine

/-- `NOP`: the checks on the word, no effect, and completion (R230). -/
def execNop (fmt : Fmt) (s : State) : Host.Outcome State Fault Refusal :=
  perform [checkFmt (fmt == .gray)] id s

end Sys2Proof.Machine
end

