-- ==== Sys2Proof/Machine/Threshold.lean ====
section
/-! DEFINITION. The unit thresholder: `BIN`, `BIN.A` (`43_threshold.md`). -/

namespace Sys2Proof.Machine

/-- "255 if g > t else 0", unsigned and strict (R200). -/
def binarise (t : Nat) (g : Byte) : Byte := if t < g.toNat then 255#8 else 0#8

/-- `BIN`'s effect (R200). -/
def State.thresholdImage (s : State) : State :=
  (s.storePlane (fun p => binarise s.level.toNat (s.graySample 0 p))).withLevelUsed s.level.toNat

/-- `BIN` (R200). -/
def execBin (fmt : Fmt) (s : State) : Host.Outcome State Fault Refusal :=
  perform (checkFmt (fmt == .gray) :: s.checkLevel :: s.checkImages 1 1) State.thresholdImage s

/-- `BIN.A`'s effect: the average of the first pass is the level of the second (R201). -/
def State.autoThresholdImage (s : State) : State :=
  ((s.storePlane (fun p => binarise (s.graySum / s.npix) (s.graySample 1 p))).withAverage
    s.graySum s.npix).withLevelUsed (s.graySum / s.npix)

/-- `BIN.A` (R201). -/
def execBinA (fmt : Fmt) (s : State) : Host.Outcome State Fault Refusal :=
  perform (checkFmt (fmt == .gray) :: s.checkEmpty :: s.checkImages 1 1) State.autoThresholdImage s

end Sys2Proof.Machine
end

