-- ==== Sys2Proof/Machine/Dispatch.lean ====
section
/-! DEFINITION. One arm for each of the twenty instructions. -/

namespace Sys2Proof.Machine

def exec (i : Instr) (s : State) : Host.Outcome State Fault Refusal :=
  match i with
  | .nop fmt => Sys2Proof.Machine.execNop fmt s
  | .cvtRgb fmt => Sys2Proof.Machine.execCvtRgb fmt s
  | .cvtHsv fmt => Sys2Proof.Machine.execCvtHsv fmt s
  | .cvtHsl fmt => Sys2Proof.Machine.execCvtHsl fmt s
  | .cvtHsi fmt => Sys2Proof.Machine.execCvtHsi fmt s
  | .cvtYuv fmt => Sys2Proof.Machine.execCvtYuv fmt s
  | .invRgb fmt => Sys2Proof.Machine.execInvRgb fmt s
  | .invHsv fmt => Sys2Proof.Machine.execInvHsv fmt s
  | .invHsl fmt => Sys2Proof.Machine.execInvHsl fmt s
  | .invHsi fmt => Sys2Proof.Machine.execInvHsi fmt s
  | .invYuv fmt => Sys2Proof.Machine.execInvYuv fmt s
  | .luma fmt => Sys2Proof.Machine.execLuma fmt s
  | .avg fmt => Sys2Proof.Machine.execAvg fmt s
  | .xch fmt k => Sys2Proof.Machine.execXch fmt k s
  | .ich fmt k => Sys2Proof.Machine.execIch fmt k s
  | .bin fmt => Sys2Proof.Machine.execBin fmt s
  | .binA fmt => Sys2Proof.Machine.execBinA fmt s
  | .hist fmt => Sys2Proof.Machine.execHist fmt s
  | .eqmap fmt b => Sys2Proof.Machine.execEqmap fmt b s
  | .eqapp fmt => Sys2Proof.Machine.execEqapp fmt s

end Sys2Proof.Machine
end

