-- ==== Sys2Proof/Machine/Engine.lean ====
section
/-! DEFINITION. The engine's one transition for the accepted command (`30_encoding.md` R92 steps 2 to 5,
`00_scope.md` R13), what abandoning it leaves in image memory (`70_reset_and_hazards.md` R292), and how a
command word is placed for the engine's next turn. -/

namespace Sys2Proof.Machine

/-- Decode the accepted word and run it (R92): checks 1 and 2 of R256 are the decoder's, the others the
instruction's. -/
def runCommand (s : State) : Host.Outcome State Fault Refusal :=
  match decode s.cmd with
  | .illegal => .next (s.takeFault .eIllegal)
  | .badColourSpace => .next (s.takeFault .eCspace)
  | .instr i => exec i s

/-- Image memory as the running command would leave it, which is image memory as it is where no command
runs. -/
def State.memWhenDone (s : State) : Memory :=
  if s.busy then
    match runCommand s with
    | .next t => t.mem
    | .fault _ => s.mem
    | .refused _ => s.mem
  else s.mem

/-- Image memory after the running command is abandoned: each byte "holds either the value it had before
the command or the value the command would have written, the choice unspecified per byte" (R292). -/
def State.memAbandoned (s : State) : Memory :=
  if s.busy then Memory.mix (Config.abandonedWrote s.moment) s.mem s.memWhenDone else s.mem

/-- A command word accepted and the engine's turn next: the state a host write of `w` to `CMD` leaves
(R33), with a latched fault, which would have blocked the write, cleared as the host would clear it (R259),
and the reset input released. -/
def State.placeCommand (w : Word) (s : State) : State :=
  { (s.returnFromFault.accept w).withResetInput false with agenda := .engine :: s.agenda }

end Sys2Proof.Machine
end

