-- ==== Sys2Proof/Machine/Flags.lean ====
section
/-! DEFINITION. The flags: the `STATUS` word and the writes that clear its flags (`10_state.md` R32), the
`IE` word (R36), the interrupt output (R46, `60_exceptions.md` R258) and the numbers of the fault codes
(R252). The block has no arithmetic flags (R31). -/

namespace Sys2Proof.Machine

/-- The value `ERRCODE[7:0]` takes (R252). -/
def ErrorCode.number : ErrorCode → Nat
  | .eNone => 0
  | .eIllegal => 1
  | .eCspace => 2
  | .eFmt => 3
  | .eArg => 4
  | .eLevel => 5
  | .eEmpty => 6
  | .eNohist => 7
  | .eNomap => 8
  | .eRange => 9
  | .eOverlap => 10

/-- The `STATUS` word: `BUSY` 0, `DONE` 1, `ERR` 2, `DROP` 3, `HV` 7:4, `MV` 8, reserved bits zero
(R32). -/
def State.statusWord (s : State) : Word :=
  BitVec.ofNat 32
    (s.busy.toNat + 2 * s.done.toNat + 4 * s.err.toNat + 8 * s.drop.toNat +
      16 * s.hv.toNat + 256 * s.mv.toNat)

/-- The `IE` word: bits 3:1, the rest zero (R36). -/
def State.ieWord (s : State) : Word :=
  BitVec.ofNat 32 (2 * s.doneIE.toNat + 4 * s.errIE.toNat + 8 * s.dropIE.toNat)

/-- Bit 1 of a host write to `STATUS` clears `DONE` (R32). -/
def State.clearDone (clear : Bool) (s : State) : State := { s with done := s.done && !clear }

/-- Bit 2 of a host write to `STATUS` is the return from a fault (R32, R259). -/
def State.clearErr (clear : Bool) (s : State) : State := if clear then s.returnFromFault else s

/-- Bit 3 of a host write to `STATUS` clears `DROP` (R32). -/
def State.clearDrop (clear : Bool) (s : State) : State := { s with drop := s.drop && !clear }

/-- A host write of `v` to `STATUS`: "for each of bits 1, 2, 3 that is 1 in v, the flag is cleared"
(R232). -/
def State.writeStatus (v : Word) (s : State) : State :=
  ((s.clearDone (v.getLsbD 1)).clearErr (v.getLsbD 2)).clearDrop (v.getLsbD 3)

/-- A host write of `v` to `IE`: `IE[3:1] <- v[3:1]` (R232). -/
def State.writeIE (v : Word) (s : State) : State :=
  { s with doneIE := v.getLsbD 1, errIE := v.getLsbD 2, dropIE := v.getLsbD 3 }

/-- The interrupt output (R46, R258); the block drives it low while the reset input is asserted
(R290). -/
def State.irq (s : State) : Bool :=
  !s.inReset && ((s.doneIE && s.done) || (s.errIE && s.err) || (s.dropIE && s.drop))

end Sys2Proof.Machine
end

