-- ==== Sys2Proof/Machine/HostPort.lean ====
section
/-! DEFINITION. The host's operations (`46_system.md` R231 to R233): the register map (`10_state.md` R39),
register reads and writes, accesses to image memory under the hazard rule (`70_reset_and_hazards.md`
R300), soft reset (R291), and the reset input (R290). -/

namespace Sys2Proof.Machine

/-- What an offset of the window names (R39). -/
inductive Reg where
  | src
  | dst
  | dim
  | level
  | avg
  | lvlUsed
  | sumLo
  | sumHi
  | cmd
  | status
  | errCode
  | errInfo
  | ie
  | ctrl
  | id
  | hist (b i : Nat)
  | map (i : Nat)
  | reserved
  deriving DecidableEq, Repr

/-- The host address of an offset of the window (R39). -/
def regAddress (offset : BitVec 14) : Nat := Config.regBase + offset.toNat

/-- The offset of a host address that the block decodes (R39). -/
def offsetOfAddress (addr : Nat) : Option (BitVec 14) :=
  if Config.regBase ≤ addr ∧ addr < Config.regBase + Config.windowBytes then
    some (BitVec.ofNat 14 (addr - Config.regBase))
  else none

/-- The register map (R39), for aligned offsets. -/
def regAt (offset : BitVec 14) : Reg :=
  let o := offset.toNat
  if o = 0x000 then .src
  else if o = 0x004 then .dst
  else if o = 0x008 then .dim
  else if o = 0x00C then .level
  else if o = 0x010 then .avg
  else if o = 0x014 then .lvlUsed
  else if o = 0x018 then .sumLo
  else if o = 0x01C then .sumHi
  else if o = 0x020 then .cmd
  else if o = 0x024 then .status
  else if o = 0x028 then .errCode
  else if o = 0x02C then .errInfo
  else if o = 0x030 then .ie
  else if o = 0x034 then .ctrl
  else if o = 0x038 then .id
  else if 0x1000 ≤ o ∧ o < 0x2000 then .hist ((o - 0x1000) / 0x400) ((o - 0x1000) % 0x400 / 4)
  else if 0x2000 ≤ o ∧ o < 0x2400 then .map ((o - 0x2000) / 4)
  else .reserved

/-- Counter `i` of bank `b`, zero while the bank is not valid (R41). -/
def State.histWord (s : State) (b i : Nat) : Word :=
  if s.hv.getLsbD b then (s.bank b)[i]?.getD 0#32 else 0#32

/-- Entry `i` of the map, zero while there is no map (R43). -/
def State.mapWord (s : State) (i : Nat) : Word :=
  if s.mv then (s.map[i]?.getD 0#8).setWidth 32 else 0#32

/-- A value the host must not read while `BUSY = 1`: any value then (R25, R41, R43, U3). -/
def State.whenIdle (s : State) (w : Word) : Word :=
  if s.busy then Config.busyRead s.moment else w

/-- The value a register read returns (R231). -/
def State.regValue (s : State) : Reg → Word
  | .src => s.src
  | .dst => s.dst
  | .dim => s.dim
  | .level => s.level
  | .avg => s.whenIdle (s.avg.setWidth 32)
  | .lvlUsed => s.whenIdle (s.lvlUsed.setWidth 32)
  | .sumLo => s.whenIdle s.sumLo
  | .sumHi => s.whenIdle s.sumHi
  | .cmd => s.cmd
  | .status => s.statusWord
  | .errCode => BitVec.ofNat 32 s.errCode.number
  | .errInfo => s.errInfo
  | .ie => s.ieWord
  | .ctrl => 0#32
  | .id => Config.idValue
  | .hist b i => s.whenIdle (s.histWord b i)
  | .map i => s.whenIdle (s.mapWord i)
  | .reserved => 0#32

/-- A write to an operand register takes effect only while `BUSY = 0`, else it is dropped (R29). -/
def State.writeOperand (s written : State) : State :=
  if s.busy then s.dropWrite else written

/-- A write to `CMD` (R33): accepted when `BUSY = 0` and `ERR = 0`, else dropped. -/
def State.issue (w : Word) (s : State) : State :=
  if s.busy || s.err then s.dropWrite else s.accept w

/-- Soft reset (R291): exactly the state of R290; a running command is abandoned (R292). -/
def State.softReset (s : State) : State := s.resetBlock s.memAbandoned

/-- The effect of a register write, complete (R232). -/
def State.writeReg (r : Reg) (v : Word) (s : State) : State :=
  match r with
  | .src => s.writeOperand { s with src := v }
  | .dst => s.writeOperand { s with dst := v }
  | .dim => s.writeOperand { s with dim := v }
  | .level => s.writeOperand { s with level := v }
  | .cmd => s.issue v
  | .status => s.writeStatus v
  | .ie => s.writeIE v
  | .ctrl => if v.getLsbD 0 then s.softReset else s
  | .avg => s
  | .lvlUsed => s
  | .sumLo => s
  | .sumHi => s
  | .errCode => s
  | .errInfo => s
  | .id => s
  | .hist _ _ => s
  | .map _ => s
  | .reserved => s

/-- "Only naturally aligned 32-bit reads and writes are supported" (R39, R72). -/
def supportedAccess (size : AccessSize) (offset : BitVec 14) : Bool :=
  size == .word && offset.toNat % 4 == 0

/-- What a register read at this moment returns: while the reset input is asserted the block accepts no
register access and the value is a free one (R290). -/
def State.portValue (s : State) (offset : BitVec 14) : Word :=
  if s.inReset then Config.readInReset s.moment else s.regValue (regAt offset)

/-- A supported register write; while the reset input is asserted it is not accepted (R290). -/
def State.portWrite (offset : BitVec 14) (v : Word) (s : State) : State :=
  if s.inReset then s else s.writeReg (regAt offset) v

/-- The byte a host read of image memory returns; under a running command a byte the command will write
"holds its old or its new value" (R300). -/
def State.hostByte (s : State) (a : Nat) : Byte :=
  if s.busy && Config.earlyReadSeesNew s.moment a then s.memWhenDone.read a else s.mem.read a

/-- One host action. `WAIT` is one read of `STATUS`, taken once no command runs (R233, log entry 14).
DESIGN CHOICE, unsafe (log entry 14): the spec does not say what `WAIT` does while the reset input is asserted;
it ends there too, after one read of the free value, whatever that value's bit 0 is. -/
def hostAct (a : HostAction) (s : State) : Host.Outcome State Fault Refusal :=
  match a with
  | .regRead size offset =>
    if supportedAccess size offset then .next (s.withReadData (s.portValue offset)).tick
    else .refused .registerAccess
  | .regWrite size offset v =>
    if supportedAccess size offset then .next (s.portWrite offset v).tick
    else .refused .registerAccess
  | .memRead addr => .next (s.withReadData ((s.hostByte addr.toNat).setWidth 32)).tick
  | .memWrite addr v => .next (s.hostStore addr.toNat v).tick
  | .wait => .next (s.withReadData (s.portValue 0x024#14)).tick

/-- The reset input is asserted: a running command is abandoned and every register and table takes its
reset value (R290, R292). -/
def State.assertReset (s : State) : State := (s.resetBlock s.memAbandoned).withResetInput true

/-- The reset input is released: "every piece of state has the value of the table" (R290). -/
def State.releaseReset (s : State) : State := (s.resetBlock s.memAbandoned).withResetInput false

end Sys2Proof.Machine
end

