-- ==== Sys2Proof/Machine/Schedule.lean ====
section
/-! DEFINITION. Who moves next (`00_scope.md` R12, R15): the agenda says it, as plain data; with nothing on
the agenda a running command is still owed its step (`70_reset_and_hazards.md` R305), and with no command
running the run is over and the block idles. -/

namespace Sys2Proof.Machine

/-- The engine moves: it is its turn, or the host only waits for it (R233, R305). -/
def State.engineMoves (s : State) : Bool :=
  s.busy &&
    match s.agenda with
    | [] => true
    | .engine :: _ => true
    | .host .wait :: _ => true
    | .host (.regRead _ _) :: _ => false
    | .host (.regWrite _ _ _) :: _ => false
    | .host (.memRead _) :: _ => false
    | .host (.memWrite _ _) :: _ => false
    | .resetAssert :: _ => false
    | .resetRelease :: _ => false

/-- The state in which the engine runs the command when it moves: its own turn is taken off the agenda,
a `WAIT` of the host stays until it is over. -/
def State.engineTakesTurn (s : State) : State :=
  match s.agenda with
  | .engine :: _ => s.popEvent
  | [] => s
  | .host _ :: _ => s
  | .resetAssert :: _ => s
  | .resetRelease :: _ => s

/-- An event that is not the engine's. -/
def outsideTurn (s : State) : Host.Outcome State Fault Refusal :=
  match s.agenda with
  | [] => .next s
  | .engine :: _ => .next s.popEvent
  | .host a :: _ => hostAct a s.popEvent
  | .resetAssert :: _ => .next s.popEvent.assertReset
  | .resetRelease :: _ => .next s.popEvent.releaseReset

/-- One step of the whole machine: the engine's one atomic transition, or one event of the outside
world. -/
def turn (s : State) : Host.Outcome State Fault Refusal :=
  if s.engineMoves then runCommand s.engineTakesTurn else outsideTurn s

end Sys2Proof.Machine
end

