-- ==== Sys2Proof/Machine/Step.lean ====
section
/-! DEFINITION. The step of the machine, and how the host places the word of its next command. -/

namespace Sys2Proof.Machine

/-- One step (`00_scope.md` R13, R15). -/
def step (s : State) : Host.Outcome State Fault Refusal := Sys2Proof.Machine.turn s

/-- The state with that command word accepted and the engine's turn next, so that the very next step
runs it (log entry 9). -/
def State.withFetchWord (s : State) (nbits w : Nat) : State :=
  Sys2Proof.Machine.State.placeCommand (tableWord nbits w) s

end Sys2Proof.Machine
end

