-- ==== Sys2Proof/Machine/ExactColour.lean ====
section
/-! DEFINITION. The real-valued definitions of the conversions, which R134 and R163 call the normative
ones: `40_codec_forward.md` R122, R125, R127, R128, R129, R133 and `41_codec_inverse.md` R151, R153, R154,
R156, R158, R162. Where only rational numbers occur they are functions; the hue of HSI, which takes an inverse
cosine and a square root, and the inverse of HSI, which takes cosines, are relations over the reals. The
machine runs the integer forms (log entry 13); claims compare the two. -/

namespace Sys2Proof.Machine.Exact

/-- `rnd(x) = floor(x + 1/2)` (R9). -/
def rnd (x : ℚ) : ℤ := ⌊x + 1 / 2⌋

/-- `q8(x) = clamp8(rnd(255 × x))` (R9). -/
def q8 (x : ℚ) : Byte := clamp8 (rnd (255 * x))

/-- A stored byte as a component in [0, 1] (R122, R151). -/
def unit (b : Byte) : ℚ := (b.toNat : ℚ) / 255

/-- A stored byte as a component centred on 128 (R151). -/
def centred (b : Byte) : ℚ := ((b.toNat : ℚ) - 128) / 255

/-- The real `mod`, result in [0, m). -/
def realMod (x m : ℚ) : ℚ := x - m * ⌊x / m⌋

/-- `max(r, g, b)`. -/
def top (r g b : ℚ) : ℚ := max (max r g) b

/-- `min(r, g, b)`. -/
def bottom (r g b : ℚ) : ℚ := min (min r g) b

/-- The hue of HSV and HSL in [0, 1) (R125). -/
def hue (r g b : ℚ) : ℚ :=
  let d := top r g b - bottom r g b
  if d = 0 then 0
  else if top r g b = r then realMod ((g - b) / d) 6 / 6
  else if top r g b = g then ((b - r) / d + 2) / 6
  else ((r - g) / d + 4) / 6

/-- The saturation of HSV (R127). -/
def hsvSaturation (r g b : ℚ) : ℚ :=
  if top r g b = 0 then 0 else (top r g b - bottom r g b) / top r g b

/-- The lightness of HSL (R128). -/
def lightness (r g b : ℚ) : ℚ := (top r g b + bottom r g b) / 2

/-- The saturation of HSL (R128). -/
def hslSaturation (r g b : ℚ) : ℚ :=
  if top r g b - bottom r g b = 0 then 0
  else (top r g b - bottom r g b) / (1 - |2 * lightness r g b - 1|)

/-- The intensity of HSI (R129). -/
def intensity (r g b : ℚ) : ℚ := (r + g + b) / 3

/-- The saturation of HSI (R129). -/
def hsiSaturation (r g b : ℚ) : ℚ :=
  if intensity r g b = 0 then 0 else 1 - bottom r g b / intensity r g b

/-- `f_HSV` (R127). -/
def forwardHsv (t : Triple) : Triple :=
  ⟨q8 (hue (unit t.c0) (unit t.c1) (unit t.c2)),
   q8 (hsvSaturation (unit t.c0) (unit t.c1) (unit t.c2)),
   q8 (top (unit t.c0) (unit t.c1) (unit t.c2))⟩

/-- `f_HSL` (R128). -/
def forwardHsl (t : Triple) : Triple :=
  ⟨q8 (hue (unit t.c0) (unit t.c1) (unit t.c2)),
   q8 (hslSaturation (unit t.c0) (unit t.c1) (unit t.c2)),
   q8 (lightness (unit t.c0) (unit t.c1) (unit t.c2))⟩

/-- The luma component (R133, R180). -/
def luma (t : Triple) : ℚ :=
  299 / 1000 * unit t.c0 + 587 / 1000 * unit t.c1 + 114 / 1000 * unit t.c2

/-- A real component is stored as the byte `q8(x)` (R9). -/
def IsQ8 (x : ℝ) (b : Byte) : Prop := b = clamp8 ⌊255 * x + 1 / 2⌋

/-- `h` is the hue of HSI of a pixel: the inverse cosine of the symmetric difference ratio, taken the other
way round the circle where `B > G`, and 0 for an achromatic pixel (R129). -/
def IsHsiHue (t : Triple) (h : ℝ) : Prop :=
  let r : ℝ := t.c0.toNat
  let g : ℝ := t.c1.toNat
  let b : ℝ := t.c2.toNat
  let d := (r - g) ^ 2 + (r - b) * (g - b)
  let theta := Real.arccos (((r - g) + (r - b)) / (2 * √d))
  (d = 0 → h = 0) ∧
    (d ≠ 0 → b ≤ g → h = theta / (2 * Real.pi)) ∧
    (d ≠ 0 → g < b → h = (2 * Real.pi - theta) / (2 * Real.pi))

/-- `f_HSI` (R129) gives these three bytes. -/
def IsForwardHsi (t o : Triple) : Prop :=
  (∃ h : ℝ, IsHsiHue t h ∧ IsQ8 h o.c0) ∧
    o.c1 = q8 (hsiSaturation (unit t.c0) (unit t.c1) (unit t.c2)) ∧
    o.c2 = q8 (intensity (unit t.c0) (unit t.c1) (unit t.c2))

/-- `f_YUV` (R133). -/
def forwardYuv (t : Triple) : Triple :=
  ⟨clamp8 (rnd (255 * luma t)),
   clamp8 (rnd (255 * (-169 / 1000 * unit t.c0 - 331 / 1000 * unit t.c1 + 1 / 2 * unit t.c2) + 128)),
   clamp8 (rnd (255 * (1 / 2 * unit t.c0 - 419 / 1000 * unit t.c1 - 81 / 1000 * unit t.c2) + 128))⟩

/-- The six-sector reconstruction of a hue, a chroma and an offset (R153). -/
def sectorRgb (h c m : ℚ) : ℚ × ℚ × ℚ :=
  let h' := 6 * h
  let x := c * (1 - |realMod h' 2 - 1|)
  let k := min ⌊h'⌋ 5
  if k = 0 then (c + m, x + m, m)
  else if k = 1 then (x + m, c + m, m)
  else if k = 2 then (m, c + m, x + m)
  else if k = 3 then (m, x + m, c + m)
  else if k = 4 then (x + m, m, c + m)
  else (c + m, m, x + m)

/-- Each channel is `q8` of its component (R151). -/
def quantise (p : ℚ × ℚ × ℚ) : Triple := ⟨q8 p.1, q8 p.2.1, q8 p.2.2⟩

/-- `g_HSV` (R154). -/
def inverseHsv (t : Triple) : Triple :=
  let c := unit t.c2 * unit t.c1
  quantise (sectorRgb (unit t.c0) c (unit t.c2 - c))

/-- `g_HSL` (R156). -/
def inverseHsl (t : Triple) : Triple :=
  let c := (1 - |2 * unit t.c2 - 1|) * unit t.c1
  quantise (sectorRgb (unit t.c0) c (unit t.c2 - c / 2))

/-- Inside one sector of HSI, at the angle `a` degrees past its start: the bytes of the channel the sector is
centred on, of the channel opposite and of the remaining one (R158). -/
def IsHsiSector (a s i : ℝ) (cx cy cz : Byte) : Prop :=
  let x := i * (1 + s * Real.cos (a * Real.pi / 180) / Real.cos ((60 - a) * Real.pi / 180))
  let y := i * (1 - s)
  let z := 3 * i - (x + y)
  IsQ8 x cx ∧ IsQ8 y cy ∧ IsQ8 z cz

/-- `g_HSI` (R158) gives these three bytes: three sectors of 120 degrees, the last closed at 360. -/
def IsInverseHsi (t o : Triple) : Prop :=
  let hd : ℝ := 360 * ((t.c0.toNat : ℝ) / 255)
  let s : ℝ := (t.c1.toNat : ℝ) / 255
  let i : ℝ := (t.c2.toNat : ℝ) / 255
  (hd < 120 → IsHsiSector hd s i o.c0 o.c2 o.c1) ∧
    (120 ≤ hd → hd < 240 → IsHsiSector (hd - 120) s i o.c1 o.c0 o.c2) ∧
    (240 ≤ hd → IsHsiSector (hd - 240) s i o.c2 o.c1 o.c0)

/-- The inverse of the forward matrix of R133 applied to `(y, u, v)` (R162). -/
def yuvToRgb (y u v : ℚ) : ℚ × ℚ × ℚ :=
  (y + (-219 * u + 331234 * v) / 236311,
   y + (-81219 * u - 168766 * v) / 236311,
   y + (418781 * u + 234 * v) / 236311)

/-- `g_YUV` (R162). -/
def inverseYuv (t : Triple) : Triple :=
  quantise (yuvToRgb (unit t.c0) (centred t.c1) (centred t.c2))

end Sys2Proof.Machine.Exact
end

