-- ==== Sys2Proof/Safety.lean ====
section
/-! DEFINITION. What counts as a safe run, and the vocabulary claims are stated in: which command runs
normally and which fault it takes otherwise (`60_exceptions.md` R256, written from the rule's own table and
not from the meanings), the regions and the destination set (`20_memory.md` R67), what a command leaves
unchanged, the host's duty (`70_reset_and_hazards.md` R300), and the invariants of the machine. -/

namespace Sys2Proof

/-- The channel count of the source region, none where the command reads no image (R67). -/
def Instr.sourceChannels : Instr → Option Nat
  | .nop _ => none
  | .cvtRgb fmt => some fmt.channels
  | .cvtHsv fmt => some fmt.channels
  | .cvtHsl fmt => some fmt.channels
  | .cvtHsi fmt => some fmt.channels
  | .cvtYuv fmt => some fmt.channels
  | .invRgb fmt => some fmt.channels
  | .invHsv fmt => some fmt.channels
  | .invHsl fmt => some fmt.channels
  | .invHsi fmt => some fmt.channels
  | .invYuv fmt => some fmt.channels
  | .luma fmt => some fmt.channels
  | .avg _ => some 1
  | .xch fmt _ => some fmt.channels
  | .ich _ _ => some 1
  | .bin _ => some 1
  | .binA _ => some 1
  | .hist fmt => some fmt.channels
  | .eqmap _ _ => none
  | .eqapp _ => some 1

/-- The channel count of the destination region, none where the command writes no image (R67). -/
def Instr.destChannels : Instr → Option Nat
  | .nop _ => none
  | .cvtRgb fmt => some fmt.channels
  | .cvtHsv fmt => some fmt.channels
  | .cvtHsl fmt => some fmt.channels
  | .cvtHsi fmt => some fmt.channels
  | .cvtYuv fmt => some fmt.channels
  | .invRgb fmt => some fmt.channels
  | .invHsv fmt => some fmt.channels
  | .invHsl fmt => some fmt.channels
  | .invHsi fmt => some fmt.channels
  | .invYuv fmt => some fmt.channels
  | .luma _ => some 1
  | .avg _ => none
  | .xch _ _ => some 1
  | .ich fmt _ => some fmt.channels
  | .bin _ => some 1
  | .binA _ => some 1
  | .hist _ => none
  | .eqmap _ _ => none
  | .eqapp _ => some 1

/-- The commands that read `LEVEL`: `BIN` only (R263). -/
def Instr.readsLevel : Instr → Bool
  | .bin _ => true
  | .nop _ | .cvtRgb _ | .cvtHsv _ | .cvtHsl _ | .cvtHsi _ | .cvtYuv _ | .invRgb _ | .invHsv _
  | .invHsl _ | .invHsi _ | .invYuv _ | .luma _ | .avg _ | .xch _ _ | .ich _ _ | .binA _
  | .hist _ | .eqmap _ _ | .eqapp _ => false

/-- The commands that need at least one pixel: the first column of R262. -/
def Instr.needsPixels : Instr → Bool
  | .avg _ => true
  | .binA _ => true
  | .hist _ => true
  | .nop _ | .cvtRgb _ | .cvtHsv _ | .cvtHsl _ | .cvtHsi _ | .cvtYuv _ | .invRgb _ | .invHsv _
  | .invHsl _ | .invHsi _ | .invYuv _ | .luma _ | .xch _ _ | .ich _ _ | .bin _ | .eqmap _ _
  | .eqapp _ => false

end Sys2Proof

namespace Sys2Proof.Machine

/-! ## Which fault a command takes (R256) -/

/-- Check 7 fails: the bank `EQMAP` selects holds no histogram. -/
def bankMissing (i : Instr) (s : State) : Bool :=
  match i with
  | .eqmap _ b => !s.hv.getLsbD b.toNat
  | .nop _ | .cvtRgb _ | .cvtHsv _ | .cvtHsl _ | .cvtHsi _ | .cvtYuv _ | .invRgb _ | .invHsv _
  | .invHsl _ | .invHsi _ | .invYuv _ | .luma _ | .avg _ | .xch _ _ | .ich _ _ | .bin _
  | .binA _ | .hist _ | .eqapp _ => false

/-- Check 7 fails: `EQAPP` has no map. -/
def mapMissing (i : Instr) (s : State) : Bool :=
  match i with
  | .eqapp _ => !s.mv
  | .nop _ | .cvtRgb _ | .cvtHsv _ | .cvtHsl _ | .cvtHsi _ | .cvtYuv _ | .invRgb _ | .invHsv _
  | .invHsl _ | .invHsi _ | .invYuv _ | .luma _ | .avg _ | .xch _ _ | .ich _ _ | .bin _
  | .binA _ | .hist _ | .eqmap _ _ => false

/-- A region of non-zero length runs past the top of image memory (R265). -/
def pastTop (base len : Nat) : Prop := 0 < len ∧ 2 ^ 32 < base + len

/-- Two regions of non-zero length share a byte (R266). -/
def shareByte (base len base' len' : Nat) : Prop :=
  0 < len ∧ 0 < len' ∧ base < base' + len' ∧ base' < base + len

/-- Check 8 fails: the source region first, then the destination region (R256). -/
def rangeFails (i : Instr) (s : State) : Prop :=
  (∃ n, i.sourceChannels = some n ∧ pastTop s.src.toNat (s.npix * n)) ∨
    ∃ d, i.destChannels = some d ∧ pastTop s.dst.toNat (s.npix * d)

/-- Check 9 fails (R256). -/
def overlapFails (i : Instr) (s : State) : Prop :=
  ∃ n d, i.sourceChannels = some n ∧ i.destChannels = some d ∧
    shareByte s.src.toNat (s.npix * n) s.dst.toNat (s.npix * d)

/-- The fault a decoded instruction takes in a state: the code of the first failing check of R256 from
check 3 down, `E_NONE` where all pass. -/
inductive TakesFault (i : Instr) (s : State) : ErrorCode → Prop where
  | fmt : i.fmtLegal = false → TakesFault i s .eFmt
  | arg : i.fmtLegal = true → i.argLegal = false → TakesFault i s .eArg
  | level : i.wellFormed = true → i.readsLevel = true → 255 < s.level.toNat → TakesFault i s .eLevel
  | empty : i.wellFormed = true → i.needsPixels = true → s.npix = 0 → TakesFault i s .eEmpty
  | nohist : i.wellFormed = true → bankMissing i s = true → TakesFault i s .eNohist
  | nomap : i.wellFormed = true → mapMissing i s = true → TakesFault i s .eNomap
  | range : i.wellFormed = true → (i.readsLevel = true → s.level.toNat ≤ 255) →
      (i.needsPixels = true → s.npix ≠ 0) → bankMissing i s = false → mapMissing i s = false →
      rangeFails i s → TakesFault i s .eRange
  | overlap : i.wellFormed = true → (i.readsLevel = true → s.level.toNat ≤ 255) →
      (i.needsPixels = true → s.npix ≠ 0) → bankMissing i s = false → mapMissing i s = false →
      ¬ rangeFails i s → overlapFails i s → TakesFault i s .eOverlap

/-- Every check of R256 passes: the command executes normally. -/
structure Ready (i : Instr) (s : State) : Prop where
  wellFormed : i.wellFormed = true
  level : i.readsLevel = true → s.level.toNat ≤ 255
  pixels : i.needsPixels = true → s.npix ≠ 0
  bank : bankMissing i s = false
  map : mapMissing i s = false
  inRange : ¬ rangeFails i s
  disjoint : ¬ overlapFails i s

/-- The bytes of the destination set (R67): for `ICH` the bytes `DST + p × n + k`, for the other commands
with a destination the whole destination region. -/
def stores (i : Instr) (s : State) (a : Nat) : Prop :=
  match i with
  | .ich fmt k => ∃ p, p < s.npix ∧ a = s.dst.toNat + p * fmt.channels + k.toNat
  | .nop _ | .cvtRgb _ | .cvtHsv _ | .cvtHsl _ | .cvtHsi _ | .cvtYuv _ | .invRgb _ | .invHsv _
  | .invHsl _ | .invHsi _ | .invYuv _ | .luma _ | .avg _ | .xch _ _ | .bin _ | .binA _
  | .hist _ | .eqmap _ _ | .eqapp _ => 
    ∃ d, i.destChannels = some d ∧ s.dst.toNat ≤ a ∧ a < s.dst.toNat + s.npix * d

/-- The bytes of the source region (R67). -/
def readsFrom (i : Instr) (s : State) (a : Nat) : Prop :=
  ∃ n, i.sourceChannels = some n ∧ s.src.toNat ≤ a ∧ a < s.src.toNat + s.npix * n

/-! ## What stays -/

/-- `SRC`, `DST`, `DIM`, `LEVEL` are unchanged. -/
def SameOperands (s t : State) : Prop :=
  t.src = s.src ∧ t.dst = s.dst ∧ t.dim = s.dim ∧ t.level = s.level

/-- `AVG`, `SUMLO`, `SUMHI` are unchanged. -/
def SameAverage (s t : State) : Prop := t.avg = s.avg ∧ t.sumLo = s.sumLo ∧ t.sumHi = s.sumHi

/-- `HIST` and `HV` are unchanged. -/
def SameHistogram (s t : State) : Prop := t.hist = s.hist ∧ t.hv = s.hv

/-- `MAP` and `MV` are unchanged. -/
def SameMap (s t : State) : Prop := t.map = s.map ∧ t.mv = s.mv

/-- `CMD`, the fault registers, `DROP`, `IE` and the reset input are unchanged. -/
def SameControl (s t : State) : Prop :=
  t.cmd = s.cmd ∧ t.err = s.err ∧ t.drop = s.drop ∧ t.errCode = s.errCode ∧ t.errInfo = s.errInfo ∧
    t.doneIE = s.doneIE ∧ t.errIE = s.errIE ∧ t.dropIE = s.dropIE ∧ t.inReset = s.inReset

/-- What is outside the block, image memory apart, is unchanged. -/
def SameOutside (s t : State) : Prop :=
  t.agenda = s.agenda ∧ t.readData = s.readData ∧ t.moment = s.moment

/-- Every byte of image memory reads as before. -/
def SameMemory (s t : State) : Prop := ∀ a, t.mem.read a = s.mem.read a

/-- The command completed (R92 step 5): `BUSY` fell, `DONE` rose, and no operand or control register and
nothing outside the block changed. -/
def Completed (s t : State) : Prop :=
  t.busy = false ∧ t.done = true ∧ SameOperands s t ∧ SameControl s t ∧ SameOutside s t

/-- The state a fault with code `c` leaves (R255): the code, the word and `ERR` are latched, `BUSY` falls,
nothing else changes. -/
def Faulted (c : ErrorCode) (s t : State) : Prop :=
  t.errCode = c ∧ t.errInfo = s.cmd ∧ t.err = true ∧ t.busy = false ∧ t.done = s.done ∧
    SameOperands s t ∧ SameAverage s t ∧ t.lvlUsed = s.lvlUsed ∧ SameHistogram s t ∧ SameMap s t ∧
    t.cmd = s.cmd ∧ t.drop = s.drop ∧ t.doneIE = s.doneIE ∧ t.errIE = s.errIE ∧
    t.dropIE = s.dropIE ∧ t.inReset = s.inReset ∧ SameOutside s t ∧ t.mem = s.mem

/-- Every register, flag and table of the block has its reset value (R47). -/
def BlockReset (t : State) : Prop :=
  t.src = 0#32 ∧ t.dst = 0#32 ∧ t.dim = 0#32 ∧ t.level = 0#32 ∧ t.avg = 0#8 ∧ t.lvlUsed = 0#8 ∧
    t.sumLo = 0#32 ∧ t.sumHi = 0#32 ∧ t.cmd = 0#32 ∧ t.busy = false ∧ t.done = false ∧
    t.err = false ∧ t.drop = false ∧ t.hv = 0#4 ∧ t.mv = false ∧ t.errCode = .eNone ∧
    t.errInfo = 0#32 ∧ t.doneIE = false ∧ t.errIE = false ∧ t.dropIE = false

/-! ## The host's duty -/

/-- No byte of the command's source region and none of its destination set was written by the host since
the command was accepted, so no write has broken the rule of R300 in a way the command can show. Writes of
other bytes are the host's right. -/
def HostKeptOff (i : Instr) (s : State) : Prop :=
  ∀ c ∈ s.raced, ¬ readsFrom i s c.1 ∧ ¬ stores i s c.1

/-- Byte `c` of pixel `p` of an `n`-channel image at `base` (R62). -/
def pixelByte (m : Memory) (base n p c : Nat) : Byte := m.read (base + p * n + c)

/-- The three non-alpha channels of pixel `p` of an `n`-channel image at `base` (R62, R63). -/
def pixelAt (m : Memory) (base n p : Nat) : Triple :=
  ⟨pixelByte m base n p 0, pixelByte m base n p 1, pixelByte m base n p 2⟩

/-- Pixel `p` of the destination image holds `f` of pixel `p` of the source image, and the alpha of the
source where there is one (R120). -/
def ConvertedImage (f : Triple → Triple) (n : Nat) (s t : State) : Prop :=
  ∀ p, p < s.npix →
    pixelAt t.mem s.dst.toNat n p = f (pixelAt s.mem s.src.toNat n p) ∧
      (n = 4 → pixelByte t.mem s.dst.toNat 4 p 3 = pixelByte s.mem s.src.toNat 4 p 3)

/-- Sample `p` of the single-channel destination image holds `f p`. -/
def WrittenPlane (f : Nat → Byte) (s t : State) : Prop :=
  ∀ p, p < s.npix → t.mem.read (s.dst.toNat + p) = f p

/-- The command answers a next state in which it has completed, has left every byte outside its
destination set alone, and, where the host kept off its regions, `result` holds. -/
def Completes (i : Instr) (s : State) (frame result : State → Prop) : Prop :=
  ∃ t, exec i s = .next t ∧ Completed s t ∧ frame t ∧
    (∀ a, ¬ stores i s a → t.mem.read a = s.mem.read a) ∧ (HostKeptOff i s → result t)

/-- The registers, the tables and the valid bits that the instruction reads are the same (R104), and so is
every byte of its source region. -/
def SameInputs (i : Instr) (s u : State) : Prop :=
  (i.sourceChannels ≠ none → u.src = s.src ∧ u.dim = s.dim) ∧
    (i.destChannels ≠ none → u.dst = s.dst) ∧
    (i.readsLevel = true → u.level = s.level) ∧
    (∀ fmt b, i = .eqmap fmt b →
      u.bank b.toNat = s.bank b.toNat ∧ u.hv.getLsbD b.toNat = s.hv.getLsbD b.toNat) ∧
    (∀ fmt, i = .eqapp fmt → SameMap s u) ∧
    ∀ a, readsFrom i s a → u.mem.read a = s.mem.read a

/-- No result register and no table changes. -/
def SameResultsAndTables (s t : State) : Prop :=
  SameAverage s t ∧ t.lvlUsed = s.lvlUsed ∧ SameHistogram s t ∧ SameMap s t

/-! ## Invariants -/

/-- Image memory has its canonical form. -/
def MemoryCanonical (s : State) : Prop := s.mem.wf

/-- The flags fit together (R32 to R35, R255, R303): while a command runs neither `DONE` nor `ERR` is set;
a latched fault has a code and the word of `CMD`, and excludes `DONE`; without one `ERRCODE` and `ERRINFO`
are zero; writes under a command are on record only while it runs; an asserted reset input holds the block
in its reset state. -/
structure FlagsFit (s : State) : Prop where
  busy : s.busy = true → s.done = false ∧ s.err = false
  idle : s.busy = false → s.raced = []
  latched : s.err = true → s.done = false ∧ s.errCode ≠ .eNone ∧ s.errInfo = s.cmd
  clear : s.err = false → s.errCode = .eNone ∧ s.errInfo = 0#32
  held : s.inReset = true → BlockReset s

/-- The tables mean what R40, R42 and R211 say: the valid banks are those a `HIST` leaves, each valid bank
counts the same number of pixels and at least one; a valid map is non-decreasing and ends in 255; and the
upper half of `SUM` stays below 256 (R27). -/
structure TablesMean (s : State) : Prop where
  valid : s.hv = 0b0000#4 ∨ s.hv = 0b1001#4 ∨ s.hv = 0b1111#4
  counted : ∀ b, b < 4 → s.hv.getLsbD b = true → 1 ≤ (s.bank b).total ∧ (s.bank b).total < 2 ^ 32
  agree : ∀ b c, b < 4 → c < 4 → s.hv.getLsbD b = true → s.hv.getLsbD c = true →
    (s.bank b).total = (s.bank c).total
  rising : s.mv = true → ∀ i j : Fin 256, i ≤ j → s.map[i].toNat ≤ s.map[j].toNat
  top : s.mv = true → s.map[255] = 255#8
  sum : s.sumHi.toNat < 256

/-! ## Safe runs -/

/-- A step is safe when the model has a next state for it (`93_implementation_defined.md`: a program that
does what a model refuses is outside the model). -/
def SafeStep (s : State) : Prop := ∃ t, step s = .next t

/-- `n` steps lead from the one state to the other. -/
def stepsTo : Nat → State → State → Prop
  | 0, s, t => t = s
  | n + 1, s, t => ∃ u, step s = .next u ∧ stepsTo n u t

/-- A run is safe when none of its first `n` steps is refused. -/
def SafeRun : Nat → State → Prop
  | 0, _ => True
  | n + 1, s => ∃ t, step s = .next t ∧ SafeRun n t

end Sys2Proof.Machine
end

