-- ==== Sys2Proof/Certificates/Slice0/Obligations.lean ====
section
/-! DEFINITION. The statements for the provers, in the order of OBLIGATIONS.json. Each docstring names the
rule or the section of the spec it formalises. A statement about a value the model chose says so. -/

open Sys2Proof Sys2Proof.Machine

/-! ## Encoding -/

/-- `30_encoding.md` sections 1 to 6: a word decodes to an instruction exactly when it is that instruction's
encoding, so no bit of an encoding is dropped and no word has two readings. -/
def Obligations.WordDecodesToItsEncodedInstructionOnly : Prop :=
  ∀ (w : Word) (i : Instr), decode w = .instr i ↔ w = encode i

/-- R103: the decode function, by the fields as numbers, and what each outcome leads to. -/
def Obligations.DecodeFunctionByFields : Prop :=
  ∀ (w : Word) (f : Fmt), f.code.toNat = w.toNat / 4096 % 4 →
    let rsv := w.toNat / 16384
    let arg := w.toNat / 256 % 16
    let opc := w.toNat % 256
    (rsv ≠ 0 → decode w = .illegal) ∧
    (rsv = 0 →
      ((opc = 0x10 ∨ opc = 0x11) → 5 ≤ arg → decode w = .badColourSpace) ∧
      (opc = 0x10 →
        (arg = 0 → decode w = .instr (.cvtRgb f)) ∧ (arg = 1 → decode w = .instr (.cvtHsv f)) ∧
        (arg = 2 → decode w = .instr (.cvtHsl f)) ∧ (arg = 3 → decode w = .instr (.cvtHsi f)) ∧
        (arg = 4 → decode w = .instr (.cvtYuv f))) ∧
      (opc = 0x11 →
        (arg = 0 → decode w = .instr (.invRgb f)) ∧ (arg = 1 → decode w = .instr (.invHsv f)) ∧
        (arg = 2 → decode w = .instr (.invHsl f)) ∧ (arg = 3 → decode w = .instr (.invHsi f)) ∧
        (arg = 4 → decode w = .instr (.invYuv f))) ∧
      (opc = 0x22 → decode w = .instr (.xch f (BitVec.ofNat 4 arg))) ∧
      (opc = 0x23 → decode w = .instr (.ich f (BitVec.ofNat 4 arg))) ∧
      (opc = 0x50 → decode w = .instr (.eqmap f (BitVec.ofNat 4 arg))) ∧
      (opc = 0x30 →
        (arg = 0 → decode w = .instr (.bin f)) ∧ (arg = 1 → decode w = .instr (.binA f)) ∧
        (1 < arg → decode w = .illegal)) ∧
      (opc = 0x00 → arg = 0 → decode w = .instr (.nop f)) ∧
      (opc = 0x20 → arg = 0 → decode w = .instr (.luma f)) ∧
      (opc = 0x21 → arg = 0 → decode w = .instr (.avg f)) ∧
      (opc = 0x40 → arg = 0 → decode w = .instr (.hist f)) ∧
      (opc = 0x51 → arg = 0 → decode w = .instr (.eqapp f)) ∧
      (opc ∈ [0x00, 0x20, 0x21, 0x40, 0x51] → arg ≠ 0 → decode w = .illegal) ∧
      (opc ∉ [0x00, 0x10, 0x11, 0x20, 0x21, 0x22, 0x23, 0x30, 0x40, 0x50, 0x51] →
        decode w = .illegal)) ∧
    (∀ s : State, s.cmd = w →
      (decode w = .illegal → ∃ t, runCommand s = .next t ∧ Faulted .eIllegal s t) ∧
      (decode w = .badColourSpace → ∃ t, runCommand s = .next t ∧ Faulted .eCspace s t) ∧
      (∀ i, decode w = .instr i → runCommand s = exec i s ∧
        ∀ c, TakesFault i s c → ∃ t, exec i s = .next t ∧ Faulted c s t))

/-- `30_encoding.md` section 2, second table, and section 5: words written out from the table decode to the
instructions they stand for. A sanity statement on fixed words. -/
def Obligations.WordsWrittenOutDecode : Prop :=
  decode 0x00000000#32 = .instr (.nop .gray) ∧
    decode 0x00002110#32 = .instr (.cvtHsv .rgba) ∧
    decode 0x00001411#32 = .instr (.invYuv .rgb) ∧
    decode 0x00001020#32 = .instr (.luma .rgb) ∧
    decode 0x00001222#32 = .instr (.xch .rgb 2#4) ∧
    decode 0x00002323#32 = .instr (.ich .rgba 3#4) ∧
    decode 0x00000130#32 = .instr (.binA .gray) ∧
    decode 0x00002040#32 = .instr (.hist .rgba) ∧
    decode 0x00000350#32 = .instr (.eqmap .gray 3#4) ∧
    decode 0x00000051#32 = .instr (.eqapp .gray) ∧
    decode 0x00001510#32 = .badColourSpace ∧
    decode 0x00004510#32 = .illegal

/-- `30_encoding.md` section 6 (the opcode table): a word that matches an instruction's row decodes to that
row, so no word matches two rows; and a word that decodes matches its row. -/
def Obligations.OpcodeTableRowsSeparateTheWords : Prop :=
  ∀ (w : Word) (i : Instr),
    (i.matchesRow w = true →
      ∃ j, decode w = .instr j ∧ j.pattern = i.pattern ∧ j.mask = i.mask) ∧
    (decode w = .instr i → i.matchesRow w = true)

/-! ## The step -/

/-- `30_encoding.md` section 1 (life of a command), `00_scope.md` section 6: when the engine moves, the step
is the execution of the accepted word's instruction, or the fault of a word that decodes to none; taking the
turn removes the engine's own event from the agenda and changes nothing else. -/
def Obligations.StepRunsTheDecodedInstruction : Prop :=
  ∀ s : State, s.engineMoves = true →
    (∀ i : Instr, decode s.cmd = .instr i → step s = exec i s.engineTakesTurn) ∧
    (decode s.cmd = .illegal → ∃ t, step s = .next t ∧ Faulted .eIllegal s.engineTakesTurn t) ∧
    (decode s.cmd = .badColourSpace → ∃ t, step s = .next t ∧ Faulted .eCspace s.engineTakesTurn t) ∧
    s.engineTakesTurn =
      { s with agenda := if s.agenda.head? = some .engine then s.agenda.tail else s.agenda }

/-- `00_scope.md` section 6 (runs), `46_system.md` section 2: an action of the host at the head of the agenda
is the next step, but for a `WAIT` while a command runs, which lets the engine move first (log entry 14); a
turn of the engine while no command runs changes nothing but the agenda. `20_memory.md` section 1 and
`70_reset_and_hazards.md` section 3: a host read of image memory returns the byte that is there, under a command
the old byte or the one the command would write; a host write changes that byte only, and a byte written under
a command is on record (log entry 8), seen by the engine as one of the values it has held and left with the
host's or the engine's value; `WAIT` reads `STATUS`. -/
def Obligations.HostActionsAreSteps : Prop :=
  (∀ (s : State) (rest : List Event),
    (∀ a : HostAction, s.agenda = .host a :: rest → a ≠ .wait ∨ s.busy = false →
      step s = hostAct a { s with agenda := rest }) ∧
    (s.agenda = .host .wait :: rest → s.busy = true →
      s.engineMoves = true ∧ s.engineTakesTurn = s) ∧
    (s.agenda = .engine :: rest → s.busy = false → step s = .next { s with agenda := rest })) ∧
  (∀ (s : State) (addr : Word),
    ∃ v : Byte,
      hostAct (.memRead addr) s =
        .next { s with readData := v.setWidth 32, moment := s.moment + 1 } ∧
      (s.busy = false → v = s.mem.read addr.toNat) ∧
      (v = s.mem.read addr.toNat ∨ ∃ u, runCommand s = .next u ∧ v = u.mem.read addr.toNat) ∧
      (∀ i, decode s.cmd = .instr i → ¬ stores i s addr.toNat → v = s.mem.read addr.toNat)) ∧
  (∀ (s : State) (addr : Word) (v : Byte),
    ∃ t : State,
      hostAct (.memWrite addr v) s = .next t ∧
      t = { s with mem := t.mem, raced := t.raced, moment := s.moment + 1 } ∧
      t.mem.read addr.toNat = v ∧ (∀ a, a ≠ addr.toNat → t.mem.read a = s.mem.read a) ∧
      t.raced = if s.busy then (addr.toNat, s.mem.read addr.toNat) :: s.raced else s.raced) ∧
  (∀ (s : State) (r a : Nat), s.sourceByte r a = s.mem.read a ∨ s.sourceByte r a ∈ s.replaced a) ∧
  (∀ (s : State) (m : Memory) (a : Nat) (v : Byte),
    (s.storeByte m a v).read a = v ∨
      (s.replaced a ≠ [] ∧ (s.storeByte m a v).read a = m.read a)) ∧
  (∀ s : State, s.inReset = false →
    ∃ v : Word,
      hostAct .wait s = .next { s with readData := v, moment := s.moment + 1 } ∧
      v.toNat = s.busy.toNat + 2 * s.done.toNat + 4 * s.err.toNat + 8 * s.drop.toNat +
        16 * s.hv.toNat + 256 * s.mv.toNat)

/-- Log entry 9 (the model's own interface): a placed word is the one the next step runs. -/
def Obligations.PlacedWordRunsNext : Prop :=
  ∀ (s : State) (w : Nat) (i : Instr), decodeTableWord 32 w = some i →
    ∃ u, step (s.withFetchWord 32 w) = exec i u ∧ u.cmd = tableWord 32 w ∧ u.busy = true ∧
      u.done = false ∧ SameOperands s u ∧ SameAverage s u ∧ u.lvlUsed = s.lvlUsed ∧
      SameHistogram s u ∧ SameMap s u ∧ u.mem = s.mem ∧ u.agenda = s.agenda

/-- `10_state.md` section 5 (`CMD`): every word written to `CMD` while the block is idle and without a fault
is accepted, whatever it decodes to and whatever comes next; `70_reset_and_hazards.md` section 4: the engine's
next turn runs it. Which events are a turn of the engine is the model's (log entries 9 and 14). -/
def Obligations.AcceptedCommandIsRun : Prop :=
  ∀ (s : State) (w : Word) (rest : List Event),
    s.busy = false → s.err = false → s.inReset = false →
    s.agenda = .host (.regWrite .word 0x020#14 w) :: rest →
    ∃ u, step s = .next u ∧ u.cmd = w ∧ u.busy = true ∧ u.done = false ∧ SameOperands s u ∧
      SameResultsAndTables s u ∧ u.mem = s.mem ∧ u.drop = s.drop ∧ u.err = false ∧ u.agenda = rest ∧
      ((rest = [] ∨ rest.head? = some .engine ∨ rest.head? = some (.host .wait)) →
        (∀ i, decode w = .instr i → step u = exec i u.engineTakesTurn) ∧
        (decode w = .illegal → ∃ t, step u = .next t ∧ Faulted .eIllegal u.engineTakesTurn t) ∧
        (decode w = .badColourSpace → ∃ t, step u = .next t ∧ Faulted .eCspace u.engineTakesTurn t))

/-- `00_scope.md` section 6 (runs): with nothing on the agenda and no command running the run is over, and
the block idles in the same state. -/
def Obligations.FinishedRunIdles : Prop :=
  ∀ s : State, s.agenda = [] → s.busy = false → step s = .next s

/-- R256: the first failing check decides the fault; a command takes one fault, or none and completes. -/
def Obligations.FirstFailingCheckDecidesTheFault : Prop :=
  ∀ s : State,
    (decode s.cmd = .illegal → ∃ t, runCommand s = .next t ∧ t.err = true ∧ t.errCode = .eIllegal) ∧
    (decode s.cmd = .badColourSpace →
      ∃ t, runCommand s = .next t ∧ t.err = true ∧ t.errCode = .eCspace) ∧
    ∀ i, decode s.cmd = .instr i →
      (∀ c, TakesFault i s c → ∃ t, runCommand s = .next t ∧ t.err = true ∧ t.errCode = c) ∧
      (Ready i s → ∃ t, runCommand s = .next t ∧ Completed s t) ∧
      (Ready i s ∨ ∃ c, TakesFault i s c) ∧
      (∀ c c', TakesFault i s c → TakesFault i s c' → c = c') ∧
      (∀ c, Ready i s → ¬ TakesFault i s c)

/-- R255: taking a fault latches the code, the word and `ERR`, lets `BUSY` fall, changes nothing else, and
the block accepts no command while `ERR = 1`. -/
def Obligations.FaultLatchesAndChangesNothingElse : Prop :=
  (∀ (i : Instr) (s : State) (c : ErrorCode), TakesFault i s c →
    ∃ t, exec i s = .next t ∧ Faulted c s t) ∧
  (∀ s : State,
    (decode s.cmd = .illegal → ∃ t, runCommand s = .next t ∧ Faulted .eIllegal s t) ∧
    (decode s.cmd = .badColourSpace → ∃ t, runCommand s = .next t ∧ Faulted .eCspace s t)) ∧
  (∀ (s : State) (w : Word), s.err = true → s.inReset = false →
    ∃ t, hostAct (.regWrite .word 0x020#14 w) s = .next t ∧ t.cmd = s.cmd ∧ t.busy = s.busy ∧
      t.drop = true)

/-- R265 and R266: which regions fault with `E_RANGE` and `E_OVERLAP`, where the checks before them pass.
Region bounds are computed without wrap-around. -/
def Obligations.RangeAndOverlapFaults : Prop :=
  ∀ (i : Instr) (s : State), i.wellFormed = true → (i.readsLevel = true → s.level.toNat ≤ 255) →
    (i.needsPixels = true → s.npix ≠ 0) → bankMissing i s = false → mapMissing i s = false →
    (∀ n, i.sourceChannels = some n → 0 < s.npix * n → 2 ^ 32 < s.src.toNat + s.npix * n →
      ∃ t, exec i s = .next t ∧ Faulted .eRange s t) ∧
    (∀ d, i.destChannels = some d → 0 < s.npix * d → 2 ^ 32 < s.dst.toNat + s.npix * d →
      ∃ t, exec i s = .next t ∧ Faulted .eRange s t) ∧
    (∀ n d, i.sourceChannels = some n → i.destChannels = some d →
      s.src.toNat + s.npix * n ≤ 2 ^ 32 → s.dst.toNat + s.npix * d ≤ 2 ^ 32 →
      (0 < s.npix * n → 0 < s.npix * d → s.src.toNat < s.dst.toNat + s.npix * d →
        s.dst.toNat < s.src.toNat + s.npix * n → ∃ t, exec i s = .next t ∧ Faulted .eOverlap s t) ∧
      ((s.src.toNat + s.npix * n ≤ s.dst.toNat ∨ s.dst.toNat + s.npix * d ≤ s.src.toNat ∨
        s.npix * n = 0 ∨ s.npix * d = 0) → ∃ t, exec i s = .next t ∧ Completed s t))

/-! ## NOP -/

/-- `46_system.md` section 1: `NOP` completes and changes nothing else; the record of host writes under the
command ends with it. -/
def Obligations.NopOnlyCompletes : Prop :=
  ∀ s : State, exec (.nop .gray) s = .next { s with busy := false, done := true, raced := [] }

/-! ## Conversions -/

/-- `40_codec_forward.md` sections 1 and 2: each `CVT` command completes, writes every byte of the
destination image and no other, copies alpha, and changes no result register and no table. -/
def Obligations.ForwardConversionsConvertEveryPixel : Prop :=
  ∀ (fmt : Fmt) (s : State),
    (Ready (.cvtRgb fmt) s → Completes (.cvtRgb fmt) s (SameResultsAndTables s)
      (ConvertedImage (fun t => t) fmt.channels s)) ∧
    (Ready (.cvtHsv fmt) s → Completes (.cvtHsv fmt) s (SameResultsAndTables s)
      (ConvertedImage forwardHsv fmt.channels s)) ∧
    (Ready (.cvtHsl fmt) s → Completes (.cvtHsl fmt) s (SameResultsAndTables s)
      (ConvertedImage forwardHsl fmt.channels s)) ∧
    (Ready (.cvtHsi fmt) s → Completes (.cvtHsi fmt) s (SameResultsAndTables s)
      (ConvertedImage forwardHsi fmt.channels s)) ∧
    (Ready (.cvtYuv fmt) s → Completes (.cvtYuv fmt) s (SameResultsAndTables s)
      (ConvertedImage forwardYuv fmt.channels s))

/-- `41_codec_inverse.md` sections 1 and 2: the same for each `INV` command. -/
def Obligations.InverseConversionsConvertEveryPixel : Prop :=
  ∀ (fmt : Fmt) (s : State),
    (Ready (.invRgb fmt) s → Completes (.invRgb fmt) s (SameResultsAndTables s)
      (ConvertedImage (fun t => t) fmt.channels s)) ∧
    (Ready (.invHsv fmt) s → Completes (.invHsv fmt) s (SameResultsAndTables s)
      (ConvertedImage inverseHsv fmt.channels s)) ∧
    (Ready (.invHsl fmt) s → Completes (.invHsl fmt) s (SameResultsAndTables s)
      (ConvertedImage inverseHsl fmt.channels s)) ∧
    (Ready (.invHsi fmt) s → Completes (.invHsi fmt) s (SameResultsAndTables s)
      (ConvertedImage inverseHsi fmt.channels s)) ∧
    (Ready (.invYuv fmt) s → Completes (.invYuv fmt) s (SameResultsAndTables s)
      (ConvertedImage inverseYuv fmt.channels s))

/-- R134 and, for the hue of HSI, R131, which the spec marks as derived from its other rules: the integer
forms and the integer procedure of the forward conversions give the bytes of the real-valued definitions for
every input. -/
def Obligations.ForwardIntegerFormsAreTheRealDefinitions : Prop :=
  ∀ t : Triple,
    forwardHsv t = Exact.forwardHsv t ∧
    forwardHsl t = Exact.forwardHsl t ∧
    (∀ o : Triple, Exact.IsForwardHsi t o ↔ o = forwardHsi t) ∧
    forwardYuv t = Exact.forwardYuv t

/-- R163, which the spec marks as derived from its other rules: the integer forms of the HSV, HSL and YUV
inverses and the integer procedure of the HSI inverse give the bytes of the real-valued definitions for every
input. -/
def Obligations.InverseIntegerFormsAreTheRealDefinitions : Prop :=
  ∀ t : Triple,
    inverseHsv t = Exact.inverseHsv t ∧ inverseHsl t = Exact.inverseHsl t ∧
      (∀ o : Triple, Exact.IsInverseHsi t o ↔ o = inverseHsi t) ∧
      inverseYuv t = Exact.inverseYuv t

/-- `41_codec_inverse.md` section 2 (`INV.YUV`): the inverse is the exact rational inverse of the forward
matrix, on both sides. -/
def Obligations.YuvInverseMatrixIsExact : Prop :=
  (∀ y u v : ℚ,
    let p := Exact.yuvToRgb y u v
    299 / 1000 * p.1 + 587 / 1000 * p.2.1 + 114 / 1000 * p.2.2 = y ∧
    -169 / 1000 * p.1 - 331 / 1000 * p.2.1 + 1 / 2 * p.2.2 = u ∧
    1 / 2 * p.1 - 419 / 1000 * p.2.1 - 81 / 1000 * p.2.2 = v) ∧
  (∀ r g b : ℚ,
    Exact.yuvToRgb (299 / 1000 * r + 587 / 1000 * g + 114 / 1000 * b)
      (-169 / 1000 * r - 331 / 1000 * g + 1 / 2 * b)
      (1 / 2 * r - 419 / 1000 * g - 81 / 1000 * b) = (r, g, b))

/-- `41_codec_inverse.md` section 3 (round trips): a pixel through `CVT.YUV` and `INV.YUV` comes back within
one level in every channel. -/
def Obligations.YuvRoundTripWithinOneLevel : Prop :=
  ∀ t : Triple,
    |level (inverseYuv (forwardYuv t)).c0 - level t.c0| ≤ 1 ∧
    |level (inverseYuv (forwardYuv t)).c1 - level t.c1| ≤ 1 ∧
    |level (inverseYuv (forwardYuv t)).c2 - level t.c2| ≤ 1

/-- `41_codec_inverse.md` sections 1 and 2, corner cases: a hue byte of 255 gives the pixel of hue byte 0;
saturation 0 gives grey; value, lightness or intensity 0 gives black; lightness 255 gives white. The sectors
of HSI begin at the hue bytes 85 and 170, and the same hue in the next sector gives the same three bytes one
channel on; the table of ratios pairs off to 2^32. -/
def Obligations.InverseCornerCases : Prop :=
  (∀ j, j ≤ 85 → rq.getD j 0 + rq.getD (85 - j) 0 = 4294967296) ∧
  (∀ h : Byte,
    (h.toNat < 85 → hsiSector (level h) = 0 ∧ hsiRatio (level h) = rq.getD h.toNat 0) ∧
    (85 ≤ h.toNat → h.toNat < 170 →
      hsiSector (level h) = 1 ∧ hsiRatio (level h) = rq.getD (h.toNat - 85) 0) ∧
    (170 ≤ h.toNat → hsiSector (level h) = 2 ∧ hsiRatio (level h) = rq.getD (h.toNat - 170) 0)) ∧
  (∀ h s v : Byte, h.toNat < 85 →
    let o := inverseHsi ⟨h, s, v⟩
    inverseHsi ⟨h + 85#8, s, v⟩ = ⟨o.c2, o.c0, o.c1⟩ ∧
    inverseHsi ⟨h + 170#8, s, v⟩ = ⟨o.c1, o.c2, o.c0⟩) ∧
  ∀ h s v : Byte,
    inverseHsv ⟨255#8, s, v⟩ = inverseHsv ⟨0#8, s, v⟩ ∧
    inverseHsl ⟨255#8, s, v⟩ = inverseHsl ⟨0#8, s, v⟩ ∧
    inverseHsi ⟨255#8, s, v⟩ = inverseHsi ⟨0#8, s, v⟩ ∧
    inverseHsv ⟨h, 0#8, v⟩ = ⟨v, v, v⟩ ∧ inverseHsl ⟨h, 0#8, v⟩ = ⟨v, v, v⟩ ∧
    inverseHsi ⟨h, 0#8, v⟩ = ⟨v, v, v⟩ ∧
    inverseHsv ⟨h, s, 0#8⟩ = ⟨0#8, 0#8, 0#8⟩ ∧ inverseHsl ⟨h, s, 0#8⟩ = ⟨0#8, 0#8, 0#8⟩ ∧
    inverseHsi ⟨h, s, 0#8⟩ = ⟨0#8, 0#8, 0#8⟩ ∧
    inverseHsl ⟨h, s, 255#8⟩ = ⟨255#8, 255#8, 255#8⟩

/-- `40_codec_forward.md` section 2, corner cases (achromatic pixels), and `90_conflicts.md` C3: a grey
pixel has hue and saturation 0 and centred U and V; `U8` passes 255 before its clamp for pure blue only and
`V8` for pure red only, neither is negative and `Y8` is in 0..255, so these are the only two inputs on which a
clamp of `CVT.YUV` acts. -/
def Obligations.AchromaticAndClampedPixels : Prop :=
  (∀ x : Byte,
    forwardHsv ⟨x, x, x⟩ = ⟨0#8, 0#8, x⟩ ∧ forwardHsl ⟨x, x, x⟩ = ⟨0#8, 0#8, x⟩ ∧
    forwardHsi ⟨x, x, x⟩ = ⟨0#8, 0#8, x⟩ ∧ forwardYuv ⟨x, x, x⟩ = ⟨x, 128#8, 128#8⟩) ∧
  (∀ t : Triple,
    (255 < yuvU (level t.c0) (level t.c1) (level t.c2) ↔ t = ⟨0#8, 0#8, 255#8⟩) ∧
    (255 < yuvV (level t.c0) (level t.c1) (level t.c2) ↔ t = ⟨255#8, 0#8, 0#8⟩) ∧
    0 ≤ yuvU (level t.c0) (level t.c1) (level t.c2) ∧
    0 ≤ yuvV (level t.c0) (level t.c1) (level t.c2) ∧
    0 ≤ lumaLevel (level t.c0) (level t.c1) (level t.c2) ∧
    lumaLevel (level t.c0) (level t.c1) (level t.c2) ≤ 255) ∧
  (forwardYuv ⟨0#8, 0#8, 255#8⟩).c1 = 255#8 ∧ (forwardYuv ⟨255#8, 0#8, 0#8⟩).c2 = 255#8

/-- `40_codec_forward.md` section 2 (facts about the HSI hue): `D` is non-negative and zero exactly for
achromatic pixels, the argument of the inverse cosine is within [-1, 1], and the hue byte of the integer
procedure needs no clamp; the thresholds a pixel's hue reaches form a prefix of the table, so their number says
which ones; the three ties of the rounding give 43, 128 and 213. -/
def Obligations.HsiHueIsWellDefined : Prop :=
  (∀ r g b : Int, 0 ≤ hsiSquare r g b ∧ (hsiSquare r g b = 0 ↔ r = g ∧ g = b) ∧
    4 * hsiSquare r g b - hsiNumerator r g b * hsiNumerator r g b = 3 * ((g - b) * (g - b))) ∧
  (∀ t : Triple, 0 ≤ hsiHue8 (level t.c0) (level t.c1) (level t.c2) ∧
    hsiHue8 (level t.c0) (level t.c1) (level t.c2) ≤ 255) ∧
  (∀ t : Triple,
    let n := hsiNumerator (level t.c0) (level t.c1) (level t.c2)
    let d := hsiSquare (level t.c0) (level t.c1) (level t.c2)
    (∀ j, 1 ≤ j → j ≤ 128 → (hueAtLeast j (wt.getD (j - 1) 0) n d = true ↔ j ≤ hueCount n d)) ∧
    (0 < n → n * n = d → t.c2.toNat ≤ t.c1.toNat → (forwardHsi t).c0 = 43#8) ∧
    (0 < n → n * n = d → t.c1.toNat < t.c2.toNat → (forwardHsi t).c0 = 213#8) ∧
    (n < 0 → n * n = 4 * d → (forwardHsi t).c0 = 128#8))

/-! ## Grey levels and planes -/

/-- R182, which the spec marks as derived from its other rules: facts about `luma8`. -/
def Obligations.LumaFacts : Prop :=
  (∀ x : Byte, luma8 ⟨x, x, x⟩ = x) ∧
  (∀ r g b r' g' b' : Byte, r.toNat ≤ r'.toNat → g.toNat ≤ g'.toNat → b.toNat ≤ b'.toNat →
    (luma8 ⟨r, g, b⟩).toNat ≤ (luma8 ⟨r', g', b'⟩).toNat) ∧
  luma8 ⟨255#8, 0#8, 0#8⟩ = 76#8 ∧ luma8 ⟨0#8, 255#8, 0#8⟩ = 150#8 ∧
  luma8 ⟨0#8, 0#8, 255#8⟩ = 29#8 ∧ luma8 ⟨255#8, 255#8, 255#8⟩ = 255#8 ∧
  luma8 ⟨0#8, 0#8, 0#8⟩ = 0#8 ∧
  (∀ t : Triple, (299 * t.c0.toNat + 587 * t.c1.toNat + 114 * t.c2.toNat) % 1000 = 500 →
    (luma8 t).toNat = (299 * t.c0.toNat + 587 * t.c1.toNat + 114 * t.c2.toNat) / 1000 + 1) ∧
  114 * 250 % 1000 = 500 ∧ luma8 ⟨0#8, 0#8, 250#8⟩ = 29#8

/-- `42_grayscale_planes.md` section 2 (`LUMA`): the destination plane holds the luma of every pixel. -/
def Obligations.LumaWritesTheLumaPlane : Prop :=
  ∀ (fmt : Fmt) (s : State), Ready (.luma fmt) s →
    Completes (.luma fmt) s (SameResultsAndTables s)
      (WrittenPlane (fun p => luma8 (pixelAt s.mem s.src.toNat fmt.channels p)) s)

/-- `42_grayscale_planes.md` section 2 (`AVG`): `SUMHI` and `SUMLO` hold the sum of the grey samples, `AVG`
its truncated mean; no byte of memory, no other result register and no table changes. -/
def Obligations.AvgIsTheTruncatedMean : Prop :=
  ∀ (fmt : Fmt) (s : State), Ready (.avg fmt) s →
    Completes (.avg fmt) s
      (fun t => t.lvlUsed = s.lvlUsed ∧ SameHistogram s t ∧ SameMap s t ∧ SameMemory s t)
      (fun t =>
        let sum := ∑ p ∈ Finset.range s.npix, (s.mem.read (s.src.toNat + p)).toNat
        t.sumHi.toNat * 2 ^ 32 + t.sumLo.toNat = sum ∧ t.avg.toNat = sum / s.npix)

/-- `42_grayscale_planes.md` section 2 (`XCH`): the destination plane holds channel `k` of every pixel. -/
def Obligations.XchCopiesOneChannel : Prop :=
  ∀ (fmt : Fmt) (k : BitVec 4) (s : State), Ready (.xch fmt k) s →
    Completes (.xch fmt k) s (SameResultsAndTables s)
      (WrittenPlane (fun p => pixelByte s.mem s.src.toNat fmt.channels p k.toNat) s)

/-- `42_grayscale_planes.md` section 2 (`ICH`): channel `k` of every destination pixel takes the plane's
sample, and every other byte keeps its value. -/
def Obligations.IchWritesOneChannelOnly : Prop :=
  ∀ (fmt : Fmt) (k : BitVec 4) (s : State), Ready (.ich fmt k) s →
    Completes (.ich fmt k) s (SameResultsAndTables s)
      (fun t => ∀ p, p < s.npix →
        pixelByte t.mem s.dst.toNat fmt.channels p k.toNat = s.mem.read (s.src.toNat + p) ∧
        ∀ c, c < fmt.channels → c ≠ k.toNat →
          pixelByte t.mem s.dst.toNat fmt.channels p c = pixelByte s.mem s.dst.toNat fmt.channels p c)

/-- R187, which the spec marks as derived from its other rules: `XCH` into a plane and `ICH` from it move
one channel from image A to image B and leave B's other channels alone; `ICH` then `XCH` gives back the
plane. -/
def Obligations.XchThenIchMovesOneChannel : Prop :=
  (∀ (fmt : Fmt) (k : BitVec 4) (s t v : State) (b : Word), HostKeptOff (.xch fmt k) s →
    Ready (.xch fmt k) s → exec (.xch fmt k) s = .next t →
    Ready (.ich fmt k) { t with src := s.dst, dst := b } →
    exec (.ich fmt k) { t with src := s.dst, dst := b } = .next v →
    ∀ p, p < s.npix →
      pixelByte v.mem b.toNat fmt.channels p k.toNat =
        pixelByte s.mem s.src.toNat fmt.channels p k.toNat ∧
      ∀ c, c < fmt.channels → c ≠ k.toNat →
        pixelByte v.mem b.toNat fmt.channels p c = pixelByte s.mem b.toNat fmt.channels p c) ∧
  (∀ (fmt : Fmt) (k : BitVec 4) (s t v : State) (q : Word), HostKeptOff (.ich fmt k) s →
    Ready (.ich fmt k) s → exec (.ich fmt k) s = .next t →
    Ready (.xch fmt k) { t with src := s.dst, dst := q } →
    exec (.xch fmt k) { t with src := s.dst, dst := q } = .next v →
    ∀ p, p < s.npix → v.mem.read (q.toNat + p) = s.mem.read (s.src.toNat + p))

/-! ## Thresholder -/

/-- `43_threshold.md` (`BIN`): each destination byte is 255 where the sample is strictly greater than
`LEVEL`, else 0; `LVLUSED` takes the level whether or not the host kept off memory. -/
def Obligations.BinComparesStrictly : Prop :=
  ∀ (fmt : Fmt) (s : State), Ready (.bin fmt) s →
    Completes (.bin fmt) s
      (fun t => t.lvlUsed.toNat = s.level.toNat ∧ SameAverage s t ∧ SameHistogram s t ∧ SameMap s t)
      (WrittenPlane
        (fun p => if s.level.toNat < (s.mem.read (s.src.toNat + p)).toNat then 255#8 else 0#8) s)

/-- `43_threshold.md` (`BIN.A`): the level is the truncated mean, reported in `LVLUSED` and `AVG`. -/
def Obligations.BinAutoUsesTheAverage : Prop :=
  ∀ (fmt : Fmt) (s : State), Ready (.binA fmt) s →
    Completes (.binA fmt) s (fun t => t.lvlUsed = t.avg ∧ SameHistogram s t ∧ SameMap s t)
      (fun t =>
        let sum := ∑ p ∈ Finset.range s.npix, (s.mem.read (s.src.toNat + p)).toNat
        t.sumHi.toNat * 2 ^ 32 + t.sumLo.toNat = sum ∧ t.avg.toNat = sum / s.npix ∧
        WrittenPlane
          (fun p => if sum / s.npix < (s.mem.read (s.src.toNat + p)).toNat then 255#8 else 0#8) s t)

/-- `43_threshold.md` (`BIN.A`): "exactly the effect of `AVG` followed by `BIN` with `LEVEL` set to the `AVG`
result, except that `LEVEL` is not changed". -/
def Obligations.BinAutoIsAvgThenBin : Prop :=
  ∀ (s t u v : State), HostKeptOff (.binA .gray) s → Ready (.binA .gray) s →
    exec (.binA .gray) s = .next t → exec (.avg .gray) s = .next u →
    exec (.bin .gray) { u with level := u.avg.setWidth 32 } = .next v →
    t = { v with level := s.level }

/-- R202, which the spec marks as derived from its other rules: the bytes of a binary image are those of
`binarise` at the level reported in `LVLUSED`, and how `binarise` depends on the pixel and the level. -/
def Obligations.BinaryImageProperties : Prop :=
  (∀ (i : Instr) (s : State), (i = .bin .gray ∨ i = .binA .gray) → Ready i s → HostKeptOff i s →
    ∃ t, exec i s = .next t ∧ ∀ p, p < s.npix →
      t.mem.read (s.dst.toNat + p) = binarise t.lvlUsed.toNat (s.mem.read (s.src.toNat + p)) ∧
      (t.mem.read (s.dst.toNat + p) = 0#8 ∨ t.mem.read (s.dst.toNat + p) = 255#8)) ∧
  (∀ (l : Nat) (g g' : Byte), g.toNat ≤ g'.toNat → (binarise l g).toNat ≤ (binarise l g').toNat) ∧
  (∀ (l l' : Nat) (g : Byte), l ≤ l' → (binarise l' g).toNat ≤ (binarise l g).toNat) ∧
  (∀ (l : Nat) (g : Byte), l < 255 → g = 0#8 ∨ g = 255#8 → binarise l g = g) ∧
  (∀ g : Byte, binarise 255 g = 0#8)

/-! ## Histograms -/

/-- `44_histogram.md` (`HIST`): which banks become valid, and what each counter of a valid bank holds; the
result registers, the map and image memory do not change. -/
def Obligations.HistCountsEveryValue : Prop :=
  ∀ (fmt : Fmt) (s : State), Ready (.hist fmt) s →
    Completes (.hist fmt) s
      (fun t => t.hv = (if fmt = .gray then 0b1001#4 else 0b1111#4) ∧ SameAverage s t ∧
        t.lvlUsed = s.lvlUsed ∧ SameMap s t ∧ SameMemory s t)
      (fun t => ∀ i : Fin 256,
        let count (f : Nat → Byte) := ((Finset.range s.npix).filter (fun p => (f p).toNat = i.val)).card
        (fmt = .gray →
          ((t.bank 0)[i]).toNat = count (fun p => s.mem.read (s.src.toNat + p)) ∧
          ((t.bank 3)[i]).toNat = count (fun p => s.mem.read (s.src.toNat + p)) ∧
          (t.bank 1)[i] = 0#32 ∧ (t.bank 2)[i] = 0#32) ∧
        (fmt ≠ .gray →
          ((t.bank 0)[i]).toNat = count (fun p => pixelByte s.mem s.src.toNat fmt.channels p 0) ∧
          ((t.bank 1)[i]).toNat = count (fun p => pixelByte s.mem s.src.toNat fmt.channels p 1) ∧
          ((t.bank 2)[i]).toNat = count (fun p => pixelByte s.mem s.src.toNat fmt.channels p 2) ∧
          ((t.bank 3)[i]).toNat = count (fun p => luma8 (pixelAt s.mem s.src.toNat fmt.channels p))))

/-- R211, which the spec marks as derived from its other rules: after a `HIST` that completed, the
counters of each valid bank sum to the pixel count, which is at least 1; the host reads zero from the
other banks and `EQMAP` refuses them. -/
def Obligations.HistogramsConserveThePixelCount : Prop :=
  ∀ (fmt : Fmt) (s t : State), Ready (.hist fmt) s → exec (.hist fmt) s = .next t →
    1 ≤ s.npix ∧
    (∀ b, b < 4 → t.hv.getLsbD b = true →
      ∑ i ∈ Finset.range 256, ((t.bank b)[i]?.getD 0#32).toNat = s.npix) ∧
    (∀ b, b < 4 → t.hv.getLsbD b = false →
      (∀ i, i < 256 → (t.bank b)[i]? = some 0#32 ∧ t.regValue (.hist b i) = 0#32) ∧
      ∃ u, exec (.eqmap .gray (BitVec.ofNat 4 b)) t = .next u ∧ Faulted .eNohist t u)

/-- R212: the result of `HIST` is the same for an image with its pixels in another order, and a count is the
same when it is made in two parts and the counters are added. -/
def Obligations.HistogramOrderIndependence : Prop :=
  (∀ (fmt : Fmt) (s u : State) (σ : Equiv.Perm (Fin s.npix)), Ready (.hist fmt) s →
    Ready (.hist fmt) u → HostKeptOff (.hist fmt) s → HostKeptOff (.hist fmt) u → u.npix = s.npix →
    (∀ (p : Fin s.npix) (c : Nat), c < fmt.channels →
      pixelByte u.mem u.src.toNat fmt.channels p.val c =
        pixelByte s.mem s.src.toNat fmt.channels (σ p).val c) →
    ∃ t v, exec (.hist fmt) s = .next t ∧ exec (.hist fmt) u = .next v ∧ v.hist = t.hist ∧ v.hv = t.hv) ∧
  (∀ (m n : Nat) (f : Nat → Byte) (i : Fin 256), m + n < 2 ^ 32 →
    ((countRun f (m + n))[i]).toNat =
      ((countRun f m)[i]).toNat + ((countRun (fun p => f (m + p)) n)[i]).toNat)

/-- R213, which the spec marks as derived from its other rules: the histogram of an all-black image. -/
def Obligations.AllBlackHistogram : Prop :=
  ∀ (fmt : Fmt) (s : State), (fmt = .rgb ∨ fmt = .gray) → Ready (.hist fmt) s →
    HostKeptOff (.hist fmt) s →
    (∀ a, readsFrom (.hist fmt) s a → s.mem.read a = 0#8) →
    ∃ t, exec (.hist fmt) s = .next t ∧
      ∀ b, b < 4 → (fmt = .rgb ∨ b = 0 ∨ b = 3) →
        ((t.bank b)[(0 : Fin 256)]).toNat = s.width * s.height ∧
        ∀ i : Fin 256, i ≠ 0 → (t.bank b)[i] = 0#32

/-! ## Equalizer -/

/-- `45_equalizer.md` (`EQMAP`): every entry of the map is the rounded share of the cumulative count of the
selected bank; nothing else changes but `MV`. Where the bank's total is zero, which no valid bank has, the
quotient is by zero and the statement says nothing. -/
def Obligations.EqmapBuildsTheMap : Prop :=
  ∀ (fmt : Fmt) (b : BitVec 4) (s : State), Ready (.eqmap fmt b) s →
    1 ≤ (s.bank b.toNat).total →
    Completes (.eqmap fmt b) s
      (fun t => t.mv = true ∧ SameAverage s t ∧ t.lvlUsed = s.lvlUsed ∧ SameHistogram s t ∧
        SameMemory s t ∧
        ∀ i : Fin 256,
          let counter (j : Nat) := ((s.bank b.toNat)[j]?.getD 0#32).toNat
          let total := ∑ j ∈ Finset.range 256, counter j
          let cum := ∑ j ∈ Finset.range (i.val + 1), counter j
          (t.map[i]).toNat = (cum * 255 + total / 2) / total)
      (fun _ => True)

/-- R221, which the spec marks as derived from its other rules: whenever `MV = 1` the map is
non-decreasing and ends in 255. In a machine whose valid banks count at least one pixel, every step either
leaves the map as it was or makes it so; and with the table invariant, which every step keeps, it is so
after every step. -/
def Obligations.ValidMapRisesTo255 : Prop :=
  let risesTo255 (t : State) : Prop :=
    (∀ i : Fin 255, (t.map[i.castSucc]).toNat ≤ (t.map[i.succ]).toNat) ∧
      (∀ i : Fin 256, (t.map[i]).toNat ≤ 255) ∧ t.map[255] = 255#8
  (∀ s t : State, (∀ b, b < 4 → s.hv.getLsbD b = true → 1 ≤ (s.bank b).total) → step s = .next t →
    t.mv = true → SameMap s t ∨ risesTo255 t) ∧
  (∀ s t : State, TablesMean s → step s = .next t → t.mv = true → risesTo255 t)

/-- `45_equalizer.md` (corner cases of the map): levels below the lowest occupied bin map to 0; from the
highest occupied bin upward every entry is 255; a single level makes a step; each entry is within 1/2 of the
real value. -/
def Obligations.MapCornerCases : Prop :=
  ∀ bank : Bank, 1 ≤ bank.total →
    (∀ i : Fin 256, bank.cumsum i = 0 → bank.equalization[i] = 0#8) ∧
    (∀ i : Fin 256, (∀ j : Fin 256, i < j → bank[j] = 0#32) → bank.equalization[i] = 255#8) ∧
    (∀ x : Fin 256, (∀ j : Fin 256, j ≠ x → bank[j] = 0#32) →
      ∀ i : Fin 256, bank.equalization[i] = if i < x then 0#8 else 255#8) ∧
    (∀ i : Fin 256,
      |((bank.equalization[i]).toNat : ℚ) - 255 * (bank.cumsum i : ℚ) / (bank.total : ℚ)| ≤ 1 / 2)

/-- `45_equalizer.md` (`EQAPP`): each destination byte is the map's entry for the sample; the map, the
histograms and the result registers do not change. -/
def Obligations.EqappLooksUpEverySample : Prop :=
  ∀ (fmt : Fmt) (s : State), Ready (.eqapp fmt) s →
    Completes (.eqapp fmt) s (SameResultsAndTables s)
      (WrittenPlane (fun p => (s.map[(s.mem.read (s.src.toNat + p)).toNat]?).getD 0#8) s)

/-- `45_equalizer.md` (`EQAPP`, corner cases): with a rising map, `EQAPP` preserves the order of pixel
values. -/
def Obligations.EqappPreservesOrder : Prop :=
  ∀ (s : State), TablesMean s → Ready (.eqapp .gray) s → HostKeptOff (.eqapp .gray) s →
    ∃ t, exec (.eqapp .gray) s = .next t ∧
      ∀ p q, p < s.npix → q < s.npix →
        (s.mem.read (s.src.toNat + p)).toNat ≤ (s.mem.read (s.src.toNat + q)).toNat →
        (t.mem.read (s.dst.toNat + p)).toNat ≤ (t.mem.read (s.dst.toNat + q)).toNat

/-! ## Rules over all commands -/

/-- R70: bytes outside the destination set keep their value, and a command that faults writes no byte. -/
def Obligations.MemoryOutsideTheDestinationSetStays : Prop :=
  ∀ (i : Instr) (s t : State), exec i s = .next t →
    (∀ a, ¬ stores i s a → t.mem.read a = s.mem.read a) ∧
    (∀ c, TakesFault i s c → t.mem = s.mem)

/-- `30_encoding.md` section 6 (registers and tables each instruction writes): the frame of every command
over the registers, flags and tables. -/
def Obligations.CommandsWriteTheirOwnRegistersOnly : Prop :=
  ∀ (i : Instr) (s t : State), exec i s = .next t →
    SameOperands s t ∧ SameOutside s t ∧ t.cmd = s.cmd ∧ t.drop = s.drop ∧ t.inReset = s.inReset ∧
    t.doneIE = s.doneIE ∧ t.errIE = s.errIE ∧ t.dropIE = s.dropIE ∧ t.busy = false ∧
    ((∀ fmt, i ≠ .avg fmt ∧ i ≠ .binA fmt) → SameAverage s t) ∧
    ((∀ fmt, i ≠ .bin fmt ∧ i ≠ .binA fmt) → t.lvlUsed = s.lvlUsed) ∧
    ((∀ fmt, i ≠ .hist fmt) → SameHistogram s t) ∧
    ((∀ fmt b, i ≠ .eqmap fmt b) → SameMap s t) ∧
    (Ready i s → t.err = s.err ∧ t.errCode = s.errCode ∧ t.errInfo = s.errInfo ∧ t.done = true) ∧
    ((∃ c, TakesFault i s c) → t.done = s.done ∧ t.err = true ∧ t.errInfo = s.cmd)

/-- `10_state.md` section 7 (no shared mutable state), `30_encoding.md` section 6 (registers and tables each
instruction reads), `20_memory.md` section 3: that a command completes and its outputs depend only on the
registers and tables it reads and on the bytes of its source region; only `EQMAP` depends on a histogram, of
its own bank, only `EQAPP` on the map and only `BIN` on `LEVEL`. -/
def Obligations.OutputsDependOnOperandsAndSourceOnly : Prop :=
  ∀ (i : Instr) (s u t v : State), HostKeptOff i s → HostKeptOff i u → Ready i s → SameInputs i s u →
    exec i s = .next t → exec i u = .next v →
    Completed u v ∧ (∀ a, stores i s a → v.mem.read a = t.mem.read a) ∧
    ((∃ fmt, i = .hist fmt) → SameHistogram t v) ∧
    ((∃ fmt b, i = .eqmap fmt b) → SameMap t v) ∧
    ((∃ fmt, i = .avg fmt ∨ i = .binA fmt) → SameAverage t v) ∧
    ((∃ fmt, i = .bin fmt ∨ i = .binA fmt) → v.lvlUsed = t.lvlUsed)

/-- R262: what a zero-area image leads to, command by command. -/
def Obligations.ZeroAreaImages : Prop :=
  (∀ (i : Instr) (s : State), s.npix = 0 → i.wellFormed = true → i.needsPixels = true →
    ∃ t, exec i s = .next t ∧ Faulted .eEmpty s t) ∧
  (∀ (i : Instr) (s : State), s.npix = 0 → i.wellFormed = true → i.destChannels ≠ none →
    i.needsPixels = false → (i.readsLevel = true → s.level.toNat ≤ 255) → mapMissing i s = false →
    ∃ t, exec i s = .next t ∧ Completed s t ∧ t.mem = s.mem ∧
      (i = .bin .gray → t.lvlUsed.toNat = s.level.toNat)) ∧
  (∀ (s t : State) (d : Word) (fmt : Fmt), exec (.nop fmt) s = .next t →
    exec (.nop fmt) { s with dim := d } = .next { t with dim := d }) ∧
  (∀ (s t : State) (d : Word) (fmt : Fmt) (b : BitVec 4), exec (.eqmap fmt b) s = .next t →
    exec (.eqmap fmt b) { s with dim := d } = .next { t with dim := d })

/-- R294, which the spec marks as derived from its other rules: a step changes `HIST` only by running
`HIST` or by reset, and `MAP` only by running `EQMAP` or by reset; `EQMAP` without a histogram and `EQAPP`
without a map fault. -/
def Obligations.TablesSurvive : Prop :=
  (∀ s t : State, step s = .next t →
    (SameHistogram s t ∨ BlockReset t ∨
      (s.engineMoves = true ∧ ∃ fmt, decode s.cmd = .instr (.hist fmt))) ∧
    (SameMap s t ∨ BlockReset t ∨
      (s.engineMoves = true ∧ ∃ fmt b, decode s.cmd = .instr (.eqmap fmt b)))) ∧
  (∀ (s : State) (b : BitVec 4), b.toNat ≤ 3 → s.hv.getLsbD b.toNat = false →
    ∃ t, exec (.eqmap .gray b) s = .next t ∧ Faulted .eNohist s t) ∧
  (∀ s : State, s.mv = false → ∃ t, exec (.eqapp .gray) s = .next t ∧ Faulted .eNomap s t)

/-- `70_reset_and_hazards.md` section 3 (`BUSY` falls only together with the setting of `DONE` or `ERR`), in
the states that meet the flag invariant; a reset is the only other end of a command. -/
def Obligations.BusyFallsOnlyWithDoneOrErr : Prop :=
  ∀ s t : State, FlagsFit s → step s = .next t → s.busy = true → t.busy = false →
    (t.done = true ∧ t.err = false) ∨ (t.done = false ∧ t.err = true) ∨ BlockReset t

/-- `70_reset_and_hazards.md` section 4 (completion time) and `00_scope.md` section 6: an accepted command ends
after finitely many steps whatever the host does meanwhile; the bound is the length of the agenda, which is the
model's form of the moment the spec leaves unspecified (log entry 9). A refused register access would end the
run first, so the actions are supported ones. -/
def Obligations.EveryCommandEnds : Prop :=
  ∀ s : State, s.busy = true →
    (∀ e ∈ s.agenda, (∀ size off, e = .host (.regRead size off) → supportedAccess size off = true) ∧
      ∀ size off v, e = .host (.regWrite size off v) → supportedAccess size off = true) →
    ∃ n t, 1 ≤ n ∧ n ≤ s.agenda.length + 1 ∧ stepsTo n s t ∧ t.busy = false

/-! ## The host's register interface -/

/-- R231: a host read returns the register's value at the moment of the read and changes no state; the
numbers of `ERRCODE` are those of `60_exceptions.md` R252. The model keeps the value returned and a count of host
actions (log entries 8, 9). -/
def Obligations.HostReadReturnsTheRegister : Prop :=
  ∀ (s : State) (off : BitVec 14), off.toNat % 4 = 0 → s.inReset = false →
    ∃ v : Word,
      hostAct (.regRead .word off) s = .next { s with readData := v, moment := s.moment + 1 } ∧
      (off.toNat = 0x000 → v = s.src) ∧ (off.toNat = 0x004 → v = s.dst) ∧
      (off.toNat = 0x008 → v = s.dim) ∧ (off.toNat = 0x00C → v = s.level) ∧
      (off.toNat = 0x020 → v = s.cmd) ∧
      (off.toNat = 0x024 → v.toNat = s.busy.toNat + 2 * s.done.toNat + 4 * s.err.toNat +
        8 * s.drop.toNat + 16 * s.hv.toNat + 256 * s.mv.toNat) ∧
      (off.toNat = 0x028 → ∀ c n,
        (c, n) ∈ [(ErrorCode.eNone, 0), (.eIllegal, 1), (.eCspace, 2), (.eFmt, 3), (.eArg, 4),
          (.eLevel, 5), (.eEmpty, 6), (.eNohist, 7), (.eNomap, 8), (.eRange, 9), (.eOverlap, 10)] →
        s.errCode = c → v.toNat = n) ∧
      (off.toNat = 0x02C → v = s.errInfo) ∧
      (off.toNat = 0x030 → v.toNat = 2 * s.doneIE.toNat + 4 * s.errIE.toNat + 8 * s.dropIE.toNat) ∧
      (off.toNat = 0x034 → v = 0#32) ∧ (off.toNat = 0x038 → v = 0x43534331#32) ∧
      ((0x03C ≤ off.toNat ∧ off.toNat < 0x1000) ∨ 0x2400 ≤ off.toNat → v = 0#32) ∧
      (s.busy = false →
        (off.toNat = 0x010 → v.toNat = s.avg.toNat) ∧ (off.toNat = 0x014 → v.toNat = s.lvlUsed.toNat) ∧
        (off.toNat = 0x018 → v = s.sumLo) ∧ (off.toNat = 0x01C → v = s.sumHi) ∧
        (∀ (b : Fin 4) (i : Fin 256), off.toNat = 0x1000 + 0x400 * b.val + 4 * i.val →
          v = if s.hv.getLsbD b.val then (s.bank b.val)[i] else 0#32) ∧
        (∀ i : Fin 256, off.toNat = 0x2000 + 4 * i.val →
          v.toNat = if s.mv then (s.map[i]).toNat else 0))

/-- R232: a host write, effect by target, complete. -/
def Obligations.HostWriteEffects : Prop :=
  ∀ (s : State) (off : BitVec 14) (v : Word), off.toNat % 4 = 0 → s.inReset = false →
    ∃ t : State,
      hostAct (.regWrite .word off v) s = .next { t with moment := s.moment + 1 } ∧
      (off.toNat = 0x000 → t = if s.busy then { s with drop := true } else { s with src := v }) ∧
      (off.toNat = 0x004 → t = if s.busy then { s with drop := true } else { s with dst := v }) ∧
      (off.toNat = 0x008 → t = if s.busy then { s with drop := true } else { s with dim := v }) ∧
      (off.toNat = 0x00C → t = if s.busy then { s with drop := true } else { s with level := v }) ∧
      (off.toNat = 0x020 → t = if s.busy || s.err then { s with drop := true }
        else { s with cmd := v, busy := true, done := false, raced := [] }) ∧
      (off.toNat = 0x024 → t =
        { s with
          done := s.done && !v.getLsbD 1
          err := s.err && !v.getLsbD 2
          errCode := if v.getLsbD 2 then .eNone else s.errCode
          errInfo := if v.getLsbD 2 then 0#32 else s.errInfo
          drop := s.drop && !v.getLsbD 3 }) ∧
      (off.toNat = 0x030 → t =
        { s with doneIE := v.getLsbD 1, errIE := v.getLsbD 2, dropIE := v.getLsbD 3 }) ∧
      (off.toNat = 0x034 → v.getLsbD 0 = true → BlockReset t ∧ SameOutside s t) ∧
      (off.toNat = 0x034 → v.getLsbD 0 = false → t = s) ∧
      ((off.toNat ∈ [0x010, 0x014, 0x018, 0x01C, 0x028, 0x02C] ∨ 0x038 ≤ off.toNat) → t = s)

/-- `20_memory.md` section 4 (register accesses) and `93_implementation_defined.md` U4: a register access
that is not a naturally aligned 32-bit access is refused. -/
def Obligations.OddRegisterAccessesAreRefused : Prop :=
  ∀ (s : State) (size : AccessSize) (off : BitVec 14) (v : Word),
    (size ≠ .word ∨ off.toNat % 4 ≠ 0) →
    hostAct (.regRead size off) s = .refused .registerAccess ∧
      hostAct (.regWrite size off v) s = .refused .registerAccess

/-- R46: the interrupt output is a level that depends on the enables and the flags only, in the states that
meet the flag invariant (an asserted reset input drives it low, and so do the reset values then). -/
def Obligations.InterruptOutputIsTheEnabledFlags : Prop :=
  (∀ s : State, FlagsFit s →
    s.irq = ((s.doneIE && s.done) || (s.errIE && s.err) || (s.dropIE && s.drop))) ∧
  (∀ s : State, s.inReset = true → s.irq = false)

/-- R259: writing 1 to `STATUS.ERR` clears the fault, restores nothing, and the block accepts commands
again; the same command may be issued. -/
def Obligations.WritingErrReturnsFromTheFault : Prop :=
  ∀ (s : State) (w : Word), s.err = true → s.busy = false → s.inReset = false →
    ∃ t u, hostAct (.regWrite .word 0x024#14 0x00000004#32) s = .next t ∧
      t = { s with err := false, errCode := .eNone, errInfo := 0#32, moment := s.moment + 1 } ∧
      hostAct (.regWrite .word 0x020#14 w) t = .next u ∧ u.busy = true ∧ u.cmd = w

/-- R260: while `ERR = 1` every write to `CMD` is dropped, no command runs, and `ERRCODE` and `ERRINFO` are
not overwritten while the fault is latched; a soft reset clears it. Stated in the states that meet the flag
invariant. -/
def Obligations.FaultsDoNotNest : Prop :=
  (∀ s t : State, FlagsFit s → s.err = true → step s = .next t →
    t.busy = false ∧ (t.err = true → t.errCode = s.errCode ∧ t.errInfo = s.errInfo ∧ t.cmd = s.cmd)) ∧
  (∀ (s : State) (w : Word), s.err = true → s.inReset = false →
    ∃ t, hostAct (.regWrite .word 0x020#14 w) s = .next t ∧ t.drop = true ∧ t.cmd = s.cmd ∧
      t.errCode = s.errCode ∧ t.errInfo = s.errInfo) ∧
  (∀ s : State, s.inReset = false →
    ∃ t, hostAct (.regWrite .word 0x034#14 0x00000001#32) s = .next t ∧ t.err = false ∧
      t.errCode = .eNone ∧ t.errInfo = 0#32)

/-! ## Reset -/

/-- R47: after hardware reset and after soft reset every piece of the block's state has its reset value,
the tables read zero, and image memory is not changed by either where no command was running. -/
def Obligations.ResetGivesEveryValueOfTheTable : Prop :=
  let resetView (t : State) : Prop :=
    BlockReset t ∧ t.irq = false ∧ t.regValue .id = 0x43534331#32 ∧
      (∀ b i, t.regValue (.hist b i) = 0#32) ∧ ∀ i, t.regValue (.map i) = 0#32
  resetView State.reset ∧
  (∀ (s : State) (v : Word), s.inReset = false → v.getLsbD 0 = true →
    ∃ t, hostAct (.regWrite .word 0x034#14 v) s = .next t ∧ resetView t ∧
      (s.busy = false → SameMemory s t)) ∧
  (∀ (s : State) (rest : List Event), s.agenda = .resetAssert :: .resetRelease :: rest →
    ∃ u t, step s = .next u ∧ u.irq = false ∧ u.inReset = true ∧
      step u = .next t ∧ t.inReset = false ∧ resetView t ∧ t.agenda = rest ∧
      (s.busy = false → SameMemory s t)) ∧
  (∀ (s : State) (rest : List Event), s.agenda = .resetRelease :: rest →
    ∃ t, step s = .next t ∧ t.inReset = false ∧ resetView t ∧ t.agenda = rest ∧
      (s.busy = false → SameMemory s t))

/-- `70_reset_and_hazards.md` section 1 (a command abandoned by a reset): each byte of its destination set
holds its old value or the value the command would have written; the other bytes are unchanged, and every
register and table has its reset state. Two points are the model's: the reset input abandons the command and
sets the reset state when it is asserted, where the rule gives the values at the release (log entry 4, DEDUCED),
and the byte the command would have written is the one it would write at the moment of the reset (log entry 6).
-/
def Obligations.AbandonedBytesAreOldOrNew : Prop :=
  let oldOrNew (s t : State) : Prop :=
    BlockReset t ∧
    (∃ u, runCommand s = .next u ∧ ∀ a, t.mem.read a = s.mem.read a ∨ t.mem.read a = u.mem.read a) ∧
    (∀ i, decode s.cmd = .instr i → ∀ a, ¬ stores i s a → t.mem.read a = s.mem.read a)
  (∀ (s : State) (v : Word), s.busy = true → s.inReset = false → v.getLsbD 0 = true →
    ∃ t, hostAct (.regWrite .word 0x034#14 v) s = .next t ∧ oldOrNew s t) ∧
  (∀ (s : State) (rest : List Event), s.busy = true → s.agenda = .resetAssert :: rest →
    ∃ t, step s = .next t ∧ oldOrNew { s with agenda := rest } t)

/-! ## Invariants -/

/-- Every step keeps the canonical form of image memory (`20_memory.md` section 1; the form is the model's,
log entry 1). -/
def Obligations.StepKeepsMemoryCanonical : Prop :=
  ∀ s t : State, MemoryCanonical s → step s = .next t → MemoryCanonical t

/-- Every step keeps the flags fitting together (`10_state.md` sections 4 and 5, `60_exceptions.md`
section 3). Two clauses of the invariant are the model's and no rule of the spec: that an asserted reset input
holds the block in its reset state (log entry 4, DEDUCED), and that the record of host writes is empty while no
command runs (log entry 8). -/
def Obligations.StepKeepsFlagsFit : Prop :=
  ∀ s t : State, FlagsFit s → step s = .next t → FlagsFit t

/-- Every step keeps the meaning of the histogram and map tables (`10_state.md` section 6). -/
def Obligations.StepKeepsTablesMean : Prop :=
  ∀ s t : State, TablesMean s → step s = .next t → TablesMean t

/-- The reset state meets the three invariants. -/
def Obligations.ResetMeetsTheInvariants : Prop :=
  MemoryCanonical State.reset ∧ FlagsFit State.reset ∧ TablesMean State.reset
end

