-- ==== Sys2Proof/Laws/State.lean ====
section
/-! SUPPORT. One lemma for each field of the state and each named update of it, true by definition, so that
no later proof unfolds a record update. -/

namespace Sys2Proof.Machine.State

/-! ## `withMem` -/

@[simp] theorem withMem_src (m : Memory) (s : State) : (s.withMem m).src = s.src := rfl
@[simp] theorem withMem_dst (m : Memory) (s : State) : (s.withMem m).dst = s.dst := rfl
@[simp] theorem withMem_dim (m : Memory) (s : State) : (s.withMem m).dim = s.dim := rfl
@[simp] theorem withMem_level (m : Memory) (s : State) : (s.withMem m).level = s.level := rfl
@[simp] theorem withMem_avg (m : Memory) (s : State) : (s.withMem m).avg = s.avg := rfl
@[simp] theorem withMem_lvlUsed (m : Memory) (s : State) : (s.withMem m).lvlUsed = s.lvlUsed := rfl
@[simp] theorem withMem_sumLo (m : Memory) (s : State) : (s.withMem m).sumLo = s.sumLo := rfl
@[simp] theorem withMem_sumHi (m : Memory) (s : State) : (s.withMem m).sumHi = s.sumHi := rfl
@[simp] theorem withMem_cmd (m : Memory) (s : State) : (s.withMem m).cmd = s.cmd := rfl
@[simp] theorem withMem_busy (m : Memory) (s : State) : (s.withMem m).busy = s.busy := rfl
@[simp] theorem withMem_done (m : Memory) (s : State) : (s.withMem m).done = s.done := rfl
@[simp] theorem withMem_err (m : Memory) (s : State) : (s.withMem m).err = s.err := rfl
@[simp] theorem withMem_drop (m : Memory) (s : State) : (s.withMem m).drop = s.drop := rfl
@[simp] theorem withMem_hv (m : Memory) (s : State) : (s.withMem m).hv = s.hv := rfl
@[simp] theorem withMem_mv (m : Memory) (s : State) : (s.withMem m).mv = s.mv := rfl
@[simp] theorem withMem_errCode (m : Memory) (s : State) : (s.withMem m).errCode = s.errCode := rfl
@[simp] theorem withMem_errInfo (m : Memory) (s : State) : (s.withMem m).errInfo = s.errInfo := rfl
@[simp] theorem withMem_doneIE (m : Memory) (s : State) : (s.withMem m).doneIE = s.doneIE := rfl
@[simp] theorem withMem_errIE (m : Memory) (s : State) : (s.withMem m).errIE = s.errIE := rfl
@[simp] theorem withMem_dropIE (m : Memory) (s : State) : (s.withMem m).dropIE = s.dropIE := rfl
@[simp] theorem withMem_hist (m : Memory) (s : State) : (s.withMem m).hist = s.hist := rfl
@[simp] theorem withMem_map (m : Memory) (s : State) : (s.withMem m).map = s.map := rfl
@[simp] theorem withMem_inReset (m : Memory) (s : State) : (s.withMem m).inReset = s.inReset := rfl
@[simp] theorem withMem_mem (m : Memory) (s : State) : (s.withMem m).mem = m := rfl
@[simp] theorem withMem_agenda (m : Memory) (s : State) : (s.withMem m).agenda = s.agenda := rfl
@[simp] theorem withMem_readData (m : Memory) (s : State) : (s.withMem m).readData = s.readData := rfl
@[simp] theorem withMem_raced (m : Memory) (s : State) : (s.withMem m).raced = s.raced := rfl
@[simp] theorem withMem_moment (m : Memory) (s : State) : (s.withMem m).moment = s.moment := rfl

/-! ## `withAverage` -/

@[simp] theorem withAverage_src (sum npix : Nat) (s : State) : (s.withAverage sum npix).src = s.src := rfl
@[simp] theorem withAverage_dst (sum npix : Nat) (s : State) : (s.withAverage sum npix).dst = s.dst := rfl
@[simp] theorem withAverage_dim (sum npix : Nat) (s : State) : (s.withAverage sum npix).dim = s.dim := rfl
@[simp] theorem withAverage_level (sum npix : Nat) (s : State) : (s.withAverage sum npix).level = s.level := rfl
@[simp] theorem withAverage_avg (sum npix : Nat) (s : State) : (s.withAverage sum npix).avg = BitVec.ofNat 8 (sum / npix) := rfl
@[simp] theorem withAverage_lvlUsed (sum npix : Nat) (s : State) : (s.withAverage sum npix).lvlUsed = s.lvlUsed := rfl
@[simp] theorem withAverage_sumLo (sum npix : Nat) (s : State) : (s.withAverage sum npix).sumLo = BitVec.ofNat 32 sum := rfl
@[simp] theorem withAverage_sumHi (sum npix : Nat) (s : State) : (s.withAverage sum npix).sumHi = BitVec.ofNat 32 (sum / 4294967296) := rfl
@[simp] theorem withAverage_cmd (sum npix : Nat) (s : State) : (s.withAverage sum npix).cmd = s.cmd := rfl
@[simp] theorem withAverage_busy (sum npix : Nat) (s : State) : (s.withAverage sum npix).busy = s.busy := rfl
@[simp] theorem withAverage_done (sum npix : Nat) (s : State) : (s.withAverage sum npix).done = s.done := rfl
@[simp] theorem withAverage_err (sum npix : Nat) (s : State) : (s.withAverage sum npix).err = s.err := rfl
@[simp] theorem withAverage_drop (sum npix : Nat) (s : State) : (s.withAverage sum npix).drop = s.drop := rfl
@[simp] theorem withAverage_hv (sum npix : Nat) (s : State) : (s.withAverage sum npix).hv = s.hv := rfl
@[simp] theorem withAverage_mv (sum npix : Nat) (s : State) : (s.withAverage sum npix).mv = s.mv := rfl
@[simp] theorem withAverage_errCode (sum npix : Nat) (s : State) : (s.withAverage sum npix).errCode = s.errCode := rfl
@[simp] theorem withAverage_errInfo (sum npix : Nat) (s : State) : (s.withAverage sum npix).errInfo = s.errInfo := rfl
@[simp] theorem withAverage_doneIE (sum npix : Nat) (s : State) : (s.withAverage sum npix).doneIE = s.doneIE := rfl
@[simp] theorem withAverage_errIE (sum npix : Nat) (s : State) : (s.withAverage sum npix).errIE = s.errIE := rfl
@[simp] theorem withAverage_dropIE (sum npix : Nat) (s : State) : (s.withAverage sum npix).dropIE = s.dropIE := rfl
@[simp] theorem withAverage_hist (sum npix : Nat) (s : State) : (s.withAverage sum npix).hist = s.hist := rfl
@[simp] theorem withAverage_map (sum npix : Nat) (s : State) : (s.withAverage sum npix).map = s.map := rfl
@[simp] theorem withAverage_inReset (sum npix : Nat) (s : State) : (s.withAverage sum npix).inReset = s.inReset := rfl
@[simp] theorem withAverage_mem (sum npix : Nat) (s : State) : (s.withAverage sum npix).mem = s.mem := rfl
@[simp] theorem withAverage_agenda (sum npix : Nat) (s : State) : (s.withAverage sum npix).agenda = s.agenda := rfl
@[simp] theorem withAverage_readData (sum npix : Nat) (s : State) : (s.withAverage sum npix).readData = s.readData := rfl
@[simp] theorem withAverage_raced (sum npix : Nat) (s : State) : (s.withAverage sum npix).raced = s.raced := rfl
@[simp] theorem withAverage_moment (sum npix : Nat) (s : State) : (s.withAverage sum npix).moment = s.moment := rfl

/-! ## `withLevelUsed` -/

@[simp] theorem withLevelUsed_src (n : Nat) (s : State) : (s.withLevelUsed n).src = s.src := rfl
@[simp] theorem withLevelUsed_dst (n : Nat) (s : State) : (s.withLevelUsed n).dst = s.dst := rfl
@[simp] theorem withLevelUsed_dim (n : Nat) (s : State) : (s.withLevelUsed n).dim = s.dim := rfl
@[simp] theorem withLevelUsed_level (n : Nat) (s : State) : (s.withLevelUsed n).level = s.level := rfl
@[simp] theorem withLevelUsed_avg (n : Nat) (s : State) : (s.withLevelUsed n).avg = s.avg := rfl
@[simp] theorem withLevelUsed_lvlUsed (n : Nat) (s : State) : (s.withLevelUsed n).lvlUsed = BitVec.ofNat 8 n := rfl
@[simp] theorem withLevelUsed_sumLo (n : Nat) (s : State) : (s.withLevelUsed n).sumLo = s.sumLo := rfl
@[simp] theorem withLevelUsed_sumHi (n : Nat) (s : State) : (s.withLevelUsed n).sumHi = s.sumHi := rfl
@[simp] theorem withLevelUsed_cmd (n : Nat) (s : State) : (s.withLevelUsed n).cmd = s.cmd := rfl
@[simp] theorem withLevelUsed_busy (n : Nat) (s : State) : (s.withLevelUsed n).busy = s.busy := rfl
@[simp] theorem withLevelUsed_done (n : Nat) (s : State) : (s.withLevelUsed n).done = s.done := rfl
@[simp] theorem withLevelUsed_err (n : Nat) (s : State) : (s.withLevelUsed n).err = s.err := rfl
@[simp] theorem withLevelUsed_drop (n : Nat) (s : State) : (s.withLevelUsed n).drop = s.drop := rfl
@[simp] theorem withLevelUsed_hv (n : Nat) (s : State) : (s.withLevelUsed n).hv = s.hv := rfl
@[simp] theorem withLevelUsed_mv (n : Nat) (s : State) : (s.withLevelUsed n).mv = s.mv := rfl
@[simp] theorem withLevelUsed_errCode (n : Nat) (s : State) : (s.withLevelUsed n).errCode = s.errCode := rfl
@[simp] theorem withLevelUsed_errInfo (n : Nat) (s : State) : (s.withLevelUsed n).errInfo = s.errInfo := rfl
@[simp] theorem withLevelUsed_doneIE (n : Nat) (s : State) : (s.withLevelUsed n).doneIE = s.doneIE := rfl
@[simp] theorem withLevelUsed_errIE (n : Nat) (s : State) : (s.withLevelUsed n).errIE = s.errIE := rfl
@[simp] theorem withLevelUsed_dropIE (n : Nat) (s : State) : (s.withLevelUsed n).dropIE = s.dropIE := rfl
@[simp] theorem withLevelUsed_hist (n : Nat) (s : State) : (s.withLevelUsed n).hist = s.hist := rfl
@[simp] theorem withLevelUsed_map (n : Nat) (s : State) : (s.withLevelUsed n).map = s.map := rfl
@[simp] theorem withLevelUsed_inReset (n : Nat) (s : State) : (s.withLevelUsed n).inReset = s.inReset := rfl
@[simp] theorem withLevelUsed_mem (n : Nat) (s : State) : (s.withLevelUsed n).mem = s.mem := rfl
@[simp] theorem withLevelUsed_agenda (n : Nat) (s : State) : (s.withLevelUsed n).agenda = s.agenda := rfl
@[simp] theorem withLevelUsed_readData (n : Nat) (s : State) : (s.withLevelUsed n).readData = s.readData := rfl
@[simp] theorem withLevelUsed_raced (n : Nat) (s : State) : (s.withLevelUsed n).raced = s.raced := rfl
@[simp] theorem withLevelUsed_moment (n : Nat) (s : State) : (s.withLevelUsed n).moment = s.moment := rfl

/-! ## `withHistogram` -/

@[simp] theorem withHistogram_src (b : Vector Bank 4) (v : BitVec 4) (s : State) : (s.withHistogram b v).src = s.src := rfl
@[simp] theorem withHistogram_dst (b : Vector Bank 4) (v : BitVec 4) (s : State) : (s.withHistogram b v).dst = s.dst := rfl
@[simp] theorem withHistogram_dim (b : Vector Bank 4) (v : BitVec 4) (s : State) : (s.withHistogram b v).dim = s.dim := rfl
@[simp] theorem withHistogram_level (b : Vector Bank 4) (v : BitVec 4) (s : State) : (s.withHistogram b v).level = s.level := rfl
@[simp] theorem withHistogram_avg (b : Vector Bank 4) (v : BitVec 4) (s : State) : (s.withHistogram b v).avg = s.avg := rfl
@[simp] theorem withHistogram_lvlUsed (b : Vector Bank 4) (v : BitVec 4) (s : State) : (s.withHistogram b v).lvlUsed = s.lvlUsed := rfl
@[simp] theorem withHistogram_sumLo (b : Vector Bank 4) (v : BitVec 4) (s : State) : (s.withHistogram b v).sumLo = s.sumLo := rfl
@[simp] theorem withHistogram_sumHi (b : Vector Bank 4) (v : BitVec 4) (s : State) : (s.withHistogram b v).sumHi = s.sumHi := rfl
@[simp] theorem withHistogram_cmd (b : Vector Bank 4) (v : BitVec 4) (s : State) : (s.withHistogram b v).cmd = s.cmd := rfl
@[simp] theorem withHistogram_busy (b : Vector Bank 4) (v : BitVec 4) (s : State) : (s.withHistogram b v).busy = s.busy := rfl
@[simp] theorem withHistogram_done (b : Vector Bank 4) (v : BitVec 4) (s : State) : (s.withHistogram b v).done = s.done := rfl
@[simp] theorem withHistogram_err (b : Vector Bank 4) (v : BitVec 4) (s : State) : (s.withHistogram b v).err = s.err := rfl
@[simp] theorem withHistogram_drop (b : Vector Bank 4) (v : BitVec 4) (s : State) : (s.withHistogram b v).drop = s.drop := rfl
@[simp] theorem withHistogram_hv (b : Vector Bank 4) (v : BitVec 4) (s : State) : (s.withHistogram b v).hv = v := rfl
@[simp] theorem withHistogram_mv (b : Vector Bank 4) (v : BitVec 4) (s : State) : (s.withHistogram b v).mv = s.mv := rfl
@[simp] theorem withHistogram_errCode (b : Vector Bank 4) (v : BitVec 4) (s : State) : (s.withHistogram b v).errCode = s.errCode := rfl
@[simp] theorem withHistogram_errInfo (b : Vector Bank 4) (v : BitVec 4) (s : State) : (s.withHistogram b v).errInfo = s.errInfo := rfl
@[simp] theorem withHistogram_doneIE (b : Vector Bank 4) (v : BitVec 4) (s : State) : (s.withHistogram b v).doneIE = s.doneIE := rfl
@[simp] theorem withHistogram_errIE (b : Vector Bank 4) (v : BitVec 4) (s : State) : (s.withHistogram b v).errIE = s.errIE := rfl
@[simp] theorem withHistogram_dropIE (b : Vector Bank 4) (v : BitVec 4) (s : State) : (s.withHistogram b v).dropIE = s.dropIE := rfl
@[simp] theorem withHistogram_hist (b : Vector Bank 4) (v : BitVec 4) (s : State) : (s.withHistogram b v).hist = b := rfl
@[simp] theorem withHistogram_map (b : Vector Bank 4) (v : BitVec 4) (s : State) : (s.withHistogram b v).map = s.map := rfl
@[simp] theorem withHistogram_inReset (b : Vector Bank 4) (v : BitVec 4) (s : State) : (s.withHistogram b v).inReset = s.inReset := rfl
@[simp] theorem withHistogram_mem (b : Vector Bank 4) (v : BitVec 4) (s : State) : (s.withHistogram b v).mem = s.mem := rfl
@[simp] theorem withHistogram_agenda (b : Vector Bank 4) (v : BitVec 4) (s : State) : (s.withHistogram b v).agenda = s.agenda := rfl
@[simp] theorem withHistogram_readData (b : Vector Bank 4) (v : BitVec 4) (s : State) : (s.withHistogram b v).readData = s.readData := rfl
@[simp] theorem withHistogram_raced (b : Vector Bank 4) (v : BitVec 4) (s : State) : (s.withHistogram b v).raced = s.raced := rfl
@[simp] theorem withHistogram_moment (b : Vector Bank 4) (v : BitVec 4) (s : State) : (s.withHistogram b v).moment = s.moment := rfl

/-! ## `withMap` -/

@[simp] theorem withMap_src (m : Vector Byte 256) (s : State) : (s.withMap m).src = s.src := rfl
@[simp] theorem withMap_dst (m : Vector Byte 256) (s : State) : (s.withMap m).dst = s.dst := rfl
@[simp] theorem withMap_dim (m : Vector Byte 256) (s : State) : (s.withMap m).dim = s.dim := rfl
@[simp] theorem withMap_level (m : Vector Byte 256) (s : State) : (s.withMap m).level = s.level := rfl
@[simp] theorem withMap_avg (m : Vector Byte 256) (s : State) : (s.withMap m).avg = s.avg := rfl
@[simp] theorem withMap_lvlUsed (m : Vector Byte 256) (s : State) : (s.withMap m).lvlUsed = s.lvlUsed := rfl
@[simp] theorem withMap_sumLo (m : Vector Byte 256) (s : State) : (s.withMap m).sumLo = s.sumLo := rfl
@[simp] theorem withMap_sumHi (m : Vector Byte 256) (s : State) : (s.withMap m).sumHi = s.sumHi := rfl
@[simp] theorem withMap_cmd (m : Vector Byte 256) (s : State) : (s.withMap m).cmd = s.cmd := rfl
@[simp] theorem withMap_busy (m : Vector Byte 256) (s : State) : (s.withMap m).busy = s.busy := rfl
@[simp] theorem withMap_done (m : Vector Byte 256) (s : State) : (s.withMap m).done = s.done := rfl
@[simp] theorem withMap_err (m : Vector Byte 256) (s : State) : (s.withMap m).err = s.err := rfl
@[simp] theorem withMap_drop (m : Vector Byte 256) (s : State) : (s.withMap m).drop = s.drop := rfl
@[simp] theorem withMap_hv (m : Vector Byte 256) (s : State) : (s.withMap m).hv = s.hv := rfl
@[simp] theorem withMap_mv (m : Vector Byte 256) (s : State) : (s.withMap m).mv = true := rfl
@[simp] theorem withMap_errCode (m : Vector Byte 256) (s : State) : (s.withMap m).errCode = s.errCode := rfl
@[simp] theorem withMap_errInfo (m : Vector Byte 256) (s : State) : (s.withMap m).errInfo = s.errInfo := rfl
@[simp] theorem withMap_doneIE (m : Vector Byte 256) (s : State) : (s.withMap m).doneIE = s.doneIE := rfl
@[simp] theorem withMap_errIE (m : Vector Byte 256) (s : State) : (s.withMap m).errIE = s.errIE := rfl
@[simp] theorem withMap_dropIE (m : Vector Byte 256) (s : State) : (s.withMap m).dropIE = s.dropIE := rfl
@[simp] theorem withMap_hist (m : Vector Byte 256) (s : State) : (s.withMap m).hist = s.hist := rfl
@[simp] theorem withMap_map (m : Vector Byte 256) (s : State) : (s.withMap m).map = m := rfl
@[simp] theorem withMap_inReset (m : Vector Byte 256) (s : State) : (s.withMap m).inReset = s.inReset := rfl
@[simp] theorem withMap_mem (m : Vector Byte 256) (s : State) : (s.withMap m).mem = s.mem := rfl
@[simp] theorem withMap_agenda (m : Vector Byte 256) (s : State) : (s.withMap m).agenda = s.agenda := rfl
@[simp] theorem withMap_readData (m : Vector Byte 256) (s : State) : (s.withMap m).readData = s.readData := rfl
@[simp] theorem withMap_raced (m : Vector Byte 256) (s : State) : (s.withMap m).raced = s.raced := rfl
@[simp] theorem withMap_moment (m : Vector Byte 256) (s : State) : (s.withMap m).moment = s.moment := rfl

/-! ## `complete` -/

@[simp] theorem complete_src (s : State) : s.complete.src = s.src := rfl
@[simp] theorem complete_dst (s : State) : s.complete.dst = s.dst := rfl
@[simp] theorem complete_dim (s : State) : s.complete.dim = s.dim := rfl
@[simp] theorem complete_level (s : State) : s.complete.level = s.level := rfl
@[simp] theorem complete_avg (s : State) : s.complete.avg = s.avg := rfl
@[simp] theorem complete_lvlUsed (s : State) : s.complete.lvlUsed = s.lvlUsed := rfl
@[simp] theorem complete_sumLo (s : State) : s.complete.sumLo = s.sumLo := rfl
@[simp] theorem complete_sumHi (s : State) : s.complete.sumHi = s.sumHi := rfl
@[simp] theorem complete_cmd (s : State) : s.complete.cmd = s.cmd := rfl
@[simp] theorem complete_busy (s : State) : s.complete.busy = false := rfl
@[simp] theorem complete_done (s : State) : s.complete.done = true := rfl
@[simp] theorem complete_err (s : State) : s.complete.err = s.err := rfl
@[simp] theorem complete_drop (s : State) : s.complete.drop = s.drop := rfl
@[simp] theorem complete_hv (s : State) : s.complete.hv = s.hv := rfl
@[simp] theorem complete_mv (s : State) : s.complete.mv = s.mv := rfl
@[simp] theorem complete_errCode (s : State) : s.complete.errCode = s.errCode := rfl
@[simp] theorem complete_errInfo (s : State) : s.complete.errInfo = s.errInfo := rfl
@[simp] theorem complete_doneIE (s : State) : s.complete.doneIE = s.doneIE := rfl
@[simp] theorem complete_errIE (s : State) : s.complete.errIE = s.errIE := rfl
@[simp] theorem complete_dropIE (s : State) : s.complete.dropIE = s.dropIE := rfl
@[simp] theorem complete_hist (s : State) : s.complete.hist = s.hist := rfl
@[simp] theorem complete_map (s : State) : s.complete.map = s.map := rfl
@[simp] theorem complete_inReset (s : State) : s.complete.inReset = s.inReset := rfl
@[simp] theorem complete_mem (s : State) : s.complete.mem = s.mem := rfl
@[simp] theorem complete_agenda (s : State) : s.complete.agenda = s.agenda := rfl
@[simp] theorem complete_readData (s : State) : s.complete.readData = s.readData := rfl
@[simp] theorem complete_raced (s : State) : s.complete.raced = [] := rfl
@[simp] theorem complete_moment (s : State) : s.complete.moment = s.moment := rfl

/-! ## `takeFault` -/

@[simp] theorem takeFault_src (c : ErrorCode) (s : State) : (s.takeFault c).src = s.src := rfl
@[simp] theorem takeFault_dst (c : ErrorCode) (s : State) : (s.takeFault c).dst = s.dst := rfl
@[simp] theorem takeFault_dim (c : ErrorCode) (s : State) : (s.takeFault c).dim = s.dim := rfl
@[simp] theorem takeFault_level (c : ErrorCode) (s : State) : (s.takeFault c).level = s.level := rfl
@[simp] theorem takeFault_avg (c : ErrorCode) (s : State) : (s.takeFault c).avg = s.avg := rfl
@[simp] theorem takeFault_lvlUsed (c : ErrorCode) (s : State) : (s.takeFault c).lvlUsed = s.lvlUsed := rfl
@[simp] theorem takeFault_sumLo (c : ErrorCode) (s : State) : (s.takeFault c).sumLo = s.sumLo := rfl
@[simp] theorem takeFault_sumHi (c : ErrorCode) (s : State) : (s.takeFault c).sumHi = s.sumHi := rfl
@[simp] theorem takeFault_cmd (c : ErrorCode) (s : State) : (s.takeFault c).cmd = s.cmd := rfl
@[simp] theorem takeFault_busy (c : ErrorCode) (s : State) : (s.takeFault c).busy = false := rfl
@[simp] theorem takeFault_done (c : ErrorCode) (s : State) : (s.takeFault c).done = s.done := rfl
@[simp] theorem takeFault_err (c : ErrorCode) (s : State) : (s.takeFault c).err = true := rfl
@[simp] theorem takeFault_drop (c : ErrorCode) (s : State) : (s.takeFault c).drop = s.drop := rfl
@[simp] theorem takeFault_hv (c : ErrorCode) (s : State) : (s.takeFault c).hv = s.hv := rfl
@[simp] theorem takeFault_mv (c : ErrorCode) (s : State) : (s.takeFault c).mv = s.mv := rfl
@[simp] theorem takeFault_errCode (c : ErrorCode) (s : State) : (s.takeFault c).errCode = c := rfl
@[simp] theorem takeFault_errInfo (c : ErrorCode) (s : State) : (s.takeFault c).errInfo = s.cmd := rfl
@[simp] theorem takeFault_doneIE (c : ErrorCode) (s : State) : (s.takeFault c).doneIE = s.doneIE := rfl
@[simp] theorem takeFault_errIE (c : ErrorCode) (s : State) : (s.takeFault c).errIE = s.errIE := rfl
@[simp] theorem takeFault_dropIE (c : ErrorCode) (s : State) : (s.takeFault c).dropIE = s.dropIE := rfl
@[simp] theorem takeFault_hist (c : ErrorCode) (s : State) : (s.takeFault c).hist = s.hist := rfl
@[simp] theorem takeFault_map (c : ErrorCode) (s : State) : (s.takeFault c).map = s.map := rfl
@[simp] theorem takeFault_inReset (c : ErrorCode) (s : State) : (s.takeFault c).inReset = s.inReset := rfl
@[simp] theorem takeFault_mem (c : ErrorCode) (s : State) : (s.takeFault c).mem = s.mem := rfl
@[simp] theorem takeFault_agenda (c : ErrorCode) (s : State) : (s.takeFault c).agenda = s.agenda := rfl
@[simp] theorem takeFault_readData (c : ErrorCode) (s : State) : (s.takeFault c).readData = s.readData := rfl
@[simp] theorem takeFault_raced (c : ErrorCode) (s : State) : (s.takeFault c).raced = [] := rfl
@[simp] theorem takeFault_moment (c : ErrorCode) (s : State) : (s.takeFault c).moment = s.moment := rfl

/-! ## `returnFromFault` -/

@[simp] theorem returnFromFault_src (s : State) : s.returnFromFault.src = s.src := rfl
@[simp] theorem returnFromFault_dst (s : State) : s.returnFromFault.dst = s.dst := rfl
@[simp] theorem returnFromFault_dim (s : State) : s.returnFromFault.dim = s.dim := rfl
@[simp] theorem returnFromFault_level (s : State) : s.returnFromFault.level = s.level := rfl
@[simp] theorem returnFromFault_avg (s : State) : s.returnFromFault.avg = s.avg := rfl
@[simp] theorem returnFromFault_lvlUsed (s : State) : s.returnFromFault.lvlUsed = s.lvlUsed := rfl
@[simp] theorem returnFromFault_sumLo (s : State) : s.returnFromFault.sumLo = s.sumLo := rfl
@[simp] theorem returnFromFault_sumHi (s : State) : s.returnFromFault.sumHi = s.sumHi := rfl
@[simp] theorem returnFromFault_cmd (s : State) : s.returnFromFault.cmd = s.cmd := rfl
@[simp] theorem returnFromFault_busy (s : State) : s.returnFromFault.busy = s.busy := rfl
@[simp] theorem returnFromFault_done (s : State) : s.returnFromFault.done = s.done := rfl
@[simp] theorem returnFromFault_err (s : State) : s.returnFromFault.err = false := rfl
@[simp] theorem returnFromFault_drop (s : State) : s.returnFromFault.drop = s.drop := rfl
@[simp] theorem returnFromFault_hv (s : State) : s.returnFromFault.hv = s.hv := rfl
@[simp] theorem returnFromFault_mv (s : State) : s.returnFromFault.mv = s.mv := rfl
@[simp] theorem returnFromFault_errCode (s : State) : s.returnFromFault.errCode = .eNone := rfl
@[simp] theorem returnFromFault_errInfo (s : State) : s.returnFromFault.errInfo = 0#32 := rfl
@[simp] theorem returnFromFault_doneIE (s : State) : s.returnFromFault.doneIE = s.doneIE := rfl
@[simp] theorem returnFromFault_errIE (s : State) : s.returnFromFault.errIE = s.errIE := rfl
@[simp] theorem returnFromFault_dropIE (s : State) : s.returnFromFault.dropIE = s.dropIE := rfl
@[simp] theorem returnFromFault_hist (s : State) : s.returnFromFault.hist = s.hist := rfl
@[simp] theorem returnFromFault_map (s : State) : s.returnFromFault.map = s.map := rfl
@[simp] theorem returnFromFault_inReset (s : State) : s.returnFromFault.inReset = s.inReset := rfl
@[simp] theorem returnFromFault_mem (s : State) : s.returnFromFault.mem = s.mem := rfl
@[simp] theorem returnFromFault_agenda (s : State) : s.returnFromFault.agenda = s.agenda := rfl
@[simp] theorem returnFromFault_readData (s : State) : s.returnFromFault.readData = s.readData := rfl
@[simp] theorem returnFromFault_raced (s : State) : s.returnFromFault.raced = s.raced := rfl
@[simp] theorem returnFromFault_moment (s : State) : s.returnFromFault.moment = s.moment := rfl

/-! ## `accept` -/

@[simp] theorem accept_src (w : Word) (s : State) : (s.accept w).src = s.src := rfl
@[simp] theorem accept_dst (w : Word) (s : State) : (s.accept w).dst = s.dst := rfl
@[simp] theorem accept_dim (w : Word) (s : State) : (s.accept w).dim = s.dim := rfl
@[simp] theorem accept_level (w : Word) (s : State) : (s.accept w).level = s.level := rfl
@[simp] theorem accept_avg (w : Word) (s : State) : (s.accept w).avg = s.avg := rfl
@[simp] theorem accept_lvlUsed (w : Word) (s : State) : (s.accept w).lvlUsed = s.lvlUsed := rfl
@[simp] theorem accept_sumLo (w : Word) (s : State) : (s.accept w).sumLo = s.sumLo := rfl
@[simp] theorem accept_sumHi (w : Word) (s : State) : (s.accept w).sumHi = s.sumHi := rfl
@[simp] theorem accept_cmd (w : Word) (s : State) : (s.accept w).cmd = w := rfl
@[simp] theorem accept_busy (w : Word) (s : State) : (s.accept w).busy = true := rfl
@[simp] theorem accept_done (w : Word) (s : State) : (s.accept w).done = false := rfl
@[simp] theorem accept_err (w : Word) (s : State) : (s.accept w).err = s.err := rfl
@[simp] theorem accept_drop (w : Word) (s : State) : (s.accept w).drop = s.drop := rfl
@[simp] theorem accept_hv (w : Word) (s : State) : (s.accept w).hv = s.hv := rfl
@[simp] theorem accept_mv (w : Word) (s : State) : (s.accept w).mv = s.mv := rfl
@[simp] theorem accept_errCode (w : Word) (s : State) : (s.accept w).errCode = s.errCode := rfl
@[simp] theorem accept_errInfo (w : Word) (s : State) : (s.accept w).errInfo = s.errInfo := rfl
@[simp] theorem accept_doneIE (w : Word) (s : State) : (s.accept w).doneIE = s.doneIE := rfl
@[simp] theorem accept_errIE (w : Word) (s : State) : (s.accept w).errIE = s.errIE := rfl
@[simp] theorem accept_dropIE (w : Word) (s : State) : (s.accept w).dropIE = s.dropIE := rfl
@[simp] theorem accept_hist (w : Word) (s : State) : (s.accept w).hist = s.hist := rfl
@[simp] theorem accept_map (w : Word) (s : State) : (s.accept w).map = s.map := rfl
@[simp] theorem accept_inReset (w : Word) (s : State) : (s.accept w).inReset = s.inReset := rfl
@[simp] theorem accept_mem (w : Word) (s : State) : (s.accept w).mem = s.mem := rfl
@[simp] theorem accept_agenda (w : Word) (s : State) : (s.accept w).agenda = s.agenda := rfl
@[simp] theorem accept_readData (w : Word) (s : State) : (s.accept w).readData = s.readData := rfl
@[simp] theorem accept_raced (w : Word) (s : State) : (s.accept w).raced = [] := rfl
@[simp] theorem accept_moment (w : Word) (s : State) : (s.accept w).moment = s.moment := rfl

/-! ## `dropWrite` -/

@[simp] theorem dropWrite_src (s : State) : s.dropWrite.src = s.src := rfl
@[simp] theorem dropWrite_dst (s : State) : s.dropWrite.dst = s.dst := rfl
@[simp] theorem dropWrite_dim (s : State) : s.dropWrite.dim = s.dim := rfl
@[simp] theorem dropWrite_level (s : State) : s.dropWrite.level = s.level := rfl
@[simp] theorem dropWrite_avg (s : State) : s.dropWrite.avg = s.avg := rfl
@[simp] theorem dropWrite_lvlUsed (s : State) : s.dropWrite.lvlUsed = s.lvlUsed := rfl
@[simp] theorem dropWrite_sumLo (s : State) : s.dropWrite.sumLo = s.sumLo := rfl
@[simp] theorem dropWrite_sumHi (s : State) : s.dropWrite.sumHi = s.sumHi := rfl
@[simp] theorem dropWrite_cmd (s : State) : s.dropWrite.cmd = s.cmd := rfl
@[simp] theorem dropWrite_busy (s : State) : s.dropWrite.busy = s.busy := rfl
@[simp] theorem dropWrite_done (s : State) : s.dropWrite.done = s.done := rfl
@[simp] theorem dropWrite_err (s : State) : s.dropWrite.err = s.err := rfl
@[simp] theorem dropWrite_drop (s : State) : s.dropWrite.drop = true := rfl
@[simp] theorem dropWrite_hv (s : State) : s.dropWrite.hv = s.hv := rfl
@[simp] theorem dropWrite_mv (s : State) : s.dropWrite.mv = s.mv := rfl
@[simp] theorem dropWrite_errCode (s : State) : s.dropWrite.errCode = s.errCode := rfl
@[simp] theorem dropWrite_errInfo (s : State) : s.dropWrite.errInfo = s.errInfo := rfl
@[simp] theorem dropWrite_doneIE (s : State) : s.dropWrite.doneIE = s.doneIE := rfl
@[simp] theorem dropWrite_errIE (s : State) : s.dropWrite.errIE = s.errIE := rfl
@[simp] theorem dropWrite_dropIE (s : State) : s.dropWrite.dropIE = s.dropIE := rfl
@[simp] theorem dropWrite_hist (s : State) : s.dropWrite.hist = s.hist := rfl
@[simp] theorem dropWrite_map (s : State) : s.dropWrite.map = s.map := rfl
@[simp] theorem dropWrite_inReset (s : State) : s.dropWrite.inReset = s.inReset := rfl
@[simp] theorem dropWrite_mem (s : State) : s.dropWrite.mem = s.mem := rfl
@[simp] theorem dropWrite_agenda (s : State) : s.dropWrite.agenda = s.agenda := rfl
@[simp] theorem dropWrite_readData (s : State) : s.dropWrite.readData = s.readData := rfl
@[simp] theorem dropWrite_raced (s : State) : s.dropWrite.raced = s.raced := rfl
@[simp] theorem dropWrite_moment (s : State) : s.dropWrite.moment = s.moment := rfl

/-! ## `popEvent` -/

@[simp] theorem popEvent_src (s : State) : s.popEvent.src = s.src := rfl
@[simp] theorem popEvent_dst (s : State) : s.popEvent.dst = s.dst := rfl
@[simp] theorem popEvent_dim (s : State) : s.popEvent.dim = s.dim := rfl
@[simp] theorem popEvent_level (s : State) : s.popEvent.level = s.level := rfl
@[simp] theorem popEvent_avg (s : State) : s.popEvent.avg = s.avg := rfl
@[simp] theorem popEvent_lvlUsed (s : State) : s.popEvent.lvlUsed = s.lvlUsed := rfl
@[simp] theorem popEvent_sumLo (s : State) : s.popEvent.sumLo = s.sumLo := rfl
@[simp] theorem popEvent_sumHi (s : State) : s.popEvent.sumHi = s.sumHi := rfl
@[simp] theorem popEvent_cmd (s : State) : s.popEvent.cmd = s.cmd := rfl
@[simp] theorem popEvent_busy (s : State) : s.popEvent.busy = s.busy := rfl
@[simp] theorem popEvent_done (s : State) : s.popEvent.done = s.done := rfl
@[simp] theorem popEvent_err (s : State) : s.popEvent.err = s.err := rfl
@[simp] theorem popEvent_drop (s : State) : s.popEvent.drop = s.drop := rfl
@[simp] theorem popEvent_hv (s : State) : s.popEvent.hv = s.hv := rfl
@[simp] theorem popEvent_mv (s : State) : s.popEvent.mv = s.mv := rfl
@[simp] theorem popEvent_errCode (s : State) : s.popEvent.errCode = s.errCode := rfl
@[simp] theorem popEvent_errInfo (s : State) : s.popEvent.errInfo = s.errInfo := rfl
@[simp] theorem popEvent_doneIE (s : State) : s.popEvent.doneIE = s.doneIE := rfl
@[simp] theorem popEvent_errIE (s : State) : s.popEvent.errIE = s.errIE := rfl
@[simp] theorem popEvent_dropIE (s : State) : s.popEvent.dropIE = s.dropIE := rfl
@[simp] theorem popEvent_hist (s : State) : s.popEvent.hist = s.hist := rfl
@[simp] theorem popEvent_map (s : State) : s.popEvent.map = s.map := rfl
@[simp] theorem popEvent_inReset (s : State) : s.popEvent.inReset = s.inReset := rfl
@[simp] theorem popEvent_mem (s : State) : s.popEvent.mem = s.mem := rfl
@[simp] theorem popEvent_agenda (s : State) : s.popEvent.agenda = s.agenda.tail := rfl
@[simp] theorem popEvent_readData (s : State) : s.popEvent.readData = s.readData := rfl
@[simp] theorem popEvent_raced (s : State) : s.popEvent.raced = s.raced := rfl
@[simp] theorem popEvent_moment (s : State) : s.popEvent.moment = s.moment := rfl

/-! ## `tick` -/

@[simp] theorem tick_src (s : State) : s.tick.src = s.src := rfl
@[simp] theorem tick_dst (s : State) : s.tick.dst = s.dst := rfl
@[simp] theorem tick_dim (s : State) : s.tick.dim = s.dim := rfl
@[simp] theorem tick_level (s : State) : s.tick.level = s.level := rfl
@[simp] theorem tick_avg (s : State) : s.tick.avg = s.avg := rfl
@[simp] theorem tick_lvlUsed (s : State) : s.tick.lvlUsed = s.lvlUsed := rfl
@[simp] theorem tick_sumLo (s : State) : s.tick.sumLo = s.sumLo := rfl
@[simp] theorem tick_sumHi (s : State) : s.tick.sumHi = s.sumHi := rfl
@[simp] theorem tick_cmd (s : State) : s.tick.cmd = s.cmd := rfl
@[simp] theorem tick_busy (s : State) : s.tick.busy = s.busy := rfl
@[simp] theorem tick_done (s : State) : s.tick.done = s.done := rfl
@[simp] theorem tick_err (s : State) : s.tick.err = s.err := rfl
@[simp] theorem tick_drop (s : State) : s.tick.drop = s.drop := rfl
@[simp] theorem tick_hv (s : State) : s.tick.hv = s.hv := rfl
@[simp] theorem tick_mv (s : State) : s.tick.mv = s.mv := rfl
@[simp] theorem tick_errCode (s : State) : s.tick.errCode = s.errCode := rfl
@[simp] theorem tick_errInfo (s : State) : s.tick.errInfo = s.errInfo := rfl
@[simp] theorem tick_doneIE (s : State) : s.tick.doneIE = s.doneIE := rfl
@[simp] theorem tick_errIE (s : State) : s.tick.errIE = s.errIE := rfl
@[simp] theorem tick_dropIE (s : State) : s.tick.dropIE = s.dropIE := rfl
@[simp] theorem tick_hist (s : State) : s.tick.hist = s.hist := rfl
@[simp] theorem tick_map (s : State) : s.tick.map = s.map := rfl
@[simp] theorem tick_inReset (s : State) : s.tick.inReset = s.inReset := rfl
@[simp] theorem tick_mem (s : State) : s.tick.mem = s.mem := rfl
@[simp] theorem tick_agenda (s : State) : s.tick.agenda = s.agenda := rfl
@[simp] theorem tick_readData (s : State) : s.tick.readData = s.readData := rfl
@[simp] theorem tick_raced (s : State) : s.tick.raced = s.raced := rfl
@[simp] theorem tick_moment (s : State) : s.tick.moment = s.moment + 1 := rfl

/-! ## `withReadData` -/

@[simp] theorem withReadData_src (w : Word) (s : State) : (s.withReadData w).src = s.src := rfl
@[simp] theorem withReadData_dst (w : Word) (s : State) : (s.withReadData w).dst = s.dst := rfl
@[simp] theorem withReadData_dim (w : Word) (s : State) : (s.withReadData w).dim = s.dim := rfl
@[simp] theorem withReadData_level (w : Word) (s : State) : (s.withReadData w).level = s.level := rfl
@[simp] theorem withReadData_avg (w : Word) (s : State) : (s.withReadData w).avg = s.avg := rfl
@[simp] theorem withReadData_lvlUsed (w : Word) (s : State) : (s.withReadData w).lvlUsed = s.lvlUsed := rfl
@[simp] theorem withReadData_sumLo (w : Word) (s : State) : (s.withReadData w).sumLo = s.sumLo := rfl
@[simp] theorem withReadData_sumHi (w : Word) (s : State) : (s.withReadData w).sumHi = s.sumHi := rfl
@[simp] theorem withReadData_cmd (w : Word) (s : State) : (s.withReadData w).cmd = s.cmd := rfl
@[simp] theorem withReadData_busy (w : Word) (s : State) : (s.withReadData w).busy = s.busy := rfl
@[simp] theorem withReadData_done (w : Word) (s : State) : (s.withReadData w).done = s.done := rfl
@[simp] theorem withReadData_err (w : Word) (s : State) : (s.withReadData w).err = s.err := rfl
@[simp] theorem withReadData_drop (w : Word) (s : State) : (s.withReadData w).drop = s.drop := rfl
@[simp] theorem withReadData_hv (w : Word) (s : State) : (s.withReadData w).hv = s.hv := rfl
@[simp] theorem withReadData_mv (w : Word) (s : State) : (s.withReadData w).mv = s.mv := rfl
@[simp] theorem withReadData_errCode (w : Word) (s : State) : (s.withReadData w).errCode = s.errCode := rfl
@[simp] theorem withReadData_errInfo (w : Word) (s : State) : (s.withReadData w).errInfo = s.errInfo := rfl
@[simp] theorem withReadData_doneIE (w : Word) (s : State) : (s.withReadData w).doneIE = s.doneIE := rfl
@[simp] theorem withReadData_errIE (w : Word) (s : State) : (s.withReadData w).errIE = s.errIE := rfl
@[simp] theorem withReadData_dropIE (w : Word) (s : State) : (s.withReadData w).dropIE = s.dropIE := rfl
@[simp] theorem withReadData_hist (w : Word) (s : State) : (s.withReadData w).hist = s.hist := rfl
@[simp] theorem withReadData_map (w : Word) (s : State) : (s.withReadData w).map = s.map := rfl
@[simp] theorem withReadData_inReset (w : Word) (s : State) : (s.withReadData w).inReset = s.inReset := rfl
@[simp] theorem withReadData_mem (w : Word) (s : State) : (s.withReadData w).mem = s.mem := rfl
@[simp] theorem withReadData_agenda (w : Word) (s : State) : (s.withReadData w).agenda = s.agenda := rfl
@[simp] theorem withReadData_readData (w : Word) (s : State) : (s.withReadData w).readData = w := rfl
@[simp] theorem withReadData_raced (w : Word) (s : State) : (s.withReadData w).raced = s.raced := rfl
@[simp] theorem withReadData_moment (w : Word) (s : State) : (s.withReadData w).moment = s.moment := rfl

/-! ## `hostStore` -/

@[simp] theorem hostStore_src (a : Nat) (v : Byte) (s : State) : (s.hostStore a v).src = s.src := rfl
@[simp] theorem hostStore_dst (a : Nat) (v : Byte) (s : State) : (s.hostStore a v).dst = s.dst := rfl
@[simp] theorem hostStore_dim (a : Nat) (v : Byte) (s : State) : (s.hostStore a v).dim = s.dim := rfl
@[simp] theorem hostStore_level (a : Nat) (v : Byte) (s : State) : (s.hostStore a v).level = s.level := rfl
@[simp] theorem hostStore_avg (a : Nat) (v : Byte) (s : State) : (s.hostStore a v).avg = s.avg := rfl
@[simp] theorem hostStore_lvlUsed (a : Nat) (v : Byte) (s : State) : (s.hostStore a v).lvlUsed = s.lvlUsed := rfl
@[simp] theorem hostStore_sumLo (a : Nat) (v : Byte) (s : State) : (s.hostStore a v).sumLo = s.sumLo := rfl
@[simp] theorem hostStore_sumHi (a : Nat) (v : Byte) (s : State) : (s.hostStore a v).sumHi = s.sumHi := rfl
@[simp] theorem hostStore_cmd (a : Nat) (v : Byte) (s : State) : (s.hostStore a v).cmd = s.cmd := rfl
@[simp] theorem hostStore_busy (a : Nat) (v : Byte) (s : State) : (s.hostStore a v).busy = s.busy := rfl
@[simp] theorem hostStore_done (a : Nat) (v : Byte) (s : State) : (s.hostStore a v).done = s.done := rfl
@[simp] theorem hostStore_err (a : Nat) (v : Byte) (s : State) : (s.hostStore a v).err = s.err := rfl
@[simp] theorem hostStore_drop (a : Nat) (v : Byte) (s : State) : (s.hostStore a v).drop = s.drop := rfl
@[simp] theorem hostStore_hv (a : Nat) (v : Byte) (s : State) : (s.hostStore a v).hv = s.hv := rfl
@[simp] theorem hostStore_mv (a : Nat) (v : Byte) (s : State) : (s.hostStore a v).mv = s.mv := rfl
@[simp] theorem hostStore_errCode (a : Nat) (v : Byte) (s : State) : (s.hostStore a v).errCode = s.errCode := rfl
@[simp] theorem hostStore_errInfo (a : Nat) (v : Byte) (s : State) : (s.hostStore a v).errInfo = s.errInfo := rfl
@[simp] theorem hostStore_doneIE (a : Nat) (v : Byte) (s : State) : (s.hostStore a v).doneIE = s.doneIE := rfl
@[simp] theorem hostStore_errIE (a : Nat) (v : Byte) (s : State) : (s.hostStore a v).errIE = s.errIE := rfl
@[simp] theorem hostStore_dropIE (a : Nat) (v : Byte) (s : State) : (s.hostStore a v).dropIE = s.dropIE := rfl
@[simp] theorem hostStore_hist (a : Nat) (v : Byte) (s : State) : (s.hostStore a v).hist = s.hist := rfl
@[simp] theorem hostStore_map (a : Nat) (v : Byte) (s : State) : (s.hostStore a v).map = s.map := rfl
@[simp] theorem hostStore_inReset (a : Nat) (v : Byte) (s : State) : (s.hostStore a v).inReset = s.inReset := rfl
@[simp] theorem hostStore_mem (a : Nat) (v : Byte) (s : State) : (s.hostStore a v).mem = s.mem.write a v := rfl
@[simp] theorem hostStore_agenda (a : Nat) (v : Byte) (s : State) : (s.hostStore a v).agenda = s.agenda := rfl
@[simp] theorem hostStore_readData (a : Nat) (v : Byte) (s : State) : (s.hostStore a v).readData = s.readData := rfl
@[simp] theorem hostStore_raced (a : Nat) (v : Byte) (s : State) : (s.hostStore a v).raced = if s.busy then (a, s.mem.read a) :: s.raced else s.raced := rfl
@[simp] theorem hostStore_moment (a : Nat) (v : Byte) (s : State) : (s.hostStore a v).moment = s.moment := rfl

/-! ## `resetBlock` -/

@[simp] theorem resetBlock_src (m : Memory) (s : State) : (s.resetBlock m).src = 0#32 := rfl
@[simp] theorem resetBlock_dst (m : Memory) (s : State) : (s.resetBlock m).dst = 0#32 := rfl
@[simp] theorem resetBlock_dim (m : Memory) (s : State) : (s.resetBlock m).dim = 0#32 := rfl
@[simp] theorem resetBlock_level (m : Memory) (s : State) : (s.resetBlock m).level = 0#32 := rfl
@[simp] theorem resetBlock_avg (m : Memory) (s : State) : (s.resetBlock m).avg = 0#8 := rfl
@[simp] theorem resetBlock_lvlUsed (m : Memory) (s : State) : (s.resetBlock m).lvlUsed = 0#8 := rfl
@[simp] theorem resetBlock_sumLo (m : Memory) (s : State) : (s.resetBlock m).sumLo = 0#32 := rfl
@[simp] theorem resetBlock_sumHi (m : Memory) (s : State) : (s.resetBlock m).sumHi = 0#32 := rfl
@[simp] theorem resetBlock_cmd (m : Memory) (s : State) : (s.resetBlock m).cmd = 0#32 := rfl
@[simp] theorem resetBlock_busy (m : Memory) (s : State) : (s.resetBlock m).busy = false := rfl
@[simp] theorem resetBlock_done (m : Memory) (s : State) : (s.resetBlock m).done = false := rfl
@[simp] theorem resetBlock_err (m : Memory) (s : State) : (s.resetBlock m).err = false := rfl
@[simp] theorem resetBlock_drop (m : Memory) (s : State) : (s.resetBlock m).drop = false := rfl
@[simp] theorem resetBlock_hv (m : Memory) (s : State) : (s.resetBlock m).hv = 0#4 := rfl
@[simp] theorem resetBlock_mv (m : Memory) (s : State) : (s.resetBlock m).mv = false := rfl
@[simp] theorem resetBlock_errCode (m : Memory) (s : State) : (s.resetBlock m).errCode = .eNone := rfl
@[simp] theorem resetBlock_errInfo (m : Memory) (s : State) : (s.resetBlock m).errInfo = 0#32 := rfl
@[simp] theorem resetBlock_doneIE (m : Memory) (s : State) : (s.resetBlock m).doneIE = false := rfl
@[simp] theorem resetBlock_errIE (m : Memory) (s : State) : (s.resetBlock m).errIE = false := rfl
@[simp] theorem resetBlock_dropIE (m : Memory) (s : State) : (s.resetBlock m).dropIE = false := rfl
@[simp] theorem resetBlock_hist (m : Memory) (s : State) : (s.resetBlock m).hist = Vector.replicate 4 emptyBank := rfl
@[simp] theorem resetBlock_map (m : Memory) (s : State) : (s.resetBlock m).map = Vector.replicate 256 0#8 := rfl
@[simp] theorem resetBlock_inReset (m : Memory) (s : State) : (s.resetBlock m).inReset = s.inReset := rfl
@[simp] theorem resetBlock_mem (m : Memory) (s : State) : (s.resetBlock m).mem = m := rfl
@[simp] theorem resetBlock_agenda (m : Memory) (s : State) : (s.resetBlock m).agenda = s.agenda := rfl
@[simp] theorem resetBlock_readData (m : Memory) (s : State) : (s.resetBlock m).readData = s.readData := rfl
@[simp] theorem resetBlock_raced (m : Memory) (s : State) : (s.resetBlock m).raced = [] := rfl
@[simp] theorem resetBlock_moment (m : Memory) (s : State) : (s.resetBlock m).moment = s.moment := rfl

/-! ## `withResetInput` -/

@[simp] theorem withResetInput_src (b : Bool) (s : State) : (s.withResetInput b).src = s.src := rfl
@[simp] theorem withResetInput_dst (b : Bool) (s : State) : (s.withResetInput b).dst = s.dst := rfl
@[simp] theorem withResetInput_dim (b : Bool) (s : State) : (s.withResetInput b).dim = s.dim := rfl
@[simp] theorem withResetInput_level (b : Bool) (s : State) : (s.withResetInput b).level = s.level := rfl
@[simp] theorem withResetInput_avg (b : Bool) (s : State) : (s.withResetInput b).avg = s.avg := rfl
@[simp] theorem withResetInput_lvlUsed (b : Bool) (s : State) : (s.withResetInput b).lvlUsed = s.lvlUsed := rfl
@[simp] theorem withResetInput_sumLo (b : Bool) (s : State) : (s.withResetInput b).sumLo = s.sumLo := rfl
@[simp] theorem withResetInput_sumHi (b : Bool) (s : State) : (s.withResetInput b).sumHi = s.sumHi := rfl
@[simp] theorem withResetInput_cmd (b : Bool) (s : State) : (s.withResetInput b).cmd = s.cmd := rfl
@[simp] theorem withResetInput_busy (b : Bool) (s : State) : (s.withResetInput b).busy = s.busy := rfl
@[simp] theorem withResetInput_done (b : Bool) (s : State) : (s.withResetInput b).done = s.done := rfl
@[simp] theorem withResetInput_err (b : Bool) (s : State) : (s.withResetInput b).err = s.err := rfl
@[simp] theorem withResetInput_drop (b : Bool) (s : State) : (s.withResetInput b).drop = s.drop := rfl
@[simp] theorem withResetInput_hv (b : Bool) (s : State) : (s.withResetInput b).hv = s.hv := rfl
@[simp] theorem withResetInput_mv (b : Bool) (s : State) : (s.withResetInput b).mv = s.mv := rfl
@[simp] theorem withResetInput_errCode (b : Bool) (s : State) : (s.withResetInput b).errCode = s.errCode := rfl
@[simp] theorem withResetInput_errInfo (b : Bool) (s : State) : (s.withResetInput b).errInfo = s.errInfo := rfl
@[simp] theorem withResetInput_doneIE (b : Bool) (s : State) : (s.withResetInput b).doneIE = s.doneIE := rfl
@[simp] theorem withResetInput_errIE (b : Bool) (s : State) : (s.withResetInput b).errIE = s.errIE := rfl
@[simp] theorem withResetInput_dropIE (b : Bool) (s : State) : (s.withResetInput b).dropIE = s.dropIE := rfl
@[simp] theorem withResetInput_hist (b : Bool) (s : State) : (s.withResetInput b).hist = s.hist := rfl
@[simp] theorem withResetInput_map (b : Bool) (s : State) : (s.withResetInput b).map = s.map := rfl
@[simp] theorem withResetInput_inReset (b : Bool) (s : State) : (s.withResetInput b).inReset = b := rfl
@[simp] theorem withResetInput_mem (b : Bool) (s : State) : (s.withResetInput b).mem = s.mem := rfl
@[simp] theorem withResetInput_agenda (b : Bool) (s : State) : (s.withResetInput b).agenda = s.agenda := rfl
@[simp] theorem withResetInput_readData (b : Bool) (s : State) : (s.withResetInput b).readData = s.readData := rfl
@[simp] theorem withResetInput_raced (b : Bool) (s : State) : (s.withResetInput b).raced = s.raced := rfl
@[simp] theorem withResetInput_moment (b : Bool) (s : State) : (s.withResetInput b).moment = s.moment := rfl

/-! ## `clearDone` -/

@[simp] theorem clearDone_src (b : Bool) (s : State) : (s.clearDone b).src = s.src := rfl
@[simp] theorem clearDone_dst (b : Bool) (s : State) : (s.clearDone b).dst = s.dst := rfl
@[simp] theorem clearDone_dim (b : Bool) (s : State) : (s.clearDone b).dim = s.dim := rfl
@[simp] theorem clearDone_level (b : Bool) (s : State) : (s.clearDone b).level = s.level := rfl
@[simp] theorem clearDone_avg (b : Bool) (s : State) : (s.clearDone b).avg = s.avg := rfl
@[simp] theorem clearDone_lvlUsed (b : Bool) (s : State) : (s.clearDone b).lvlUsed = s.lvlUsed := rfl
@[simp] theorem clearDone_sumLo (b : Bool) (s : State) : (s.clearDone b).sumLo = s.sumLo := rfl
@[simp] theorem clearDone_sumHi (b : Bool) (s : State) : (s.clearDone b).sumHi = s.sumHi := rfl
@[simp] theorem clearDone_cmd (b : Bool) (s : State) : (s.clearDone b).cmd = s.cmd := rfl
@[simp] theorem clearDone_busy (b : Bool) (s : State) : (s.clearDone b).busy = s.busy := rfl
@[simp] theorem clearDone_done (b : Bool) (s : State) : (s.clearDone b).done = (s.done && !b) := rfl
@[simp] theorem clearDone_err (b : Bool) (s : State) : (s.clearDone b).err = s.err := rfl
@[simp] theorem clearDone_drop (b : Bool) (s : State) : (s.clearDone b).drop = s.drop := rfl
@[simp] theorem clearDone_hv (b : Bool) (s : State) : (s.clearDone b).hv = s.hv := rfl
@[simp] theorem clearDone_mv (b : Bool) (s : State) : (s.clearDone b).mv = s.mv := rfl
@[simp] theorem clearDone_errCode (b : Bool) (s : State) : (s.clearDone b).errCode = s.errCode := rfl
@[simp] theorem clearDone_errInfo (b : Bool) (s : State) : (s.clearDone b).errInfo = s.errInfo := rfl
@[simp] theorem clearDone_doneIE (b : Bool) (s : State) : (s.clearDone b).doneIE = s.doneIE := rfl
@[simp] theorem clearDone_errIE (b : Bool) (s : State) : (s.clearDone b).errIE = s.errIE := rfl
@[simp] theorem clearDone_dropIE (b : Bool) (s : State) : (s.clearDone b).dropIE = s.dropIE := rfl
@[simp] theorem clearDone_hist (b : Bool) (s : State) : (s.clearDone b).hist = s.hist := rfl
@[simp] theorem clearDone_map (b : Bool) (s : State) : (s.clearDone b).map = s.map := rfl
@[simp] theorem clearDone_inReset (b : Bool) (s : State) : (s.clearDone b).inReset = s.inReset := rfl
@[simp] theorem clearDone_mem (b : Bool) (s : State) : (s.clearDone b).mem = s.mem := rfl
@[simp] theorem clearDone_agenda (b : Bool) (s : State) : (s.clearDone b).agenda = s.agenda := rfl
@[simp] theorem clearDone_readData (b : Bool) (s : State) : (s.clearDone b).readData = s.readData := rfl
@[simp] theorem clearDone_raced (b : Bool) (s : State) : (s.clearDone b).raced = s.raced := rfl
@[simp] theorem clearDone_moment (b : Bool) (s : State) : (s.clearDone b).moment = s.moment := rfl

/-! ## `clearDrop` -/

@[simp] theorem clearDrop_src (b : Bool) (s : State) : (s.clearDrop b).src = s.src := rfl
@[simp] theorem clearDrop_dst (b : Bool) (s : State) : (s.clearDrop b).dst = s.dst := rfl
@[simp] theorem clearDrop_dim (b : Bool) (s : State) : (s.clearDrop b).dim = s.dim := rfl
@[simp] theorem clearDrop_level (b : Bool) (s : State) : (s.clearDrop b).level = s.level := rfl
@[simp] theorem clearDrop_avg (b : Bool) (s : State) : (s.clearDrop b).avg = s.avg := rfl
@[simp] theorem clearDrop_lvlUsed (b : Bool) (s : State) : (s.clearDrop b).lvlUsed = s.lvlUsed := rfl
@[simp] theorem clearDrop_sumLo (b : Bool) (s : State) : (s.clearDrop b).sumLo = s.sumLo := rfl
@[simp] theorem clearDrop_sumHi (b : Bool) (s : State) : (s.clearDrop b).sumHi = s.sumHi := rfl
@[simp] theorem clearDrop_cmd (b : Bool) (s : State) : (s.clearDrop b).cmd = s.cmd := rfl
@[simp] theorem clearDrop_busy (b : Bool) (s : State) : (s.clearDrop b).busy = s.busy := rfl
@[simp] theorem clearDrop_done (b : Bool) (s : State) : (s.clearDrop b).done = s.done := rfl
@[simp] theorem clearDrop_err (b : Bool) (s : State) : (s.clearDrop b).err = s.err := rfl
@[simp] theorem clearDrop_drop (b : Bool) (s : State) : (s.clearDrop b).drop = (s.drop && !b) := rfl
@[simp] theorem clearDrop_hv (b : Bool) (s : State) : (s.clearDrop b).hv = s.hv := rfl
@[simp] theorem clearDrop_mv (b : Bool) (s : State) : (s.clearDrop b).mv = s.mv := rfl
@[simp] theorem clearDrop_errCode (b : Bool) (s : State) : (s.clearDrop b).errCode = s.errCode := rfl
@[simp] theorem clearDrop_errInfo (b : Bool) (s : State) : (s.clearDrop b).errInfo = s.errInfo := rfl
@[simp] theorem clearDrop_doneIE (b : Bool) (s : State) : (s.clearDrop b).doneIE = s.doneIE := rfl
@[simp] theorem clearDrop_errIE (b : Bool) (s : State) : (s.clearDrop b).errIE = s.errIE := rfl
@[simp] theorem clearDrop_dropIE (b : Bool) (s : State) : (s.clearDrop b).dropIE = s.dropIE := rfl
@[simp] theorem clearDrop_hist (b : Bool) (s : State) : (s.clearDrop b).hist = s.hist := rfl
@[simp] theorem clearDrop_map (b : Bool) (s : State) : (s.clearDrop b).map = s.map := rfl
@[simp] theorem clearDrop_inReset (b : Bool) (s : State) : (s.clearDrop b).inReset = s.inReset := rfl
@[simp] theorem clearDrop_mem (b : Bool) (s : State) : (s.clearDrop b).mem = s.mem := rfl
@[simp] theorem clearDrop_agenda (b : Bool) (s : State) : (s.clearDrop b).agenda = s.agenda := rfl
@[simp] theorem clearDrop_readData (b : Bool) (s : State) : (s.clearDrop b).readData = s.readData := rfl
@[simp] theorem clearDrop_raced (b : Bool) (s : State) : (s.clearDrop b).raced = s.raced := rfl
@[simp] theorem clearDrop_moment (b : Bool) (s : State) : (s.clearDrop b).moment = s.moment := rfl

/-! ## `writeIE` -/

@[simp] theorem writeIE_src (v : Word) (s : State) : (s.writeIE v).src = s.src := rfl
@[simp] theorem writeIE_dst (v : Word) (s : State) : (s.writeIE v).dst = s.dst := rfl
@[simp] theorem writeIE_dim (v : Word) (s : State) : (s.writeIE v).dim = s.dim := rfl
@[simp] theorem writeIE_level (v : Word) (s : State) : (s.writeIE v).level = s.level := rfl
@[simp] theorem writeIE_avg (v : Word) (s : State) : (s.writeIE v).avg = s.avg := rfl
@[simp] theorem writeIE_lvlUsed (v : Word) (s : State) : (s.writeIE v).lvlUsed = s.lvlUsed := rfl
@[simp] theorem writeIE_sumLo (v : Word) (s : State) : (s.writeIE v).sumLo = s.sumLo := rfl
@[simp] theorem writeIE_sumHi (v : Word) (s : State) : (s.writeIE v).sumHi = s.sumHi := rfl
@[simp] theorem writeIE_cmd (v : Word) (s : State) : (s.writeIE v).cmd = s.cmd := rfl
@[simp] theorem writeIE_busy (v : Word) (s : State) : (s.writeIE v).busy = s.busy := rfl
@[simp] theorem writeIE_done (v : Word) (s : State) : (s.writeIE v).done = s.done := rfl
@[simp] theorem writeIE_err (v : Word) (s : State) : (s.writeIE v).err = s.err := rfl
@[simp] theorem writeIE_drop (v : Word) (s : State) : (s.writeIE v).drop = s.drop := rfl
@[simp] theorem writeIE_hv (v : Word) (s : State) : (s.writeIE v).hv = s.hv := rfl
@[simp] theorem writeIE_mv (v : Word) (s : State) : (s.writeIE v).mv = s.mv := rfl
@[simp] theorem writeIE_errCode (v : Word) (s : State) : (s.writeIE v).errCode = s.errCode := rfl
@[simp] theorem writeIE_errInfo (v : Word) (s : State) : (s.writeIE v).errInfo = s.errInfo := rfl
@[simp] theorem writeIE_doneIE (v : Word) (s : State) : (s.writeIE v).doneIE = v.getLsbD 1 := rfl
@[simp] theorem writeIE_errIE (v : Word) (s : State) : (s.writeIE v).errIE = v.getLsbD 2 := rfl
@[simp] theorem writeIE_dropIE (v : Word) (s : State) : (s.writeIE v).dropIE = v.getLsbD 3 := rfl
@[simp] theorem writeIE_hist (v : Word) (s : State) : (s.writeIE v).hist = s.hist := rfl
@[simp] theorem writeIE_map (v : Word) (s : State) : (s.writeIE v).map = s.map := rfl
@[simp] theorem writeIE_inReset (v : Word) (s : State) : (s.writeIE v).inReset = s.inReset := rfl
@[simp] theorem writeIE_mem (v : Word) (s : State) : (s.writeIE v).mem = s.mem := rfl
@[simp] theorem writeIE_agenda (v : Word) (s : State) : (s.writeIE v).agenda = s.agenda := rfl
@[simp] theorem writeIE_readData (v : Word) (s : State) : (s.writeIE v).readData = s.readData := rfl
@[simp] theorem writeIE_raced (v : Word) (s : State) : (s.writeIE v).raced = s.raced := rfl
@[simp] theorem writeIE_moment (v : Word) (s : State) : (s.writeIE v).moment = s.moment := rfl

end Sys2Proof.Machine.State
end

