-- ==== Sys2Proof/Laws/Memory.lean ====
section
/-! SUPPORT. The laws of image memory: a read after a write to the same address, a write leaves every other
address alone, every operation keeps the canonical form, and what the engine's runs of stores do. -/

namespace Sys2Proof.Machine

namespace Memory

@[simp] theorem read_nil (a : Nat) : Memory.read [] a = background := rfl

@[simp] theorem read_cons (c : Host.Cell) (m : Memory) (a : Nat) :
    Memory.read (c :: m) a = if c.1 = a then c.2 else Memory.read m a := rfl

/-- An address that is not listed reads as the background. -/
theorem read_of_not_listed (m : Memory) (a : Nat) (h : ∀ c ∈ m, c.1 ≠ a) : m.read a = background := by
  induction m with
  | nil => rfl
  | cons c m ih =>
    have hc : c.1 ≠ a := h c List.mem_cons_self
    simp [hc, ih fun d hd => h d (List.mem_cons_of_mem c hd)]

theorem read_insert_same (m : Memory) (a : Nat) (v : Byte) (h : ∀ c ∈ m, c.1 ≠ a) :
    (Memory.insert a v m).read a = v := by
  induction m with
  | nil => simp [Memory.insert]
  | cons c m ih =>
    have hc : c.1 ≠ a := h c List.mem_cons_self
    unfold Memory.insert
    split
    · simp
    · simp [hc, ih fun d hd => h d (List.mem_cons_of_mem c hd)]

theorem read_insert_other (m : Memory) (a b : Nat) (v : Byte) (h : b ≠ a) :
    (Memory.insert a v m).read b = m.read b := by
  induction m with
  | nil => simp [Memory.insert, h.symm]
  | cons c m ih =>
    unfold Memory.insert
    split
    · simp [h.symm]
    · simp [ih]

theorem read_filter_other (m : Memory) (a b : Nat) (h : b ≠ a) :
    Memory.read (m.filter (fun c => c.1 != a)) b = m.read b := by
  induction m with
  | nil => rfl
  | cons c m ih =>
    by_cases hc : c.1 = a
    · subst hc; simp [ih, h.symm]
    · simp [hc, ih]

theorem not_listed_filter (m : Memory) (a : Nat) :
    ∀ c ∈ m.filter (fun c => c.1 != a), c.1 ≠ a := by
  intro c hc
  simpa using (List.mem_filter.1 hc).2

/-- "A read returns the byte last written to that address" (R61), in every memory. -/
@[simp] theorem read_write_same (m : Memory) (a : Nat) (v : Byte) : (m.write a v).read a = v := by
  unfold Memory.write
  split
  · next h => rw [h]; exact read_of_not_listed _ _ (not_listed_filter m a)
  · exact read_insert_same _ _ _ (not_listed_filter m a)

/-- "A write changes that byte only" (R61), in every memory. -/
theorem read_write_other (m : Memory) (a b : Nat) (v : Byte) (h : b ≠ a) :
    (m.write a v).read b = m.read b := by
  unfold Memory.write
  split
  · exact read_filter_other m a b h
  · rw [read_insert_other _ _ _ _ h, read_filter_other m a b h]

/-- One read after one write. -/
theorem read_write (m : Memory) (a b : Nat) (v : Byte) :
    (m.write a v).read b = if b = a then v else m.read b := by
  by_cases h : b = a
  · subst h; simp
  · simp [h, read_write_other m a b v h]

theorem mem_insert {m : Memory} {a : Nat} {v : Byte} {c : Host.Cell}
    (h : c ∈ Memory.insert a v m) : c = (a, v) ∨ c ∈ m := by
  induction m with
  | nil => simpa [Memory.insert] using h
  | cons d m ih =>
    unfold Memory.insert at h
    split at h
    · simpa using h
    · rcases List.mem_cons.1 h with rfl | h
      · exact Or.inr List.mem_cons_self
      · exact (ih h).imp_right (List.mem_cons_of_mem d)

theorem insert_sorted {m : Memory} {a : Nat} {v : Byte}
    (hs : m.Pairwise (fun c d => c.1 < d.1)) (hn : ∀ c ∈ m, c.1 ≠ a) :
    (Memory.insert a v m).Pairwise (fun c d => c.1 < d.1) := by
  induction m with
  | nil => simp [Memory.insert]
  | cons c m ih =>
    have hs' := List.pairwise_cons.1 hs
    have hc : c.1 ≠ a := hn c List.mem_cons_self
    unfold Memory.insert
    split
    · next hlt =>
      refine List.pairwise_cons.2 ⟨fun d hd => ?_, hs⟩
      rcases List.mem_cons.1 hd with rfl | hd
      · exact hlt
      · exact lt_trans hlt (hs'.1 d hd)
    · next hge =>
      refine List.pairwise_cons.2 ⟨fun d hd => ?_, ih hs'.2 fun d hd => hn d (List.mem_cons_of_mem c hd)⟩
      rcases mem_insert hd with rfl | hd
      · show c.1 < a
        omega
      · exact hs'.1 d hd

/-- A write to an address of image memory keeps the canonical form. -/
theorem write_wf {m : Memory} {a : Nat} {v : Byte} (h : m.wf) (ha : a < Config.addressSpace) :
    (m.write a v).wf := by
  have hs : (m.filter (fun c => c.1 != a)).Pairwise (fun c d => c.1 < d.1) := h.1.filter _
  have hm : ∀ c ∈ m.filter (fun c => c.1 != a), c.1 < Config.addressSpace ∧ c.2 ≠ background :=
    fun c hc => h.2 c (List.mem_filter.1 hc).1
  unfold Memory.write
  split
  · exact ⟨hs, hm⟩
  · next hv =>
    refine ⟨insert_sorted hs (not_listed_filter m a), fun c hc => ?_⟩
    rcases mem_insert hc with rfl | hc
    · exact ⟨ha, hv⟩
    · exact hm c hc

/-- The step of `mix` over a list of addresses: an address in the list gets the picked value. -/
theorem read_mix_fold (pick : Nat → Bool) (new : Memory) (l : List Nat) (m : Memory) (a : Nat) :
    Memory.read (l.foldl (fun m a => if pick a then m.write a (new.read a) else m) m) a =
      if a ∈ l ∧ pick a = true then new.read a else m.read a := by
  induction l generalizing m with
  | nil => simp
  | cons b l ih =>
    rw [List.foldl_cons, ih]
    by_cases hab : a = b
    · subst hab
      by_cases hp : pick a <;> simp [hp]
    · by_cases hp : pick b <;> simp [hp, hab, read_write_other _ _ _ _ hab]

theorem read_not_in (m : Memory) (a : Nat) (h : a ∉ m.map (fun c => c.1)) : m.read a = background :=
  read_of_not_listed m a fun c hc e => h (List.mem_map.2 ⟨c, hc, e⟩)

/-- Each address of a mix holds the byte of the one memory or of the other, as the choice says. -/
theorem read_mix (pick : Nat → Bool) (old new : Memory) (a : Nat) :
    (Memory.mix pick old new).read a = if pick a then new.read a else old.read a := by
  unfold Memory.mix
  rw [read_mix_fold]
  by_cases hl : a ∈ (old ++ new).map (fun c => c.1)
  · simp only [hl, true_and]
  · have h1 : a ∉ old.map (fun c => c.1) := fun h => hl (by simp only [List.map_append]; exact List.mem_append_left _ h)
    have h2 : a ∉ new.map (fun c => c.1) := fun h => hl (by simp only [List.map_append]; exact List.mem_append_right _ h)
    simp [read_not_in _ _ h1, read_not_in _ _ h2]

theorem mix_wf {pick : Nat → Bool} {old new : Memory} (ho : old.wf) (hn : new.wf) :
    (Memory.mix pick old new).wf := by
  have hl : ∀ a ∈ (old ++ new).map (fun c => c.1), a < Config.addressSpace := by
    intro a ha
    obtain ⟨c, hc, rfl⟩ := List.mem_map.1 ha
    rcases List.mem_append.1 hc with hc | hc
    · exact (ho.2 c hc).1
    · exact (hn.2 c hc).1
  unfold Memory.mix
  generalize (old ++ new).map (fun c => c.1) = l at hl
  induction l generalizing old with
  | nil => exact ho
  | cons a l ih =>
    rw [List.foldl_cons]
    refine ih ?_ fun b hb => hl b (List.mem_cons_of_mem a hb)
    split
    · exact write_wf ho (hl a List.mem_cons_self)
    · exact ho

theorem nil_wf : Memory.wf [] := ⟨List.Pairwise.nil, by simp⟩

end Memory

/-! ## The engine's accesses -/

/-- An address the host has not written under the command has no replaced value. -/
theorem replaced_eq_nil {s : State} {a : Nat} (h : ∀ c ∈ s.raced, c.1 ≠ a) : s.replaced a = [] := by
  simpa [State.replaced, List.filter_eq_nil_iff] using h

/-- Where the host has not written under the command, the engine sees the byte that is there. -/
theorem sourceByte_of_quiet {s : State} {a : Nat} (h : s.replaced a = []) (r : Nat) :
    s.sourceByte r a = s.mem.read a := by
  simp [State.sourceByte, h]

/-- Where the host has not written under the command, the engine's store is a write. -/
theorem storeByte_of_quiet {s : State} {a : Nat} (h : s.replaced a = []) (m : Memory) (v : Byte) :
    s.storeByte m a v = m.write a v := by
  simp [State.storeByte, h]

/-- The engine sees a source byte as one of the values it has held since the acceptance (R300). -/
theorem sourceByte_mem (s : State) (r a : Nat) :
    s.sourceByte r a ∈ s.mem.read a :: s.replaced a := by
  unfold State.sourceByte
  cases h : s.replaced a with
  | nil => simp
  | cons v old =>
    have hlt : Config.racedRead s.moment r a % (old.length + 2) < (s.mem.read a :: v :: old).length :=
      Nat.mod_lt _ (Nat.succ_pos _)
    simp only [List.getD_eq_getElem _ _ hlt]
    exact List.getElem_mem hlt

/-- A store leaves every other address alone. -/
theorem read_storeByte_other (s : State) (m : Memory) (a b : Nat) (v : Byte) (h : b ≠ a) :
    (s.storeByte m a v).read b = m.read b := by
  unfold State.storeByte
  split
  · rfl
  · exact Memory.read_write_other m a b v h

theorem storeByte_wf {s : State} {m : Memory} {a : Nat} {v : Byte} (h : m.wf)
    (ha : a < Config.addressSpace) : (s.storeByte m a v).wf := by
  unfold State.storeByte
  split
  · exact h
  · exact Memory.write_wf h ha

/-- A run of stores changes only the addresses of the run. -/
theorem read_storeRun_other (s : State) (base stride : Nat) (f : Nat → Byte) (n a : Nat)
    (h : ∀ j, j < n → a ≠ base + j * stride) : (s.storeRun base stride f n).read a = s.mem.read a := by
  induction n with
  | zero => rfl
  | succ n ih =>
    rw [State.storeRun, read_storeByte_other _ _ _ _ _ (h n (Nat.lt_succ_self n)),
      ih fun j hj => h j (Nat.lt_succ_of_lt hj)]

/-- Where the host has not written under the command, each address of a run of stores holds its value. -/
theorem read_storeRun {s : State} (base stride : Nat) (hst : 0 < stride) (f : Nat → Byte) (n : Nat)
    (hq : ∀ j, j < n → s.replaced (base + j * stride) = []) (j : Nat) (hj : j < n) :
    (s.storeRun base stride f n).read (base + j * stride) = f j := by
  induction n with
  | zero => omega
  | succ n ih =>
    rw [State.storeRun, storeByte_of_quiet (hq n (Nat.lt_succ_self n)), Memory.read_write]
    by_cases e : j = n
    · simp [e]
    · have hne : base + j * stride ≠ base + n * stride := by
        intro he
        exact e (Nat.eq_of_mul_eq_mul_right hst (Nat.add_left_cancel he))
      rw [if_neg hne]
      exact ih (fun k hk => hq k (by omega)) (by omega)

theorem storeRun_wf {s : State} (base stride : Nat) (f : Nat → Byte) (n : Nat) (h : s.mem.wf)
    (hb : ∀ j, j < n → base + j * stride < Config.addressSpace) : (s.storeRun base stride f n).wf := by
  induction n with
  | zero => exact h
  | succ n ih =>
    rw [State.storeRun]
    exact storeByte_wf (ih fun j hj => hb j (Nat.lt_succ_of_lt hj)) (hb n (Nat.lt_succ_self n))

/-- Two runs of stores with the same values, from the same memory and where the host has not written under
the command, leave the same memory. -/
theorem storeRun_congr {s u : State} (hm : u.mem = s.mem) (base stride : Nat) (f g : Nat → Byte) (n : Nat)
    (hs : ∀ j, j < n → s.replaced (base + j * stride) = [])
    (hu : ∀ j, j < n → u.replaced (base + j * stride) = []) (h : ∀ j, j < n → g j = f j) :
    u.storeRun base stride g n = s.storeRun base stride f n := by
  induction n with
  | zero => exact hm
  | succ n ih =>
    have hlt := Nat.lt_succ_self n
    rw [State.storeRun, State.storeRun, storeByte_of_quiet (hs n hlt), storeByte_of_quiet (hu n hlt), h n hlt,
      ih (fun j hj => hs j (by omega)) (fun j hj => hu j (by omega)) fun j hj => h j (by omega)]

/-- The sum of a run of values. -/
theorem sumRun_eq_sum (f : Nat → Byte) (n : Nat) :
    sumRun f n = (Finset.range n).sum (fun p => (f p).toNat) := by
  induction n with
  | zero => rfl
  | succ n ih => rw [sumRun, ih, Finset.sum_range_succ]

/-- A sum of `n` bytes is at most `255 × n` (R183). -/
theorem sumRun_le (f : Nat → Byte) (n : Nat) : sumRun f n ≤ 255 * n := by
  induction n with
  | zero => simp [sumRun]
  | succ n ih =>
    have hb : (f n).toNat < 256 := (f n).isLt
    rw [sumRun]
    omega

end Sys2Proof.Machine
end

