-- ==== Sys2Proof/Laws/Exec.lean ====
section
/-! SUPPORT. What executing one instruction can do, said once: it is `perform` with the instruction's
checks and effect; it always answers a next state; that state is either the fault of the first failing
check of R256 or the completed effect. -/

namespace Sys2Proof.Machine

/-- The checks each meaning makes, in order. -/
def checksOf (i : Instr) (s : State) : List Check :=
  match i with
  | .nop fmt => [checkFmt (fmt == .gray)]
  | .cvtRgb fmt => s.convertChecks fmt
  | .cvtHsv fmt => s.convertChecks fmt
  | .cvtHsl fmt => s.convertChecks fmt
  | .cvtHsi fmt => s.convertChecks fmt
  | .cvtYuv fmt => s.convertChecks fmt
  | .invRgb fmt => s.convertChecks fmt
  | .invHsv fmt => s.convertChecks fmt
  | .invHsl fmt => s.convertChecks fmt
  | .invHsi fmt => s.convertChecks fmt
  | .invYuv fmt => s.convertChecks fmt
  | .luma fmt => checkFmt fmt.colour :: s.checkImages fmt.channels 1
  | .avg fmt => checkFmt (fmt == .gray) :: s.checkEmpty :: s.checkSource 1
  | .xch fmt k =>
    checkFmt fmt.colour :: checkArg (decide (k.toNat ≤ 2)) :: s.checkImages fmt.channels 1
  | .ich fmt k =>
    checkFmt fmt.colour ::
      checkArg (decide (k.toNat ≤ 2 ∨ (k.toNat = 3 ∧ fmt = .rgba))) :: s.checkImages 1 fmt.channels
  | .bin fmt => checkFmt (fmt == .gray) :: s.checkLevel :: s.checkImages 1 1
  | .binA fmt => checkFmt (fmt == .gray) :: s.checkEmpty :: s.checkImages 1 1
  | .hist fmt => checkFmt (fmt != .reserved) :: s.checkEmpty :: s.checkSource fmt.channels
  | .eqmap fmt b => [checkFmt (fmt == .gray), checkArg (decide (b.toNat ≤ 3)), s.checkBank b.toNat]
  | .eqapp fmt => checkFmt (fmt == .gray) :: s.checkMap :: s.checkImages 1 1

/-- The effect each meaning has once its checks pass. -/
def effectOf (i : Instr) (s : State) : State :=
  match i with
  | .nop _ => s
  | .cvtRgb fmt => s.convertImage forwardRgb fmt.channels
  | .cvtHsv fmt => s.convertImage forwardHsv fmt.channels
  | .cvtHsl fmt => s.convertImage forwardHsl fmt.channels
  | .cvtHsi fmt => s.convertImage forwardHsi fmt.channels
  | .cvtYuv fmt => s.convertImage forwardYuv fmt.channels
  | .invRgb fmt => s.convertImage inverseRgb fmt.channels
  | .invHsv fmt => s.convertImage inverseHsv fmt.channels
  | .invHsl fmt => s.convertImage inverseHsl fmt.channels
  | .invHsi fmt => s.convertImage inverseHsi fmt.channels
  | .invYuv fmt => s.convertImage inverseYuv fmt.channels
  | .luma fmt => s.lumaImage fmt.channels
  | .avg _ => s.averageImage
  | .xch fmt k => s.extractChannel fmt.channels k.toNat
  | .ich fmt k => s.insertChannel fmt.channels k.toNat
  | .bin _ => s.thresholdImage
  | .binA _ => s.autoThresholdImage
  | .hist fmt => s.countImage fmt
  | .eqmap _ b => s.buildMap b.toNat
  | .eqapp _ => s.applyMap

/-- Every meaning is its checks and its effect. -/
theorem exec_eq_perform (i : Instr) (s : State) : exec i s = perform (checksOf i s) (effectOf i) s := by
  cases i <;> rfl

/-! ## The first failing check -/

@[simp] theorem firstFailing_nil : firstFailing [] = none := rfl

@[simp] theorem firstFailing_cons (c : Check) (l : List Check) :
    firstFailing (c :: l) = if c.2 then some c.1 else firstFailing l := rfl

theorem perform_of_some {l : List Check} {c : ErrorCode} (h : firstFailing l = some c)
    (f : State → State) (s : State) : perform l f s = .next (s.takeFault c) := by
  simp [perform, h]

theorem perform_of_none {l : List Check} (h : firstFailing l = none) (f : State → State) (s : State) :
    perform l f s = .next (f s).complete := by
  simp [perform, h]

theorem outOfRange_iff (r : Region) : r.outOfRange = true ↔ pastTop r.base r.len := by
  simp only [Region.outOfRange, pastTop, Bool.and_eq_true, decide_eq_true_eq]
  norm_num [Config.addressSpace]

theorem overlaps_iff (r q : Region) :
    r.overlaps q = true ↔ shareByte r.base r.len q.base q.len := by
  simp only [Region.overlaps, shareByte, Bool.and_eq_true, decide_eq_true_eq, and_assoc]

/-- The source range check of R256 as a test. -/
def sourceOut (i : Instr) (s : State) : Bool :=
  i.sourceChannels.any fun n => (s.srcRegion n).outOfRange

/-- The destination range check of R256 as a test. -/
def destOut (i : Instr) (s : State) : Bool :=
  i.destChannels.any fun d => (s.dstRegion d).outOfRange

/-- The overlap check of R256 as a test. -/
def overlapTest (i : Instr) (s : State) : Bool :=
  i.sourceChannels.any fun n => i.destChannels.any fun d => (s.srcRegion n).overlaps (s.dstRegion d)

/-- The table of R256 from check 3 down, with every column for every instruction. -/
def tableChecks (i : Instr) (s : State) : List Check :=
  [(.eFmt, !i.fmtLegal), (.eArg, !i.argLegal),
   (.eLevel, i.readsLevel && decide (255 < s.level.toNat)),
   (.eEmpty, i.needsPixels && decide (s.npix = 0)),
   (.eNohist, bankMissing i s), (.eNomap, mapMissing i s),
   (.eRange, sourceOut i s), (.eRange, destOut i s), (.eOverlap, overlapTest i s)]

/-- Each meaning's list of checks finds the fault that the rule's table finds. -/
theorem firstFailing_checksOf (i : Instr) (s : State) :
    firstFailing (checksOf i s) = firstFailing (tableChecks i s) := by
  cases i <;>
    simp [checksOf, tableChecks, State.convertChecks, State.checkImages, State.checkSource, checkFmt,
      checkArg, State.checkLevel, State.checkEmpty, State.checkBank, State.checkMap, Instr.fmtLegal,
      Instr.argLegal, Instr.readsLevel, Instr.needsPixels, bankMissing, mapMissing, sourceOut, destOut,
      overlapTest, Instr.sourceChannels, Instr.destChannels]

theorem sourceOut_iff (i : Instr) (s : State) :
    sourceOut i s = true ↔ ∃ n, i.sourceChannels = some n ∧ pastTop s.src.toNat (s.npix * n) := by
  cases h : i.sourceChannels <;> simp [sourceOut, h, outOfRange_iff, State.srcRegion]

theorem destOut_iff (i : Instr) (s : State) :
    destOut i s = true ↔ ∃ d, i.destChannels = some d ∧ pastTop s.dst.toNat (s.npix * d) := by
  cases h : i.destChannels <;> simp [destOut, h, outOfRange_iff, State.dstRegion]

theorem overlapTest_iff (i : Instr) (s : State) : overlapTest i s = true ↔ overlapFails i s := by
  cases h : i.sourceChannels <;> cases h' : i.destChannels <;>
    simp [overlapTest, overlapFails, h, h', overlaps_iff, State.srcRegion, State.dstRegion]

theorem rangeFails_iff (i : Instr) (s : State) :
    rangeFails i s ↔ sourceOut i s = true ∨ destOut i s = true := by
  simp [rangeFails, sourceOut_iff, destOut_iff]

/-- No check of the table fails exactly when the command is ready. -/
theorem firstFailing_table_none (i : Instr) (s : State) :
    firstFailing (tableChecks i s) = none ↔ Ready i s := by
  constructor
  · intro h
    simp only [tableChecks, firstFailing_cons, firstFailing_nil] at h
    repeat (split at h; · cases h)
    exact {
      wellFormed := by simp_all [Instr.wellFormed]
      level := by simp_all
      pixels := by simp_all
      bank := by simp_all
      map := by simp_all
      inRange := by simp_all [rangeFails_iff]
      disjoint := by simp_all [← overlapTest_iff] }
  · rintro ⟨hw, hl, hp, hb, hm, hr, ho⟩
    rw [rangeFails_iff, not_or] at hr
    rw [← overlapTest_iff] at ho
    simp only [Instr.wellFormed, Bool.and_eq_true] at hw
    have h1 : (i.readsLevel && decide (255 < s.level.toNat)) = false := by
      cases h : i.readsLevel
      · rfl
      · simpa using hl h
    have h2 : (i.needsPixels && decide (s.npix = 0)) = false := by
      cases h : i.needsPixels
      · rfl
      · simpa using hp h
    simp [tableChecks, hw, h1, h2, hb, hm, hr, ho]

/-- The first failing check of the table is the fault the rule names. -/
theorem firstFailing_table_some {i : Instr} {s : State} {c : ErrorCode}
    (h : firstFailing (tableChecks i s) = some c) : TakesFault i s c := by
  simp only [tableChecks, firstFailing_cons, firstFailing_nil] at h
  split at h
  · cases h; exact .fmt (by simp_all)
  split at h
  · cases h; exact .arg (by simp_all) (by simp_all)
  have hw : i.wellFormed = true := by simp_all [Instr.wellFormed]
  split at h
  · cases h; exact .level hw (by simp_all) (by simp_all)
  split at h
  · cases h; exact .empty hw (by simp_all) (by simp_all)
  split at h
  · cases h; exact .nohist hw (by simp_all)
  split at h
  · cases h; exact .nomap hw (by simp_all)
  split at h
  · cases h
    exact .range hw (by simp_all) (by simp_all) (by simp_all) (by simp_all)
      ((rangeFails_iff i s).2 (Or.inl (by simp_all)))
  split at h
  · cases h
    exact .range hw (by simp_all) (by simp_all) (by simp_all) (by simp_all)
      ((rangeFails_iff i s).2 (Or.inr (by simp_all)))
  split at h
  · cases h
    exact .overlap hw (by simp_all) (by simp_all) (by simp_all) (by simp_all)
      (by rw [rangeFails_iff]; simp_all) ((overlapTest_iff i s).1 (by simp_all))
  · cases h

/-- A fault has a code. -/
theorem TakesFault.ne_none {i : Instr} {s : State} {c : ErrorCode} (h : TakesFault i s c) : c ≠ .eNone := by
  cases h <;> exact ErrorCode.noConfusion

/-! ## What executing an instruction can do -/

/-- A ready command completes with its effect. -/
theorem exec_of_ready {i : Instr} {s : State} (h : Ready i s) :
    exec i s = .next (effectOf i s).complete := by
  rw [exec_eq_perform]
  exact perform_of_none (by rw [firstFailing_checksOf, firstFailing_table_none]; exact h) _ _

/-- The fault the rule names is the first failing check of the table, so a command takes at most one
(R256). -/
theorem firstFailing_of_takesFault {i : Instr} {s : State} {c : ErrorCode} (h : TakesFault i s c) :
    firstFailing (tableChecks i s) = some c := by
  have hso := rangeFails_iff i s
  have ho := overlapTest_iff i s
  cases h with
  | fmt h => simp [tableChecks, h]
  | arg h h' => simp [tableChecks, h, h']
  | level h h' h'' => simp_all [tableChecks, Instr.wellFormed]
  | empty h h' h'' =>
    have : i.readsLevel = false := by cases i <;> first | rfl | simp [Instr.needsPixels] at h'
    simp_all [tableChecks, Instr.wellFormed]
  | nohist h h' =>
    have h1 : i.readsLevel = false := by cases i <;> first | rfl | simp [bankMissing] at h'
    have h2 : i.needsPixels = false := by cases i <;> first | rfl | simp [bankMissing] at h'
    simp_all [tableChecks, Instr.wellFormed]
  | nomap h h' =>
    have h1 : i.readsLevel = false := by cases i <;> first | rfl | simp [mapMissing] at h'
    have h2 : i.needsPixels = false := by cases i <;> first | rfl | simp [mapMissing] at h'
    have h3 : bankMissing i s = false := by cases i <;> first | rfl | simp [mapMissing] at h'
    simp_all [tableChecks, Instr.wellFormed]
  | range h hl hp hb hm hr =>
    have h1 : (i.readsLevel && decide (255 < s.level.toNat)) = false := by
      cases h : i.readsLevel
      · rfl
      · simpa using hl h
    have h2 : (i.needsPixels && decide (s.npix = 0)) = false := by
      cases h : i.needsPixels
      · rfl
      · simpa using hp h
    simp only [Instr.wellFormed, Bool.and_eq_true] at h
    rcases hso.1 hr with hr | hr
    · simp [tableChecks, h, h1, h2, hb, hm, hr]
    · simp [tableChecks, h, h1, h2, hb, hm, hr]
  | overlap h hl hp hb hm hr ho' =>
    have h1 : (i.readsLevel && decide (255 < s.level.toNat)) = false := by
      cases h : i.readsLevel
      · rfl
      · simpa using hl h
    have h2 : (i.needsPixels && decide (s.npix = 0)) = false := by
      cases h : i.needsPixels
      · rfl
      · simpa using hp h
    simp only [Instr.wellFormed, Bool.and_eq_true] at h
    rw [hso, not_or] at hr
    simp [tableChecks, h, h1, h2, hb, hm, hr, ho.2 ho']

/-- A command that takes a fault answers the latched fault and nothing else. -/
theorem exec_of_fault {i : Instr} {s : State} {c : ErrorCode} (h : TakesFault i s c) :
    exec i s = .next (s.takeFault c) := by
  rw [exec_eq_perform]
  exact perform_of_some (by rw [firstFailing_checksOf]; exact firstFailing_of_takesFault h) _ _

/-- Executing an instruction: a fault of R256 and nothing else, or the completed effect. -/
theorem exec_cases (i : Instr) (s : State) :
    (∃ c, TakesFault i s c ∧ exec i s = .next (s.takeFault c)) ∨
      (Ready i s ∧ exec i s = .next (effectOf i s).complete) := by
  cases h : firstFailing (tableChecks i s) with
  | none => exact Or.inr ⟨(firstFailing_table_none i s).1 h, exec_of_ready ((firstFailing_table_none i s).1 h)⟩
  | some c =>
    refine Or.inl ⟨c, firstFailing_table_some h, ?_⟩
    rw [exec_eq_perform]
    exact perform_of_some (by rw [firstFailing_checksOf]; exact h) _ _

/-- The same, for a state that executing answered. -/
theorem exec_inversion {i : Instr} {s t : State} (h : exec i s = .next t) :
    (∃ c, TakesFault i s c ∧ t = s.takeFault c) ∨ (Ready i s ∧ t = (effectOf i s).complete) := by
  rcases exec_cases i s with ⟨c, hc, he⟩ | ⟨hr, he⟩
  · rw [he] at h; cases h; exact Or.inl ⟨c, hc, rfl⟩
  · rw [he] at h; cases h; exact Or.inr ⟨hr, rfl⟩

/-- Running the accepted word always answers a next state: the fault of the word or of the instruction, or
the completed effect. -/
theorem runCommand_cases (s : State) :
    (∃ c, c ≠ .eNone ∧ runCommand s = .next (s.takeFault c)) ∨
      ∃ i, decode s.cmd = .instr i ∧ Ready i s ∧ runCommand s = .next (effectOf i s).complete := by
  unfold runCommand
  cases h : decode s.cmd with
  | illegal => exact Or.inl ⟨_, ErrorCode.noConfusion, rfl⟩
  | badColourSpace => exact Or.inl ⟨_, ErrorCode.noConfusion, rfl⟩
  | instr i =>
    rcases exec_cases i s with ⟨c, hc, he⟩ | ⟨hr, he⟩
    · exact Or.inl ⟨c, hc.ne_none, he⟩
    · exact Or.inr ⟨i, rfl, hr, he⟩

end Sys2Proof.Machine
end

