-- ==== Sys2Proof/Laws/Tables.lean ====
section
/-! SUPPORT. The laws of the tables: what a count leaves in a bank (`44_histogram.md` R210 to R212) and what
the equalization map of a bank is like (`45_equalizer.md` R221, R222). -/

namespace Sys2Proof.Machine.Bank

/-- One counter after one count. -/
theorem getElem_bump (bank : Bank) (g : Byte) (i : Nat) (h : i < 256) :
    (bank.bump g)[i] = if g.toNat = i then bank[i] + 1#32 else bank[i] := by
  simp only [bump, counter, Vector.getElem_set]
  split
  · next e => subst e; rfl
  · rfl

theorem getElem_emptyBank (i : Nat) (h : i < 256) : emptyBank[i] = 0#32 := by
  simp [emptyBank]

/-- A counter holds the number of values equal to its index (R210), as long as it cannot overflow
(R7). -/
theorem countRun_getElem (f : Nat → Byte) (n i : Nat) (h : i < 256) (hn : n < 2 ^ 32) :
    ((countRun f n)[i]).toNat = ((Finset.range n).filter (fun p => (f p).toNat = i)).card := by
  induction n with
  | zero => simp [countRun, getElem_emptyBank i h]
  | succ n ih =>
    have hle : ((Finset.range n).filter (fun p => (f p).toNat = i)).card ≤ n := by
      simpa using Finset.card_filter_le (Finset.range n) (fun p => (f p).toNat = i)
    have ih' := ih (by omega)
    rw [countRun, getElem_bump _ _ _ h, Finset.range_add_one, Finset.filter_insert]
    split
    · rw [Finset.card_insert_of_notMem (by simp), ← ih', BitVec.toNat_add]
      simp only [BitVec.toNat_ofNat]
      omega
    · exact ih'

/-- A count depends only on the values counted. -/
theorem countRun_congr {f g : Nat → Byte} {n : Nat} (h : ∀ p, p < n → g p = f p) :
    countRun g n = countRun f n := by
  induction n with
  | zero => rfl
  | succ n ih => rw [countRun, countRun, h n (by omega), ih fun p hp => h p (by omega)]

@[simp] theorem sumBelow_zero (bank : Bank) : bank.sumBelow 0 = 0 := by simp [sumBelow]

theorem sumBelow_succ (bank : Bank) (n : Nat) (h : n < 256) :
    bank.sumBelow (n + 1) = bank.sumBelow n + (bank[n]).toNat := by
  have hl : n < bank.toList.length := by simpa using h
  simp only [sumBelow, List.take_succ_eq_append_getElem hl, List.map_append, List.sum_append]
  simp

/-- The sum below an index as a finite sum. -/
theorem sumBelow_eq_sum (bank : Bank) (n : Nat) (h : n ≤ 256) :
    bank.sumBelow n = ∑ i ∈ Finset.range n, (bank[i]?.getD 0#32).toNat := by
  induction n with
  | zero => simp
  | succ n ih =>
    have hn : n < 256 := h
    rw [sumBelow_succ bank n hn, ih (by omega), Finset.sum_range_succ]
    simp [hn]

theorem sumBelow_mono (bank : Bank) {m n : Nat} (hmn : m ≤ n) (hn : n ≤ 256) :
    bank.sumBelow m ≤ bank.sumBelow n := by
  rw [sumBelow_eq_sum bank m (by omega), sumBelow_eq_sum bank n hn]
  exact Finset.sum_le_sum_of_subset (Finset.range_mono hmn)

/-- Conservation (R211): the counters of a bank sum to the number of values counted. -/
theorem total_countRun (f : Nat → Byte) (n : Nat) (hn : n < 2 ^ 32) : (countRun f n).total = n := by
  rw [total, sumBelow_eq_sum _ _ (le_refl 256)]
  have hc : ∀ i ∈ Finset.range 256, ((countRun f n)[i]?.getD 0#32).toNat =
      ((Finset.range n).filter (fun p => (f p).toNat = i)).card := by
    intro i hi
    have h : i < 256 := Finset.mem_range.1 hi
    simpa [h] using countRun_getElem f n i h hn
  rw [Finset.sum_congr rfl hc,
    ← Finset.card_eq_sum_card_fiberwise (f := fun p => (f p).toNat) (s := Finset.range n)
      (t := Finset.range 256)]
  · simp
  · intro p _
    exact Finset.mem_coe.2 (Finset.mem_range.2 (f p).isLt)

theorem total_emptyBank : emptyBank.total = 0 := total_countRun (fun _ => 0#8) 0 (by norm_num)

/-! ## The equalization map -/

theorem cumsum_le_total (bank : Bank) {i : Nat} (h : i < 256) : bank.cumsum i ≤ bank.total :=
  sumBelow_mono bank h (le_refl 256)

theorem cumsum_mono (bank : Bank) {i j : Nat} (hij : i ≤ j) (hj : j < 256) :
    bank.cumsum i ≤ bank.cumsum j :=
  sumBelow_mono bank (by omega) hj

@[simp] theorem cumsum_last (bank : Bank) : bank.cumsum 255 = bank.total := rfl

/-- The rounded quotient of a count out of a positive total is at most 255. -/
theorem entry_le (cum total : Nat) (ht : 1 ≤ total) (hc : cum ≤ total) :
    (cum * 255 + total / 2) / total ≤ 255 := by
  apply Nat.lt_succ_iff.1
  rw [Nat.div_lt_iff_lt_mul ht]
  have : total / 2 < total := Nat.div_lt_self ht (by norm_num)
  omega

/-- An entry as a number (R220). -/
theorem toNat_mapEntry (bank : Bank) {i : Nat} (h : i < 256) (ht : 1 ≤ bank.total) :
    (bank.mapEntry i).toNat = (bank.cumsum i * 255 + bank.total / 2) / bank.total := by
  have := entry_le _ _ ht (cumsum_le_total bank h)
  rw [mapEntry, BitVec.toNat_ofNat]
  exact Nat.mod_eq_of_lt (Nat.lt_succ_of_le this)

@[simp] theorem getElem_equalization (bank : Bank) (i : Nat) (h : i < 256) :
    bank.equalization[i] = bank.mapEntry i := by
  simp [equalization]

/-- The map of a non-empty bank is non-decreasing (R221). -/
theorem mapEntry_mono (bank : Bank) (ht : 1 ≤ bank.total) {i j : Nat} (hij : i ≤ j) (hj : j < 256) :
    (bank.mapEntry i).toNat ≤ (bank.mapEntry j).toNat := by
  rw [toNat_mapEntry bank (by omega) ht, toNat_mapEntry bank hj ht]
  have := cumsum_mono bank hij hj
  exact Nat.div_le_div_right (by omega)

/-- The map of a non-empty bank ends in 255 (R221). -/
theorem mapEntry_last (bank : Bank) (ht : 1 ≤ bank.total) : bank.mapEntry 255 = 255#8 := by
  apply BitVec.eq_of_toNat_eq
  rw [toNat_mapEntry bank (by norm_num) ht, cumsum_last]
  have h2 : bank.total / 2 / bank.total = 0 := Nat.div_eq_of_lt (Nat.div_lt_self ht (by norm_num))
  rw [Nat.mul_add_div ht, h2]
  rfl

end Sys2Proof.Machine.Bank
end

