-- ==== Sys2Proof/Laws/Frames.lean ====
section
/-! SUPPORT. The frame of every effect (`30_encoding.md` R104): which fields an effect can touch, and where in
image memory it stores (`20_memory.md` R67, R70). -/

namespace Sys2Proof.Machine

/-- `HIST`'s effect as an update of the two fields it touches. -/
theorem countImage_eq (fmt : Fmt) (s : State) :
    s.countImage fmt =
      s.withHistogram (if fmt = .gray then s.grayBanks else s.colourBanks fmt.channels)
        (if fmt = .gray then 0b1001#4 else 0b1111#4) := by
  unfold State.countImage
  split <;> rfl

/-! ## Fields no effect touches -/

@[simp] theorem effectOf_src (i : Instr) (s : State) : (effectOf i s).src = s.src := by
  cases i <;> first | rfl | (simp only [effectOf, countImage_eq]; rfl)

@[simp] theorem effectOf_dst (i : Instr) (s : State) : (effectOf i s).dst = s.dst := by
  cases i <;> first | rfl | (simp only [effectOf, countImage_eq]; rfl)

@[simp] theorem effectOf_dim (i : Instr) (s : State) : (effectOf i s).dim = s.dim := by
  cases i <;> first | rfl | (simp only [effectOf, countImage_eq]; rfl)

@[simp] theorem effectOf_level (i : Instr) (s : State) : (effectOf i s).level = s.level := by
  cases i <;> first | rfl | (simp only [effectOf, countImage_eq]; rfl)

@[simp] theorem effectOf_cmd (i : Instr) (s : State) : (effectOf i s).cmd = s.cmd := by
  cases i <;> first | rfl | (simp only [effectOf, countImage_eq]; rfl)

@[simp] theorem effectOf_busy (i : Instr) (s : State) : (effectOf i s).busy = s.busy := by
  cases i <;> first | rfl | (simp only [effectOf, countImage_eq]; rfl)

@[simp] theorem effectOf_done (i : Instr) (s : State) : (effectOf i s).done = s.done := by
  cases i <;> first | rfl | (simp only [effectOf, countImage_eq]; rfl)

@[simp] theorem effectOf_err (i : Instr) (s : State) : (effectOf i s).err = s.err := by
  cases i <;> first | rfl | (simp only [effectOf, countImage_eq]; rfl)

@[simp] theorem effectOf_drop (i : Instr) (s : State) : (effectOf i s).drop = s.drop := by
  cases i <;> first | rfl | (simp only [effectOf, countImage_eq]; rfl)

@[simp] theorem effectOf_errCode (i : Instr) (s : State) : (effectOf i s).errCode = s.errCode := by
  cases i <;> first | rfl | (simp only [effectOf, countImage_eq]; rfl)

@[simp] theorem effectOf_errInfo (i : Instr) (s : State) : (effectOf i s).errInfo = s.errInfo := by
  cases i <;> first | rfl | (simp only [effectOf, countImage_eq]; rfl)

@[simp] theorem effectOf_doneIE (i : Instr) (s : State) : (effectOf i s).doneIE = s.doneIE := by
  cases i <;> first | rfl | (simp only [effectOf, countImage_eq]; rfl)

@[simp] theorem effectOf_errIE (i : Instr) (s : State) : (effectOf i s).errIE = s.errIE := by
  cases i <;> first | rfl | (simp only [effectOf, countImage_eq]; rfl)

@[simp] theorem effectOf_dropIE (i : Instr) (s : State) : (effectOf i s).dropIE = s.dropIE := by
  cases i <;> first | rfl | (simp only [effectOf, countImage_eq]; rfl)

@[simp] theorem effectOf_inReset (i : Instr) (s : State) : (effectOf i s).inReset = s.inReset := by
  cases i <;> first | rfl | (simp only [effectOf, countImage_eq]; rfl)

@[simp] theorem effectOf_agenda (i : Instr) (s : State) : (effectOf i s).agenda = s.agenda := by
  cases i <;> first | rfl | (simp only [effectOf, countImage_eq]; rfl)

@[simp] theorem effectOf_readData (i : Instr) (s : State) : (effectOf i s).readData = s.readData := by
  cases i <;> first | rfl | (simp only [effectOf, countImage_eq]; rfl)

@[simp] theorem effectOf_raced (i : Instr) (s : State) : (effectOf i s).raced = s.raced := by
  cases i <;> first | rfl | (simp only [effectOf, countImage_eq]; rfl)

@[simp] theorem effectOf_moment (i : Instr) (s : State) : (effectOf i s).moment = s.moment := by
  cases i <;> first | rfl | (simp only [effectOf, countImage_eq]; rfl)

/-! ## How a command ends -/

/-- What taking a fault leaves (R255). -/
theorem faulted_takeFault (c : ErrorCode) (s : State) : Faulted c s (s.takeFault c) := by
  simp [Faulted, SameOperands, SameAverage, SameHistogram, SameMap, SameOutside]

/-- What every effect leaves once it has completed (R92). -/
theorem completed_effect (i : Instr) (s : State) : Completed s (effectOf i s).complete := by
  simp [Completed, SameOperands, SameControl, SameOutside]

/-! ## The address of each store -/

/-- An image of `n` channels has its pixel `p` inside the first `npix × n` bytes. -/
theorem pixel_lt {p npix n c : Nat} (hp : p < npix) (hc : c < n) : p * n + c < npix * n := by
  calc p * n + c < p * n + n := by omega
    _ = (p + 1) * n := by ring
    _ ≤ npix * n := Nat.mul_le_mul_right n hp

/-- Every effect leaves the bytes outside its destination set alone (R70). -/
theorem read_effectOf_other (i : Instr) (s : State) (a : Nat) (h : ¬ stores i s a) :
    (effectOf i s).mem.read a = s.mem.read a := by
  have plane : ∀ f : Nat → Byte, ¬ (∃ d, some 1 = some d ∧ s.dst.toNat ≤ a ∧ a < s.dst.toNat + s.npix * d) →
      (s.storeRun s.dst.toNat 1 f s.npix).read a = s.mem.read a := by
    intro f hf
    refine read_storeRun_other s _ _ f _ a fun j hj e => hf ⟨1, rfl, ?_, ?_⟩ <;> omega
  have image : ∀ (n : Nat) (f : Nat → Byte),
      ¬ (∃ d, some n = some d ∧ s.dst.toNat ≤ a ∧ a < s.dst.toNat + s.npix * d) →
      (s.storeRun s.dst.toNat 1 f (s.npix * n)).read a = s.mem.read a := by
    intro n f hf
    refine read_storeRun_other s _ _ f _ a fun j hj e => hf ⟨n, rfl, ?_, ?_⟩ <;> omega
  cases i with
  | nop => rfl
  | avg => rfl
  | hist => rw [effectOf, countImage_eq]; rfl
  | eqmap => rfl
  | luma fmt => exact plane _ h
  | xch fmt k => exact plane _ h
  | bin fmt => exact plane _ h
  | binA fmt => exact plane _ h
  | eqapp fmt => exact plane _ h
  | ich fmt k =>
    refine read_storeRun_other s _ _ _ _ a fun j hj e => h ⟨j, hj, ?_⟩
    omega
  | cvtRgb fmt => exact image _ _ h
  | cvtHsv fmt => exact image _ _ h
  | cvtHsl fmt => exact image _ _ h
  | cvtHsi fmt => exact image _ _ h
  | cvtYuv fmt => exact image _ _ h
  | invRgb fmt => exact image _ _ h
  | invHsv fmt => exact image _ _ h
  | invHsl fmt => exact image _ _ h
  | invHsi fmt => exact image _ _ h
  | invYuv fmt => exact image _ _ h

/-- A region that passes the range check lies inside image memory (R68). -/
theorem inside_of_not_pastTop {base len j : Nat} (h : ¬ pastTop base len) (hj : j < len) :
    base + j < Config.addressSpace := by
  have : ¬ (0 < len ∧ 4294967296 < base + len) := by simpa [pastTop] using h
  unfold Config.addressSpace
  omega

/-- The destination region of a ready command lies inside image memory. -/
theorem dest_inside {i : Instr} {s : State} (hr : Ready i s) {d j : Nat} (hd : i.destChannels = some d)
    (hj : j < s.npix * d) : s.dst.toNat + j < Config.addressSpace :=
  inside_of_not_pastTop (fun h => hr.inRange (Or.inr ⟨d, hd, h⟩)) hj

/-- `ICH` inserts into a channel the image has (R97). -/
theorem ich_channel {fmt : Fmt} {k : BitVec 4} (h : (Instr.ich fmt k).wellFormed = true) :
    k.toNat < fmt.channels := by
  cases fmt <;> simp [Instr.wellFormed, Instr.fmtLegal, Instr.argLegal, Fmt.colour, Fmt.channels] at * <;>
    omega

/-- Every effect of a ready command keeps the canonical form of image memory. -/
theorem effectOf_wf {i : Instr} {s : State} (hr : Ready i s) (hw : s.mem.wf) : (effectOf i s).mem.wf := by
  have plane : ∀ f : Nat → Byte, i.destChannels = some 1 → (s.storeRun s.dst.toNat 1 f s.npix).wf :=
    fun f hd => storeRun_wf _ _ _ _ hw fun j hj => by
      simpa using dest_inside hr hd (j := j) (by omega)
  have image : ∀ (n : Nat) (f : Nat → Byte), i.destChannels = some n →
      (s.storeRun s.dst.toNat 1 f (s.npix * n)).wf :=
    fun n f hd => storeRun_wf _ _ _ _ hw fun j hj => by
      simpa using dest_inside hr hd (j := j) hj
  cases i with
  | nop => exact hw
  | avg => exact hw
  | hist => rw [effectOf, countImage_eq]; exact hw
  | eqmap => exact hw
  | luma fmt => exact plane _ rfl
  | xch fmt k => exact plane _ rfl
  | bin fmt => exact plane _ rfl
  | binA fmt => exact plane _ rfl
  | eqapp fmt => exact plane _ rfl
  | ich fmt k =>
    refine storeRun_wf _ _ _ _ hw fun j hj => ?_
    have := dest_inside hr (d := fmt.channels) rfl (pixel_lt hj (ich_channel hr.wellFormed))
    omega
  | cvtRgb fmt => exact image _ _ rfl
  | cvtHsv fmt => exact image _ _ rfl
  | cvtHsl fmt => exact image _ _ rfl
  | cvtHsi fmt => exact image _ _ rfl
  | cvtYuv fmt => exact image _ _ rfl
  | invRgb fmt => exact image _ _ rfl
  | invHsv fmt => exact image _ _ rfl
  | invHsl fmt => exact image _ _ rfl
  | invHsi fmt => exact image _ _ rfl
  | invYuv fmt => exact image _ _ rfl

/-- Running a command keeps the canonical form of image memory. -/
theorem runCommand_wf {s t : State} (hw : s.mem.wf) (h : runCommand s = .next t) : t.mem.wf := by
  rcases runCommand_cases s with ⟨c, _, he⟩ | ⟨i, _, hr, he⟩
  · rw [he] at h; cases h; exact hw
  · rw [he] at h; cases h; exact effectOf_wf hr hw

/-- The outcome of a running command that is not taken yet keeps it too. -/
theorem memWhenDone_wf {s : State} (hw : s.mem.wf) : s.memWhenDone.wf := by
  cases hb : s.busy with
  | false => simpa [State.memWhenDone, hb] using hw
  | true =>
    rcases runCommand_cases s with ⟨c, _, he⟩ | ⟨i, _, hr, he⟩
    · simpa [State.memWhenDone, hb, he] using hw
    · simpa [State.memWhenDone, hb, he] using effectOf_wf hr hw

/-- And so does abandoning it. -/
theorem memAbandoned_wf {s : State} (hw : s.mem.wf) : s.memAbandoned.wf := by
  unfold State.memAbandoned
  split
  · exact Memory.mix_wf hw (memWhenDone_wf hw)
  · exact hw

/-! ## Sizes -/

theorem width_lt (s : State) : s.width < 65536 := (s.dim.extractLsb' 0 16).isLt

theorem height_lt (s : State) : s.height < 65536 := (s.dim.extractLsb' 16 16).isLt

/-- "The pixel count is at most 65535 × 65535, which is less than 2^32" (R7). -/
theorem npix_lt (s : State) : s.npix < 2 ^ 32 := by
  have h1 : s.width ≤ 65535 := Nat.le_of_lt_succ (width_lt s)
  have h2 : s.height ≤ 65535 := Nat.le_of_lt_succ (height_lt s)
  have : s.npix ≤ 65535 * 65535 := Nat.mul_le_mul h1 h2
  omega

/-- The sum of grey levels is below 2^40 (R7, R183). -/
theorem sumRun_npix_lt (f : Nat → Byte) (s : State) : sumRun f s.npix < 2 ^ 40 := by
  have := sumRun_le f s.npix
  have := npix_lt s
  omega

end Sys2Proof.Machine
end

