-- ==== Sys2Proof/Laws/Effects.lean ====
section
/-! SUPPORT. What the effects compute where the host has kept off the command's regions (`20_memory.md` R66, R67): the
engine reads the bytes of its source image, and each byte of a destination image is the one the command's
rule gives. -/

namespace Sys2Proof.Machine

/-- A ready command completes; what is left to show is its own frame and its result. -/
theorem completes_of_ready {i : Instr} {s : State} (hr : Ready i s) (frame result : State → Prop)
    (hf : frame (effectOf i s).complete) (hres : HostKeptOff i s → result (effectOf i s).complete) :
    Completes i s frame result :=
  ⟨_, exec_of_ready hr, completed_effect i s, hf, fun a ha => read_effectOf_other i s a ha, hres⟩

/-- No command is both ready and about to fault. -/
theorem not_ready_of_takesFault {i : Instr} {s : State} {c : ErrorCode} (h : TakesFault i s c) :
    ¬ Ready i s := by
  intro hr
  have := firstFailing_of_takesFault h
  rw [(firstFailing_table_none i s).2 hr] at this
  cases this

/-! ## What a command reads -/

/-- An instruction that reads or writes an image sees the same number of pixels (R104). -/
theorem npix_of_sameInputs {i : Instr} {s u : State} (h : SameInputs i s u)
    (hn : i.sourceChannels ≠ none) : u.npix = s.npix := by
  simp only [State.npix, State.width, State.height, (h.1 hn).2]

/-- Whether a command is ready depends only on what it reads (R104, R256). -/
theorem ready_of_sameInputs {i : Instr} {s u : State} (hr : Ready i s) (h : SameInputs i s u) :
    Ready i u := by
  have hpix := npix_of_sameInputs h
  obtain ⟨hsrc, hdst, hlev, hbank, hmap, -⟩ := h
  have hboth : i.destChannels ≠ none → i.sourceChannels ≠ none := by
    cases i <;> simp [Instr.destChannels, Instr.sourceChannels]
  refine ⟨hr.wellFormed, fun hl => hlev hl ▸ hr.level hl, fun hp => ?_, ?_, ?_, ?_, ?_⟩
  · rw [hpix (by cases i <;> simp_all [Instr.needsPixels, Instr.sourceChannels])]
    exact hr.pixels hp
  · have hb := hr.bank
    cases i
    case eqmap fmt b =>
      simp only [bankMissing] at hb ⊢
      rw [(hbank fmt b rfl).2]
      exact hb
    all_goals rfl
  · have hm := hr.map
    cases i
    case eqapp fmt =>
      simp only [mapMissing] at hm ⊢
      rw [(hmap fmt rfl).2]
      exact hm
    all_goals rfl
  · rintro (⟨n, hn, hp⟩ | ⟨d, hd, hp⟩)
    · have hne : i.sourceChannels ≠ none := by simp [hn]
      rw [(hsrc hne).1, hpix hne] at hp
      exact hr.inRange (Or.inl ⟨n, hn, hp⟩)
    · have hne : i.destChannels ≠ none := by simp [hd]
      rw [hdst hne, hpix (hboth hne)] at hp
      exact hr.inRange (Or.inr ⟨d, hd, hp⟩)
  · rintro ⟨n, d, hn, hd, hp⟩
    have hne : i.sourceChannels ≠ none := by simp [hn]
    rw [(hsrc hne).1, hdst (by simp [hd]), hpix hne] at hp
    exact hr.disjoint ⟨n, d, hn, hd, hp⟩

/-! ## Reading the source image -/

/-- A byte of the source image is the one in memory. -/
theorem sourceChannel_of_quiet {i : Instr} {s : State} (hq : HostKeptOff i s) {n : Nat}
    (hn : i.sourceChannels = some n) (r : Nat) {p c : Nat} (hp : p < s.npix) (hc : c < n) :
    s.sourceChannel r n p c = pixelByte s.mem s.src.toNat n p c := by
  have hlt := pixel_lt hp hc
  refine sourceByte_of_quiet (replaced_eq_nil fun d hd e => (hq d hd).1 ⟨n, hn, ?_, ?_⟩) r <;>
    rw [e] <;> omega

/-- A pixel of a source image with colour is the one in memory. -/
theorem sourcePixel_of_quiet {i : Instr} {s : State} (hq : HostKeptOff i s) {n : Nat}
    (hn : i.sourceChannels = some n) (h3 : 3 ≤ n) (r : Nat) {p : Nat} (hp : p < s.npix) :
    s.sourcePixel r n p = pixelAt s.mem s.src.toNat n p := by
  simp only [State.sourcePixel, pixelAt]
  rw [sourceChannel_of_quiet hq hn r hp (c := 0) (by omega),
    sourceChannel_of_quiet hq hn r hp (c := 1) (by omega),
    sourceChannel_of_quiet hq hn r hp (c := 2) (by omega)]

/-- A grey sample is the one in memory. -/
theorem graySample_of_quiet {i : Instr} {s : State} (hq : HostKeptOff i s)
    (hn : i.sourceChannels = some 1) (r : Nat) {p : Nat} (hp : p < s.npix) :
    s.graySample r p = s.mem.read (s.src.toNat + p) := by
  simpa [State.graySample, pixelByte] using sourceChannel_of_quiet hq hn r hp Nat.one_pos

theorem graySum_of_quiet {i : Instr} {s : State} (hq : HostKeptOff i s)
    (hn : i.sourceChannels = some 1) :
    s.graySum = ∑ p ∈ Finset.range s.npix, (s.mem.read (s.src.toNat + p)).toNat := by
  rw [State.graySum, sumRun_eq_sum]
  exact Finset.sum_congr rfl fun p hp => by rw [graySample_of_quiet hq hn _ (Finset.mem_range.1 hp)]

/-! ## Writing a destination image -/

/-- An address of the destination set was not written by the host. -/
theorem replaced_of_stores {i : Instr} {s : State} (hq : HostKeptOff i s) {a : Nat}
    (ha : stores i s a) : s.replaced a = [] :=
  replaced_eq_nil fun c hc e => (hq c hc).2 (e ▸ ha)

/-- But for `ICH`, which writes one channel, every byte of the destination region is in the destination set
(R67). -/
theorem stores_of_dest {i : Instr} {s : State} {d j : Nat} (hd : i.destChannels = some d)
    (hi : ∀ fmt k, i ≠ .ich fmt k) (hj : j < s.npix * d) : stores i s (s.dst.toNat + j) := by
  cases i <;> first | exact absurd rfl (hi _ _) | exact ⟨d, hd, by omega, by omega⟩

/-- Sample `p` of a destination plane is the value stored there. -/
theorem read_plane {i : Instr} {s : State} (hq : HostKeptOff i s)
    (hs : ∀ j, j < s.npix → stores i s (s.dst.toNat + j)) (f : Nat → Byte) {p : Nat} (hp : p < s.npix) :
    (s.storeRun s.dst.toNat 1 f s.npix).read (s.dst.toNat + p) = f p := by
  simpa using read_storeRun s.dst.toNat 1 Nat.one_pos f s.npix
    (fun j hj => replaced_of_stores hq (by simpa using hs j hj)) p hp

/-- Byte `c` of pixel `p` of a destination image of `n` channels is the value stored there. -/
theorem read_image {i : Instr} {s : State} (hq : HostKeptOff i s) {n : Nat}
    (hs : ∀ j, j < s.npix * n → stores i s (s.dst.toNat + j)) (f : Nat → Byte) {p c : Nat}
    (hp : p < s.npix) (hc : c < n) :
    pixelByte (s.storeRun s.dst.toNat 1 f (s.npix * n)) s.dst.toNat n p c = f (p * n + c) := by
  have := read_storeRun s.dst.toNat 1 Nat.one_pos f (s.npix * n)
    (fun j hj => replaced_of_stores hq (by simpa using hs j hj)) (p * n + c) (pixel_lt hp hc)
  simpa [pixelByte, Nat.add_assoc] using this

/-- The pixel and the channel of a byte of an image. -/
theorem pixel_div_mod {n c : Nat} (p : Nat) (hc : c < n) :
    (p * n + c) / n = p ∧ (p * n + c) % n = c := by
  constructor
  · rw [Nat.mul_comm, Nat.mul_add_div (by omega), Nat.div_eq_of_lt hc, Nat.add_zero]
  · rw [Nat.mul_comm, Nat.mul_add_mod, Nat.mod_eq_of_lt hc]

/-- The formats with colour have three or four channels (R95). -/
theorem channels_of_colour {fmt : Fmt} (h : fmt.colour = true) :
    fmt.channels = 3 ∨ fmt.channels = 4 := by
  cases fmt <;> simp_all [Fmt.colour, Fmt.channels]

/-! ## The average -/

/-- A grey sum is at most 255 for each pixel, so its mean is a byte (R183). -/
theorem graySum_div_lt (s : State) (hp : s.npix ≠ 0) : s.graySum / s.npix < 256 := by
  have : s.graySum ≤ 255 * s.npix := sumRun_le _ _
  rw [Nat.div_lt_iff_lt_mul (by omega)]
  omega

/-- `SUMHI` and `SUMLO` together hold a sum below 2^64 (R27). -/
theorem withAverage_sum (s : State) {sum : Nat} (n : Nat) (h : sum < 2 ^ 64) :
    (s.withAverage sum n).sumHi.toNat * 2 ^ 32 + (s.withAverage sum n).sumLo.toNat = sum := by
  simp only [State.withAverage, BitVec.toNat_ofNat]
  omega

/-! ## The histogram -/

/-- Four banks are the same when each of them is. -/
theorem four_banks {a b c d a' b' c' d' : Bank} (ha : a = a') (hb : b = b') (hc : c = c') (hd : d = d') :
    (#v[a, b, c, d] : Vector Bank 4) = #v[a', b', c', d'] := by
  rw [ha, hb, hc, hd]

/-- The banks a grey image leaves, from the bytes in memory. -/
theorem grayBanks_of_quiet {i : Instr} {s : State} (hq : HostKeptOff i s)
    (hn : i.sourceChannels = some 1) :
    s.grayBanks =
      #v[countRun (fun p => s.mem.read (s.src.toNat + p)) s.npix, emptyBank, emptyBank,
        countRun (fun p => s.mem.read (s.src.toNat + p)) s.npix] := by
  have e (r : Nat) : countRun (s.graySample r) s.npix =
      countRun (fun p => s.mem.read (s.src.toNat + p)) s.npix :=
    Bank.countRun_congr fun p hp => graySample_of_quiet hq hn r hp
  exact four_banks (e 0) rfl rfl (e 3)

/-- The banks a colour image leaves, from the bytes in memory. -/
theorem colourBanks_of_quiet {i : Instr} {s : State} (hq : HostKeptOff i s) {n : Nat}
    (hn : i.sourceChannels = some n) (h3 : 3 ≤ n) :
    s.colourBanks n =
      #v[countRun (fun p => pixelByte s.mem s.src.toNat n p 0) s.npix,
        countRun (fun p => pixelByte s.mem s.src.toNat n p 1) s.npix,
        countRun (fun p => pixelByte s.mem s.src.toNat n p 2) s.npix,
        countRun (fun p => luma8 (pixelAt s.mem s.src.toNat n p)) s.npix] := by
  have e (r c : Nat) (hc : c < n) : countRun (fun p => s.sourceChannel r n p c) s.npix =
      countRun (fun p => pixelByte s.mem s.src.toNat n p c) s.npix :=
    Bank.countRun_congr fun p hp => sourceChannel_of_quiet hq hn r hp hc
  have l : countRun (fun p => luma8 (s.sourcePixel 3 n p)) s.npix =
      countRun (fun p => luma8 (pixelAt s.mem s.src.toNat n p)) s.npix :=
    Bank.countRun_congr fun p hp => by rw [sourcePixel_of_quiet hq hn h3 3 hp]
  exact four_banks (e 0 0 (by omega)) (e 1 1 (by omega)) (e 2 2 (by omega)) l

/-- The banks `HIST` leaves (R210). -/
theorem complete_countImage_hist (fmt : Fmt) (s : State) :
    (effectOf (.hist fmt) s).complete.hist =
      if fmt = .gray then s.grayBanks else s.colourBanks fmt.channels := by
  rw [effectOf, countImage_eq, State.complete_hist, State.withHistogram_hist]

/-- The banks `HIST` makes valid (R210). -/
theorem complete_countImage_hv (fmt : Fmt) (s : State) :
    (effectOf (.hist fmt) s).complete.hv = if fmt = .gray then 0b1001#4 else 0b1111#4 := by
  rw [effectOf, countImage_eq, State.complete_hv, State.withHistogram_hv]

/-- Each bank a count makes valid holds the count of one value for each pixel (R210, R211). -/
theorem total_countImage (fmt : Fmt) (s : State) {b : Nat} (hb : b < 4)
    (hv : (s.countImage fmt).hv.getLsbD b = true) : ((s.countImage fmt).bank b).total = s.npix := by
  have hn := npix_lt s
  rw [countImage_eq] at hv ⊢
  unfold State.bank
  simp only [State.withHistogram] at hv ⊢
  by_cases hf : fmt = .gray
  · simp only [hf, if_true] at hv ⊢
    interval_cases b
    · exact Bank.total_countRun _ _ hn
    · simp at hv
    · simp at hv
    · exact Bank.total_countRun _ _ hn
  · simp only [hf, if_false] at hv ⊢
    interval_cases b <;> exact Bank.total_countRun _ _ hn

end Sys2Proof.Machine
end

