-- ==== Sys2Proof/Laws/PerInstr.lean ====
section
/-! SUPPORT. Facts about every instruction as syntax, one lemma for each constructor: the fields of the
encoded word are the instruction's (`30_encoding.md` R90, R93). -/

namespace Sys2Proof.Laws

/-- A word put together from its fields gives them back. -/
theorem fields_of_word (f : BitVec 2) (a : BitVec 4) (o : BitVec 8) :
    rsvField (BitVec.ofNat 32 (f.toNat * 4096 + a.toNat * 256 + o.toNat)) = 0#18 ∧
      fmtField (BitVec.ofNat 32 (f.toNat * 4096 + a.toNat * 256 + o.toNat)) = f ∧
      argField (BitVec.ofNat 32 (f.toNat * 4096 + a.toNat * 256 + o.toNat)) = a ∧
      opcField (BitVec.ofNat 32 (f.toNat * 4096 + a.toNat * 256 + o.toNat)) = o := by
  have hf := f.isLt
  have ha := a.isLt
  have ho := o.isLt
  refine ⟨?_, ?_, ?_, ?_⟩ <;> apply BitVec.eq_of_toNat_eq <;>
    simp only [rsvField, fmtField, argField, opcField, BitVec.extractLsb'_toNat, BitVec.toNat_ofNat,
      Nat.shiftRight_eq_div_pow] <;>
    omega

namespace EncodedFields

/-- The encoded word has `RSV = 0` and the instruction's `FMT`, `ARG` and `OPC` (R90). -/
def Statement (i : Instr) : Prop :=
  rsvField (encode i) = 0#18 ∧ fmtField (encode i) = i.fmt.code ∧ argField (encode i) = i.arg ∧
    opcField (encode i) = i.opc

theorem nop (fmt : Fmt) : Statement (.nop fmt) := fields_of_word _ _ _

theorem cvtRgb (fmt : Fmt) : Statement (.cvtRgb fmt) := fields_of_word _ _ _

theorem cvtHsv (fmt : Fmt) : Statement (.cvtHsv fmt) := fields_of_word _ _ _

theorem cvtHsl (fmt : Fmt) : Statement (.cvtHsl fmt) := fields_of_word _ _ _

theorem cvtHsi (fmt : Fmt) : Statement (.cvtHsi fmt) := fields_of_word _ _ _

theorem cvtYuv (fmt : Fmt) : Statement (.cvtYuv fmt) := fields_of_word _ _ _

theorem invRgb (fmt : Fmt) : Statement (.invRgb fmt) := fields_of_word _ _ _

theorem invHsv (fmt : Fmt) : Statement (.invHsv fmt) := fields_of_word _ _ _

theorem invHsl (fmt : Fmt) : Statement (.invHsl fmt) := fields_of_word _ _ _

theorem invHsi (fmt : Fmt) : Statement (.invHsi fmt) := fields_of_word _ _ _

theorem invYuv (fmt : Fmt) : Statement (.invYuv fmt) := fields_of_word _ _ _

theorem luma (fmt : Fmt) : Statement (.luma fmt) := fields_of_word _ _ _

theorem avg (fmt : Fmt) : Statement (.avg fmt) := fields_of_word _ _ _

theorem xch (fmt : Fmt) (k : BitVec 4) : Statement (.xch fmt k) := fields_of_word _ _ _

theorem ich (fmt : Fmt) (k : BitVec 4) : Statement (.ich fmt k) := fields_of_word _ _ _

theorem bin (fmt : Fmt) : Statement (.bin fmt) := fields_of_word _ _ _

theorem binA (fmt : Fmt) : Statement (.binA fmt) := fields_of_word _ _ _

theorem hist (fmt : Fmt) : Statement (.hist fmt) := fields_of_word _ _ _

theorem eqmap (fmt : Fmt) (b : BitVec 4) : Statement (.eqmap fmt b) := fields_of_word _ _ _

theorem eqapp (fmt : Fmt) : Statement (.eqapp fmt) := fields_of_word _ _ _

end EncodedFields

end Sys2Proof.Laws
end

