-- ==== Sys2Proof/Laws/Encoding.lean ====
section
/-! SUPPORT. Words by their fields (`30_encoding.md` R90): a word is determined by its four fields, the fields
as numbers, and the fields of a masked word. -/

namespace Sys2Proof

@[simp] theorem fmtOfCode_code (f : Fmt) : fmtOfCode f.code = f := by cases f <;> rfl

theorem code_fmtOfCode (c : BitVec 2) : (fmtOfCode c).code = c := by
  revert c
  decide

/-- A word has no bit outside its four fields. -/
theorem word_eq_of_fields {w v : Word} (h1 : rsvField w = rsvField v) (h2 : fmtField w = fmtField v)
    (h3 : argField w = argField v) (h4 : opcField w = opcField v) : w = v := by
  have a1 := congrArg BitVec.toNat h1
  have a2 := congrArg BitVec.toNat h2
  have a3 := congrArg BitVec.toNat h3
  have a4 := congrArg BitVec.toNat h4
  apply BitVec.eq_of_toNat_eq
  simp only [rsvField, fmtField, argField, opcField, BitVec.extractLsb'_toNat,
    Nat.shiftRight_eq_div_pow] at a1 a2 a3 a4
  have := w.isLt
  have := v.isLt
  omega

/-- The fields of a word as numbers (R103). -/
theorem toNat_fields (w : Word) :
    (rsvField w).toNat = w.toNat / 16384 ∧ (fmtField w).toNat = w.toNat / 4096 % 4 ∧
      (argField w).toNat = w.toNat / 256 % 16 ∧ (opcField w).toNat = w.toNat % 256 := by
  have := w.isLt
  simp only [rsvField, fmtField, argField, opcField, BitVec.extractLsb'_toNat,
    Nat.shiftRight_eq_div_pow]
  norm_num
  omega

/-- The fields of a masked word. -/
theorem fields_and (w m : Word) :
    rsvField (w &&& m) = rsvField w &&& rsvField m ∧ fmtField (w &&& m) = fmtField w &&& fmtField m ∧
      argField (w &&& m) = argField w &&& argField m ∧ opcField (w &&& m) = opcField w &&& opcField m :=
  ⟨BitVec.extractLsb'_and, BitVec.extractLsb'_and, BitVec.extractLsb'_and, BitVec.extractLsb'_and⟩

end Sys2Proof
end

