-- ==== Sys2Proof/Laws/HsiTables.lean ====
section
/-! SUPPORT. The two constant tables of HSI are what R131 and R160 define: every `Wt[j]` is the floor, every
`Rq[j]` the rounded value, of the cosine expression the rule gives. The cosines of the multiples of one 510th
of a full turn are approximated by turning a point round the unit circle in integers of 20 decimal places; each
turn adds an error of at most 8 units, and the tables' distances to the next integer are larger. -/

namespace Sys2Proof.Machine

namespace HsiCircle

/-- The cosine of one 510th of a turn, in units of `10^-20`. -/
def alphaCos : ℤ := 99992411011483056875

/-- Its sine. -/
def alphaSin : ℤ := 1231965953523844208

/-- The unit. -/
def scale : ℤ := 10 ^ 20

/-- A point turned by one 510th of a turn, rounded down. -/
def turnBy (p : ℤ × ℤ) : ℤ × ℤ :=
  ((alphaCos * p.1 - alphaSin * p.2) / scale, (alphaCos * p.2 + alphaSin * p.1) / scale)

/-- The point after `n` turns. -/
def approx : ℕ → ℤ × ℤ
  | 0 => (scale, 0)
  | n + 1 => turnBy (approx n)

/-- The point as a complex number. -/
noncomputable def asComplex (p : ℤ × ℤ) : ℂ := ((p.1 : ℂ) + (p.2 : ℂ) * Complex.I) / 10 ^ 20

/-- A rational number near one 510th of a turn in radians. -/
def angle : ℚ := 314159265358979323846 / (255 * 10 ^ 20)

/-- The rational angle is near enough. -/
theorem exp_angle_error : ‖Complex.exp ((Real.pi / 255 : ℝ) * Complex.I) -
    Complex.exp (((angle : ℚ) : ℝ) * Complex.I)‖ ≤ 1 / 10 ^ 21 := by
  have e : Complex.exp ((Real.pi / 255 : ℝ) * Complex.I) - Complex.exp (((angle : ℚ) : ℝ) * Complex.I) =
      Complex.exp (((angle : ℚ) : ℝ) * Complex.I) *
        (Complex.exp (Complex.I * ((Real.pi / 255 - ((angle : ℚ) : ℝ) : ℝ))) - 1) := by
    rw [mul_sub, ← Complex.exp_add, mul_one]
    congr 2
    push_cast
    ring
  rw [e, norm_mul, Complex.norm_exp_ofReal_mul_I, one_mul]
  refine Real.norm_exp_I_mul_ofReal_sub_one_le.trans ?_
  have := Real.pi_gt_d20
  have := Real.pi_lt_d20
  rw [Real.norm_eq_abs, abs_le]
  constructor <;> norm_num [angle] at * <;> linarith

/-- Ten terms of the exponential series are enough. -/
theorem series_error : ‖Complex.exp (((angle : ℚ) : ℝ) * Complex.I) -
    ∑ m ∈ Finset.range 10, (((angle : ℚ) : ℝ) * Complex.I) ^ m / (m.factorial : ℂ)‖ ≤ 1 / 10 ^ 21 := by
  have hn : ‖(((angle : ℚ) : ℝ) : ℂ) * Complex.I‖ = ((angle : ℚ) : ℝ) := by
    rw [norm_mul, Complex.norm_I, mul_one, Complex.norm_real, Real.norm_eq_abs,
      abs_of_pos (by norm_num [angle])]
  refine (Complex.exp_bound (by rw [hn]; norm_num [angle]) (n := 10) (by norm_num)).trans ?_
  rw [hn]
  norm_num [Nat.factorial, angle]

/-- The ten terms are the point after one turn. -/
theorem sum_error : ‖∑ m ∈ Finset.range 10, (((angle : ℚ) : ℝ) * Complex.I) ^ m / (m.factorial : ℂ) -
    asComplex (alphaCos, alphaSin)‖ ≤ 2 / 10 ^ 20 := by
  unfold asComplex alphaCos alphaSin
  have ha : ((angle : ℚ) : ℝ) = 314159265358979323846 / (255 * 10 ^ 20) := by norm_num [angle]
  rw [ha]
  set x : ℝ := 314159265358979323846 / (255 * 10 ^ 20) with hx
  have e : ∑ m ∈ Finset.range 10, ((x : ℝ) * Complex.I) ^ m / (m.factorial : ℂ) -
      (((99992411011483056875 : ℤ) : ℂ) + ((1231965953523844208 : ℤ) : ℂ) * Complex.I) / 10 ^ 20 =
      ((1 - x ^ 2 / 2 + x ^ 4 / 24 - x ^ 6 / 720 + x ^ 8 / 40320 -
        99992411011483056875 / 10 ^ 20 : ℝ) : ℂ) +
      ((x - x ^ 3 / 6 + x ^ 5 / 120 - x ^ 7 / 5040 + x ^ 9 / 362880 -
        1231965953523844208 / 10 ^ 20 : ℝ) : ℂ) * Complex.I := by
    have i2 : Complex.I ^ 2 = -1 := Complex.I_sq
    have i3 : Complex.I ^ 3 = -Complex.I := Complex.I_pow_three
    have i4 : Complex.I ^ 4 = 1 := Complex.I_pow_four
    have i5 : Complex.I ^ 5 = Complex.I := by rw [pow_succ, i4, one_mul]
    have i6 : Complex.I ^ 6 = -1 := by rw [show 6 = 4 + 2 from rfl, pow_add, i4, i2, one_mul]
    have i7 : Complex.I ^ 7 = -Complex.I := by rw [show 7 = 4 + 3 from rfl, pow_add, i4, i3, one_mul]
    have i8 : Complex.I ^ 8 = 1 := by rw [show 8 = 4 + 4 from rfl, pow_add, i4, one_mul]
    have i9 : Complex.I ^ 9 = Complex.I := by rw [pow_succ, i8, one_mul]
    simp only [Finset.sum_range_succ, Finset.sum_range_zero, mul_pow, i2, i3, i4, i5, i6, i7, i8, i9,
      Nat.factorial]
    push_cast
    ring
  rw [e]
  refine (norm_add_le _ _).trans ?_
  rw [norm_mul, Complex.norm_I, mul_one, Complex.norm_real, Complex.norm_real, Real.norm_eq_abs,
    Real.norm_eq_abs]
  have hc : |1 - x ^ 2 / 2 + x ^ 4 / 24 - x ^ 6 / 720 + x ^ 8 / 40320 -
      99992411011483056875 / 10 ^ 20| ≤ 1 / 10 ^ 20 := by
    rw [hx, abs_le]
    constructor <;> norm_num
  have hs : |x - x ^ 3 / 6 + x ^ 5 / 120 - x ^ 7 / 5040 + x ^ 9 / 362880 -
      1231965953523844208 / 10 ^ 20| ≤ 1 / 10 ^ 20 := by
    rw [hx, abs_le]
    constructor <;> norm_num
  linarith

/-- One turn is approximated to within 3 units. -/
theorem step_error : ‖Complex.exp ((Real.pi / 255 : ℝ) * Complex.I) -
    asComplex (alphaCos, alphaSin)‖ ≤ 3 / 10 ^ 20 := by
  have h1 := exp_angle_error
  have h2 := series_error
  have h3 := sum_error
  have h4 := norm_sub_le_norm_sub_add_norm_sub (Complex.exp ((Real.pi / 255 : ℝ) * Complex.I))
    (Complex.exp (((angle : ℚ) : ℝ) * Complex.I)) (asComplex (alphaCos, alphaSin))
  have h5 := norm_sub_le_norm_sub_add_norm_sub (Complex.exp (((angle : ℚ) : ℝ) * Complex.I))
    (∑ m ∈ Finset.range 10, (((angle : ℚ) : ℝ) * Complex.I) ^ m / (m.factorial : ℂ))
    (asComplex (alphaCos, alphaSin))
  linarith

/-- Rounding down loses less than one unit. -/
theorem floor_div (a : ℤ) : |(((a / scale : ℤ)) : ℝ) - (a : ℝ) / 10 ^ 20| ≤ 1 := by
  have h := Int.emod_add_mul_ediv a scale
  have h1 := Int.emod_nonneg a (b := scale) (by decide)
  have h2 := Int.emod_lt_of_pos a (b := scale) (by decide)
  have h' : ((a % scale : ℤ) : ℝ) + 10 ^ 20 * ((a / scale : ℤ) : ℝ) = a := by
    have := congrArg (Int.cast (R := ℝ)) h
    push_cast [scale] at this ⊢
    linarith
  have h1' : (0 : ℝ) ≤ ((a % scale : ℤ) : ℝ) := by exact_mod_cast h1
  have h2' : ((a % scale : ℤ) : ℝ) < 10 ^ 20 := by
    have : ((a % scale : ℤ) : ℝ) < ((scale : ℤ) : ℝ) := by exact_mod_cast h2
    norm_num [scale] at this ⊢; exact this
  rw [abs_le]
  constructor <;> rw [← h'] <;> linarith

/-- The real and the imaginary part of a point. -/
theorem asComplex_eq (p : ℤ × ℤ) :
    asComplex p = ((p.1 / 10 ^ 20 : ℝ) : ℂ) + ((p.2 / 10 ^ 20 : ℝ) : ℂ) * Complex.I := by
  simp only [asComplex]
  push_cast
  ring

/-- Rounding a turned point moves it by at most 2 units. -/
theorem turn_error (p : ℤ × ℤ) :
    ‖asComplex (alphaCos, alphaSin) * asComplex p - asComplex (turnBy p)‖ ≤ 2 / 10 ^ 20 := by
  have h1 := floor_div (alphaCos * p.1 - alphaSin * p.2)
  have h2 := floor_div (alphaCos * p.2 + alphaSin * p.1)
  have e : asComplex (alphaCos, alphaSin) * asComplex p - asComplex (turnBy p) =
      (((((alphaCos * p.1 - alphaSin * p.2 : ℤ) : ℝ) / 10 ^ 20 - ((turnBy p).1 : ℝ)) / 10 ^ 20 : ℝ) : ℂ) +
      (((((alphaCos * p.2 + alphaSin * p.1 : ℤ) : ℝ) / 10 ^ 20 - ((turnBy p).2 : ℝ)) / 10 ^ 20 : ℝ) : ℂ) *
        Complex.I := by
    simp only [asComplex]
    push_cast
    linear_combination ((alphaSin : ℂ) * p.2 / 10 ^ 40) * Complex.I_sq
  change |((turnBy p).1 : ℝ) - _| ≤ 1 at h1
  change |((turnBy p).2 : ℝ) - _| ≤ 1 at h2
  rw [abs_sub_comm] at h1 h2
  rw [e]
  refine (norm_add_le _ _).trans ?_
  rw [norm_mul, Complex.norm_I, mul_one, Complex.norm_real, Complex.norm_real, Real.norm_eq_abs,
    Real.norm_eq_abs, abs_div, abs_div, abs_of_pos (show (0 : ℝ) < 10 ^ 20 by norm_num), ← add_div]
  gcongr
  linarith

/-- After `n` turns the error is at most `8 n` units. -/
theorem approx_error (n : ℕ) (hn : n ≤ 255) :
    ‖Complex.exp ((Real.pi / 255 : ℝ) * Complex.I) ^ n - asComplex (approx n)‖ ≤ 8 * n / 10 ^ 20 := by
  induction n with
  | zero => norm_num [approx, asComplex, scale]
  | succ n ih =>
    have ih := ih (by omega)
    set z := Complex.exp ((Real.pi / 255 : ℝ) * Complex.I) with hz
    have hz1 : ‖z‖ = 1 := Complex.norm_exp_ofReal_mul_I _
    have hw : ‖asComplex (approx n)‖ ≤ 2 := by
      have h1 : ‖asComplex (approx n)‖ ≤ ‖z ^ n‖ + ‖z ^ n - asComplex (approx n)‖ := by
        have := norm_sub_norm_le (asComplex (approx n)) (z ^ n)
        rw [norm_sub_rev] at this; linarith
      have h2 : (8 * (n : ℝ) / 10 ^ 20) ≤ 1 := by
        have : (n : ℝ) ≤ 255 := by exact_mod_cast (by omega : n ≤ 255)
        rw [div_le_one (by norm_num)]; norm_num; linarith
      rw [norm_pow, hz1, one_pow] at h1
      linarith
    have e : z ^ (n + 1) - asComplex (approx (n + 1)) =
        z * (z ^ n - asComplex (approx n)) + (z - asComplex (alphaCos, alphaSin)) * asComplex (approx n)
          + (asComplex (alphaCos, alphaSin) * asComplex (approx n) - asComplex (turnBy (approx n))) := by
      simp only [approx]; ring
    rw [e]
    have b1 : ‖z * (z ^ n - asComplex (approx n))‖ ≤ 8 * n / 10 ^ 20 := by
      rw [norm_mul, hz1, one_mul]
      exact ih
    have b2 : ‖(z - asComplex (alphaCos, alphaSin)) * asComplex (approx n)‖ ≤ 3 / 10 ^ 20 * 2 := by
      rw [norm_mul]; exact mul_le_mul step_error hw (norm_nonneg _) (by norm_num)
    have b3 := turn_error (approx n)
    refine (norm_add₃_le).trans ?_
    push_cast
    have : (8 * ((n : ℝ) + 1) / 10 ^ 20) = 8 * n / 10 ^ 20 + 3 / 10 ^ 20 * 2 + 2 / 10 ^ 20 := by ring
    linarith

/-- The cosine of `n` 510ths of a turn, to within 2040 units. -/
theorem cos_approx (n : ℕ) (hn : n ≤ 255) :
    |Real.cos (n * (Real.pi / 255)) * 10 ^ 20 - (approx n).1| ≤ 2040 := by
  have h := approx_error n hn
  rw [← Complex.exp_nat_mul, ← mul_assoc,
    show ((n : ℂ) * ((Real.pi / 255 : ℝ) : ℂ)) = ((n * (Real.pi / 255) : ℝ) : ℂ) by push_cast; rfl] at h
  have h1 := (Complex.abs_re_le_norm _).trans h
  rw [Complex.sub_re, Complex.exp_ofReal_mul_I_re, asComplex_eq, Complex.add_re, Complex.ofReal_re,
    Complex.re_ofReal_mul, Complex.I_re, mul_zero, add_zero] at h1
  have hn' : (n : ℝ) ≤ 255 := by exact_mod_cast hn
  have e : Real.cos (n * (Real.pi / 255)) * 10 ^ 20 - (approx n).1 =
      (Real.cos (n * (Real.pi / 255)) - (approx n).1 / 10 ^ 20) * 10 ^ 20 := by ring
  rw [e, abs_mul, abs_of_pos (show (0 : ℝ) < 10 ^ 20 by norm_num)]
  calc _ ≤ (8 * n / 10 ^ 20) * (10 : ℝ) ^ 20 := mul_le_mul_of_nonneg_right h1 (by norm_num)
    _ ≤ 2040 := by rw [div_mul_cancel₀ _ (by norm_num)]; linarith

/-- The same for a turn either way. -/
theorem cos_approx_int (z : ℤ) (hz : z.natAbs ≤ 255) :
    |Real.cos (z * (Real.pi / 255)) * 10 ^ 20 - (approx z.natAbs).1| ≤ 2040 := by
  have h := cos_approx z.natAbs hz
  have e : Real.cos ((z.natAbs : ℝ) * (Real.pi / 255)) = Real.cos ((z : ℝ) * (Real.pi / 255)) := by
    rcases abs_choice (z : ℝ) with h | h <;> rw [Nat.cast_natAbs, Int.cast_abs, h]
    rw [neg_mul, Real.cos_neg]
  rwa [e] at h

/-- The interval of the squared cosine lies between `Wt[j+1]` and the next integer. -/
def wtFits (j : ℕ) : Bool :=
  let c := |(approx (2 * j + 1)).1|
  let w : ℤ := wt.getD j 0
  decide (2040 ≤ c ∧ w * 10 ^ 40 ≤ 2 ^ 32 * (c - 2040) ^ 2 ∧
    2 ^ 32 * (c + 2040) ^ 2 < (w + 1) * 10 ^ 40)
/-- Every entry but the two exact ones fits its interval. -/
theorem wt_fits : ∀ j < 128, j = 42 ∨ j = 127 ∨ wtFits j = true := by decide +kernel

end HsiCircle

open HsiCircle in
/-- `Wt[j] = floor(2^32 × cos^2(pi (2j-1) / 255))` (R131, R132). -/
theorem wt_eq_floor (j : ℕ) (hj : j < 128) :
    ((wt.getD j 0 : ℕ) : ℤ) = ⌊2 ^ 32 * Real.cos (Real.pi * (2 * (j + 1) - 1) / 255) ^ 2⌋ := by
  have ang : Real.pi * (2 * ((j : ℝ) + 1) - 1) / 255 = ((2 * j + 1 : ℕ) : ℝ) * (Real.pi / 255) := by
    push_cast; ring
  rw [ang]
  symm
  rw [Int.floor_eq_iff]
  rcases wt_fits j hj with rfl | rfl | h
  · have : ((2 * 42 + 1 : ℕ) : ℝ) * (Real.pi / 255) = Real.pi / 3 := by push_cast; ring
    rw [this, Real.cos_pi_div_three, show wt.getD 42 0 = 1073741824 from rfl]
    norm_num
  · have : ((2 * 127 + 1 : ℕ) : ℝ) * (Real.pi / 255) = Real.pi := by push_cast; ring
    rw [this, Real.cos_pi, show wt.getD 127 0 = 4294967296 from rfl]
    norm_num
  · simp only [wtFits, decide_eq_true_eq] at h
    obtain ⟨h0, h1, h2⟩ := h
    have hc := abs_le.1 ((abs_abs_sub_abs_le _ _).trans (cos_approx (2 * j + 1) (by omega)))
    rw [abs_mul, abs_of_pos (show (0 : ℝ) < 10 ^ 20 by norm_num)] at hc
    have r0 : (2040 : ℝ) ≤ |((approx (2 * j + 1)).1 : ℝ)| := by exact_mod_cast h0
    have r1 : (((wt.getD j 0 : ℕ) : ℤ) : ℝ) * 10 ^ 40 ≤
        2 ^ 32 * (|((approx (2 * j + 1)).1 : ℝ)| - 2040) ^ 2 := by
      exact_mod_cast h1
    have r2 : 2 ^ 32 * (|((approx (2 * j + 1)).1 : ℝ)| + 2040) ^ 2 <
        ((((wt.getD j 0 : ℕ) : ℤ) : ℝ) + 1) * 10 ^ 40 := by
      exact_mod_cast h2
    rw [← sq_abs (Real.cos _)]
    generalize |Real.cos (((2 * j + 1 : ℕ) : ℝ) * (Real.pi / 255))| = x at hc
    generalize |((approx (2 * j + 1)).1 : ℝ)| = c at *
    generalize (((wt.getD j 0 : ℕ) : ℤ) : ℝ) = w at *
    have u1 : (c - 2040) ^ 2 ≤ (x * 10 ^ 20) ^ 2 := pow_le_pow_left₀ (by linarith) (by linarith) 2
    have u2 : (x * 10 ^ 20) ^ 2 ≤ (c + 2040) ^ 2 := pow_le_pow_left₀ (by linarith) (by linarith) 2
    have e : (x * 10 ^ 20) ^ 2 = x ^ 2 * 10 ^ 40 := by ring
    rw [e] at u1 u2
    constructor <;> nlinarith

namespace HsiCircle

/-- The interval of the ratio of cosines lies within a half of `Rq[j]`. -/
def rqFits (j : ℕ) : Bool :=
  let c := (approx (2 * j)).1
  let d := (approx (85 - 2 * (j : ℤ)).natAbs).1
  let r := rq.getD j 0
  decide (4080 ≤ d ∧ 2 * (|2 ^ 32 * c - r * d| + 2040 * (2 ^ 32 + |r|)) < d - 2040)
/-- Every entry of `Rq` fits its interval. -/
theorem rq_fits : ∀ j < 86, rqFits j = true := by decide +kernel

end HsiCircle

open HsiCircle in
/-- `Rq[j] = rnd(2^32 × cos(24j/17°) / cos(60° - 24j/17°))` (R160, R161), the angles in 255ths of a half
turn. -/
theorem rq_eq_round (j : ℕ) (hj : j < 86) :
    rq.getD j 0 = ⌊2 ^ 32 *
      (Real.cos (2 * j * Real.pi / 255) / Real.cos ((85 - 2 * j) * Real.pi / 255)) + 1 / 2⌋ := by
  have h := rq_fits j hj
  simp only [rqFits, decide_eq_true_eq] at h
  obtain ⟨h0, h1⟩ := h
  have hx := cos_approx (2 * j) (by omega)
  have hy := cos_approx_int (85 - 2 * (j : ℤ)) (by omega)
  have ex : 2 * (j : ℝ) * Real.pi / 255 = ((2 * j : ℕ) : ℝ) * (Real.pi / 255) := by push_cast; ring
  have ey : (85 - 2 * (j : ℝ)) * Real.pi / 255 = ((85 - 2 * (j : ℤ) : ℤ) : ℝ) * (Real.pi / 255) := by
    push_cast
    ring
  rw [ex, ey]
  have r0 : (4080 : ℝ) ≤ ((approx (85 - 2 * (j : ℤ)).natAbs).1 : ℝ) := by exact_mod_cast h0
  have r1 : 2 * (|2 ^ 32 * ((approx (2 * j)).1 : ℝ) -
      (rq.getD j 0 : ℝ) * ((approx (85 - 2 * (j : ℤ)).natAbs).1 : ℝ)| +
      2040 * (2 ^ 32 + |(rq.getD j 0 : ℝ)|)) < ((approx (85 - 2 * (j : ℤ)).natAbs).1 : ℝ) - 2040 := by
    exact_mod_cast h1
  symm
  rw [Int.floor_eq_iff]
  generalize Real.cos (((2 * j : ℕ) : ℝ) * (Real.pi / 255)) = x at *
  generalize Real.cos (((85 - 2 * (j : ℤ) : ℤ) : ℝ) * (Real.pi / 255)) = y at *
  generalize ((approx (2 * j)).1 : ℝ) = c at *
  generalize ((approx (85 - 2 * (j : ℤ)).natAbs).1 : ℝ) = d at *
  generalize (rq.getD j 0 : ℝ) = r at *
  have hy' := abs_le.1 hy
  have hypos : 0 < y := by nlinarith
  have key : |2 ^ 32 * x - r * y| * 10 ^ 20 < y * 10 ^ 20 / 2 := by
    have e : (2 ^ 32 * x - r * y) * 10 ^ 20 =
        2 ^ 32 * (x * 10 ^ 20 - c) + (2 ^ 32 * c - r * d) + (-(r * (y * 10 ^ 20 - d))) := by ring
    have t1 : |2 ^ 32 * x - r * y| * 10 ^ 20 = |(2 ^ 32 * x - r * y) * 10 ^ 20| := by
      rw [abs_mul, abs_of_pos (show (0 : ℝ) < 10 ^ 20 by norm_num)]
    have t2 := abs_add_three (2 ^ 32 * (x * 10 ^ 20 - c)) (2 ^ 32 * c - r * d) (-(r * (y * 10 ^ 20 - d)))
    rw [abs_neg, abs_mul, abs_mul, abs_of_pos (show (0 : ℝ) < 2 ^ 32 by norm_num)] at t2
    have t3 : |r| * |y * 10 ^ 20 - d| ≤ |r| * 2040 := mul_le_mul_of_nonneg_left hy (abs_nonneg r)
    have t4 : (2 : ℝ) ^ 32 * |x * 10 ^ 20 - c| ≤ 2 ^ 32 * 2040 := mul_le_mul_of_nonneg_left hx (by norm_num)
    rw [t1, e]
    refine t2.trans_lt ?_
    generalize |2 ^ 32 * c - r * d| = m at *
    generalize |r| * |y * 10 ^ 20 - d| = n at *
    generalize |x * 10 ^ 20 - c| = k at *
    linarith
  have key' : |2 ^ 32 * x - r * y| < y / 2 := by linarith
  have k := abs_lt.1 key'
  have e : 2 ^ 32 * (x / y) = 2 ^ 32 * x / y := by ring
  rw [e]
  constructor
  · have : r - 1 / 2 ≤ 2 ^ 32 * x / y := by rw [le_div_iff₀ hypos]; nlinarith
    linarith
  · have : 2 ^ 32 * x / y < r + 1 / 2 := by rw [div_lt_iff₀ hypos]; nlinarith
    linarith
end Sys2Proof.Machine
end

