-- ==== Sys2Proof/Laws/StepCases.lean ====
section
/-! SUPPORT. What one step of the whole machine can do, said once (`00_scope.md` R12, R13, R15): the engine
runs the accepted command, or an event of the outside world happens; and what a host action and a register
write can do (`46_system.md` R231, R232). -/

namespace Sys2Proof.Machine

/-! ## The engine's turn -/

theorem engineTakesTurn_agenda_or (s : State) :
    s.engineTakesTurn = s ∨ s.engineTakesTurn = s.popEvent := by
  unfold State.engineTakesTurn
  split <;> simp

/-- Taking the turn changes the agenda only. -/
theorem engineTakesTurn_cases (s : State) :
    ∃ l, s.engineTakesTurn = { s with agenda := l } := by
  rcases engineTakesTurn_agenda_or s with h | h
  · exact ⟨s.agenda, h⟩
  · exact ⟨s.agenda.tail, h⟩

/-- The engine moves only while `BUSY = 1` (R15). -/
theorem busy_of_engineMoves {s : State} (h : s.engineMoves = true) : s.busy = true := by
  unfold State.engineMoves at h
  simp only [Bool.and_eq_true] at h
  exact h.1

/-- A step the engine does not make is the outside world's. -/
theorem step_eq (s : State) :
    step s = if s.engineMoves then runCommand s.engineTakesTurn else outsideTurn s := rfl

/-- What an event of the outside world answers. -/
theorem outsideTurn_cases {s t : State} (h : outsideTurn s = .next t) :
    t = s ∨ t = s.popEvent ∨ (∃ a, hostAct a s.popEvent = .next t) ∨ t = s.popEvent.assertReset ∨
      t = s.popEvent.releaseReset := by
  unfold outsideTurn at h
  split at h
  · cases h; exact Or.inl rfl
  · cases h; exact Or.inr (Or.inl rfl)
  · exact Or.inr (Or.inr (Or.inl ⟨_, h⟩))
  · cases h; exact Or.inr (Or.inr (Or.inr (Or.inl rfl)))
  · cases h; exact Or.inr (Or.inr (Or.inr (Or.inr rfl)))

/-! ## Host actions -/

/-- What a register write can do (R232). -/
inductive WriteEffect (s : State) : State → Prop where
  | none : WriteEffect s s
  | operand (a b c d : Word) : s.busy = false →
      WriteEffect s { s with src := a, dst := b, dim := c, level := d }
  | dropped : WriteEffect s s.dropWrite
  | accepted (w : Word) : s.busy = false → s.err = false → WriteEffect s (s.accept w)
  | status (v : Word) : WriteEffect s (s.writeStatus v)
  | enables (v : Word) : WriteEffect s (s.writeIE v)
  | reset : WriteEffect s s.softReset

theorem writeOperand_effect (s u : State) (h : s.busy = false → WriteEffect s u) :
    WriteEffect s (s.writeOperand u) := by
  unfold State.writeOperand
  split
  · exact .dropped
  · next hb => exact h (by simpa using hb)

/-- Every register write has one of these effects. -/
theorem writeReg_effect (r : Reg) (v : Word) (s : State) : WriteEffect s (s.writeReg r v) := by
  cases r with
  | src => exact writeOperand_effect s _ fun h => .operand v s.dst s.dim s.level h
  | dst => exact writeOperand_effect s _ fun h => .operand s.src v s.dim s.level h
  | dim => exact writeOperand_effect s _ fun h => .operand s.src s.dst v s.level h
  | level => exact writeOperand_effect s _ fun h => .operand s.src s.dst s.dim v h
  | cmd =>
    show WriteEffect s (s.issue v)
    unfold State.issue
    split
    · exact .dropped
    · next h =>
      simp only [Bool.or_eq_true, not_or, Bool.not_eq_true] at h
      exact .accepted v h.1 h.2
  | status => exact .status v
  | ie => exact .enables v
  | ctrl =>
    show WriteEffect s (if v.getLsbD 0 then s.softReset else s)
    split
    · exact .reset
    · exact .none
  | avg => exact .none
  | lvlUsed => exact .none
  | sumLo => exact .none
  | sumHi => exact .none
  | errCode => exact .none
  | errInfo => exact .none
  | id => exact .none
  | hist => exact .none
  | map => exact .none
  | reserved => exact .none

/-- What a host action answers: a read value, a register write, or a store, and one more moment. -/
theorem hostAct_cases {a : HostAction} {s t : State} (h : hostAct a s = .next t) :
    (∃ w, t = (s.withReadData w).tick) ∨
      (s.inReset = true ∧ t = s.tick) ∨
      (s.inReset = false ∧ ∃ u, WriteEffect s u ∧ t = u.tick) ∨
      ∃ addr : Word, ∃ v, t = (s.hostStore addr.toNat v).tick := by
  cases a with
  | regRead size offset =>
    simp only [hostAct] at h
    split at h
    · cases h; exact Or.inl ⟨_, rfl⟩
    · cases h
  | regWrite size offset v =>
    simp only [hostAct] at h
    split at h
    · cases h
      unfold State.portWrite
      cases hr : s.inReset
      · exact Or.inr (Or.inr (Or.inl ⟨rfl, _, writeReg_effect (regAt offset) v s, by simp⟩))
      · exact Or.inr (Or.inl ⟨rfl, by simp⟩)
    · cases h
  | memRead addr => cases h; exact Or.inl ⟨_, rfl⟩
  | memWrite addr v => cases h; exact Or.inr (Or.inr (Or.inr ⟨addr, v, rfl⟩))
  | wait => cases h; exact Or.inl ⟨_, rfl⟩

/-- What one step can do. -/
theorem step_cases {s t : State} (h : step s = .next t) :
    (s.engineMoves = true ∧ runCommand s.engineTakesTurn = .next t) ∨ t = s ∨ t = s.popEvent ∨
      (∃ a, hostAct a s.popEvent = .next t) ∨ t = s.popEvent.assertReset ∨
      t = s.popEvent.releaseReset := by
  rw [step_eq] at h
  split at h
  · next hm => exact Or.inl ⟨hm, h⟩
  · exact Or.inr (outsideTurn_cases h)

/-- A write to `STATUS`, field by field (R32). -/
theorem writeStatus_eq (s : State) (v : Word) :
    s.writeStatus v =
      { s with
        done := s.done && !v.getLsbD 1
        err := s.err && !v.getLsbD 2
        errCode := if v.getLsbD 2 then .eNone else s.errCode
        errInfo := if v.getLsbD 2 then 0#32 else s.errInfo
        drop := s.drop && !v.getLsbD 3 } := by
  unfold State.writeStatus State.clearErr
  cases h : v.getLsbD 2 <;> simp [State.clearDone, State.clearDrop, State.returnFromFault]

/-- A property that every transition keeps is kept by every step. -/
theorem step_preserves (P : State → Prop)
    (hfault : ∀ s c, P s → s.busy = true → c ≠ .eNone → P (s.takeFault c))
    (hdone : ∀ i s, P s → s.busy = true → Ready i s → P (effectOf i s).complete)
    (hag : ∀ s l, P s → P { s with agenda := l })
    (htick : ∀ s, P s → P s.tick)
    (hread : ∀ s w, P s → P (s.withReadData w))
    (hwr : ∀ s u, P s → s.inReset = false → WriteEffect s u → P u)
    (hst : ∀ s (a : Word) v, P s → P (s.hostStore a.toNat v))
    (hres : ∀ s b, P s → P ((s.resetBlock s.memAbandoned).withResetInput b)) :
    ∀ s t, P s → step s = .next t → P t := by
  intro s t h hs
  have pop : P s.popEvent := hag s _ h
  rcases step_cases hs with ⟨hm, hr⟩ | rfl | rfl | ⟨a, ha⟩ | rfl | rfl
  · obtain ⟨l, hl⟩ := engineTakesTurn_cases s
    have hb := busy_of_engineMoves hm
    have h2 : P s.engineTakesTurn := by rw [hl]; exact hag s l h
    have hb2 : s.engineTakesTurn.busy = true := by rw [hl]; exact hb
    rcases runCommand_cases s.engineTakesTurn with ⟨c, hc, he⟩ | ⟨i, _, hr', he⟩
    · rw [he] at hr; cases hr; exact hfault _ _ h2 hb2 hc
    · rw [he] at hr; cases hr; exact hdone _ _ h2 hb2 hr'
  · exact h
  · exact pop
  · rcases hostAct_cases ha with ⟨w, rfl⟩ | ⟨_, rfl⟩ | ⟨hr, u, hu, rfl⟩ | ⟨ad, v, rfl⟩
    · exact htick _ (hread _ _ pop)
    · exact htick _ pop
    · exact htick _ (hwr _ _ pop hr hu)
    · exact htick _ (hst _ _ _ pop)
  · exact hres _ _ pop
  · exact hres _ _ pop

end Sys2Proof.Machine
end

