-- ==== Sys2Proof/Tests/Slice0.lean ====
section
/-! SUPPORT. Tests on fixed values, with the expected results from the tables and programs of
`95_test_vectors.md` or written out from the encoding tables of `30_encoding.md`; and, for every statement with
hypotheses, a state and operands that meet them all. -/

namespace Sys2Proof.Tests

open Sys2Proof.Machine

/-! ## Helpers -/

/-- A memory with the bytes at `base` and above. -/
def placed (base : Nat) (l : List Nat) (m : Memory) : Memory :=
  (l.zipIdx base).foldl (fun m e => m.write e.2 (BitVec.ofNat 8 e.1)) m

/-- The bytes at `base` and above. -/
def bytesAt (s : State) (base n : Nat) : List Nat :=
  (List.range n).map fun i => (s.mem.read (base + i)).toNat

/-- An image of width `w` and height 1 at 0x1000, to be converted to 0x2000. -/
def image (w : Nat) (l : List Nat) : State :=
  { State.reset with
    src := 0x1000#32
    dst := 0x2000#32
    dim := BitVec.ofNat 32 (0x10000 + w)
    mem := placed 0x1000 l [] }

/-- A one-pixel image at other addresses. -/
def pixelImage (src dst : Word) : State := { image 1 [] with src := src, dst := dst }

/-- The outcome is a next state with the property. -/
def nextHas (o : Host.Outcome State Fault Refusal) (p : State → Bool) : Bool :=
  match o with
  | .next t => p t
  | .fault _ => false
  | .refused _ => false

/-- The command completes and leaves these bytes at 0x2000. -/
def gives (i : Instr) (s : State) (l : List Nat) : Bool :=
  nextHas (exec i s) fun t => t.done && !t.busy && !t.err && bytesAt t 0x2000 l.length == l

/-- The command takes this fault. -/
def faults (i : Instr) (s : State) (c : ErrorCode) : Bool :=
  nextHas (exec i s) fun t => t.err && !t.busy && t.errCode == c && t.errInfo == s.cmd

theorem ready_of_checks {i : Instr} {s : State} (h : firstFailing (tableChecks i s) = none) :
    Ready i s := (firstFailing_table_none i s).1 h

theorem takesFault_of_checks {i : Instr} {s : State} {c : ErrorCode}
    (h : firstFailing (tableChecks i s) = some c) : TakesFault i s c := firstFailing_table_some h

/-! ## Legal fields -/

/-- The check of `FMT` refuses one format of each shape (R93, R95). -/
theorem test_wellFormed_fmt :
    (Instr.nop .rgb).wellFormed = false ∧ (Instr.cvtHsv .gray).wellFormed = false ∧
    (Instr.invYuv .reserved).wellFormed = false ∧ (Instr.hist .reserved).wellFormed = false ∧
    (Instr.eqapp .rgba).wellFormed = false ∧ (Instr.hist .gray).wellFormed = true ∧
    (Instr.cvtHsv .rgba).wellFormed = true := by decide

/-- The check of the channel and the bank refuses the first number too high (R97). -/
theorem test_wellFormed_arg :
    (Instr.xch .rgba 3#4).wellFormed = false ∧ (Instr.ich .rgb 3#4).wellFormed = false ∧
    (Instr.ich .rgba 4#4).wellFormed = false ∧ (Instr.eqmap .gray 4#4).wellFormed = false ∧
    (Instr.xch .rgb 2#4).wellFormed = true ∧ (Instr.ich .rgba 3#4).wellFormed = true ∧
    (Instr.eqmap .gray 3#4).wellFormed = true := by decide

/-! ## Decoding: words written out from R90, R93, R96, field by field -/

theorem test_decode_cvt :
    decode 0b000000000000000000_01_0000_00010000#32 = .instr (.cvtRgb .rgb) ∧
    decode 0b000000000000000000_10_0001_00010000#32 = .instr (.cvtHsv .rgba) ∧
    decode 0b000000000000000000_01_0010_00010000#32 = .instr (.cvtHsl .rgb) ∧
    decode 0b000000000000000000_01_0011_00010000#32 = .instr (.cvtHsi .rgb) ∧
    decode 0b000000000000000000_11_0100_00010000#32 = .instr (.cvtYuv .reserved) := by decide

theorem test_decode_inv :
    decode 0b000000000000000000_01_0000_00010001#32 = .instr (.invRgb .rgb) ∧
    decode 0b000000000000000000_00_0001_00010001#32 = .instr (.invHsv .gray) ∧
    decode 0b000000000000000000_01_0010_00010001#32 = .instr (.invHsl .rgb) ∧
    decode 0b000000000000000000_10_0011_00010001#32 = .instr (.invHsi .rgba) ∧
    decode 0b000000000000000000_01_0100_00010001#32 = .instr (.invYuv .rgb) := by decide

theorem test_decode_planes :
    decode 0b000000000000000000_01_0000_00100000#32 = .instr (.luma .rgb) ∧
    decode 0b000000000000000000_00_0000_00100001#32 = .instr (.avg .gray) ∧
    decode 0b000000000000000000_01_0010_00100010#32 = .instr (.xch .rgb 2#4) ∧
    decode 0b000000000000000000_10_0011_00100011#32 = .instr (.ich .rgba 3#4) := by decide

theorem test_decode_tables :
    decode 0b000000000000000000_00_0000_00110000#32 = .instr (.bin .gray) ∧
    decode 0b000000000000000000_00_0001_00110000#32 = .instr (.binA .gray) ∧
    decode 0b000000000000000000_10_0000_01000000#32 = .instr (.hist .rgba) ∧
    decode 0b000000000000000000_00_0011_01010000#32 = .instr (.eqmap .gray 3#4) ∧
    decode 0b000000000000000000_00_0000_01010001#32 = .instr (.eqapp .gray) ∧
    decode 0b000000000000000000_00_0000_00000000#32 = .instr (.nop .gray) := by decide

/-- The refused words of section 2.1 of `95_test_vectors.md`. -/
theorem test_decode_refused :
    decode 0x00004000#32 = .illegal ∧ decode 0x80000000#32 = .illegal ∧
    decode 0x00000012#32 = .illegal ∧ decode 0x000000FF#32 = .illegal ∧
    decode 0x00000100#32 = .illegal ∧ decode 0x00000230#32 = .illegal ∧
    decode 0x00001510#32 = .badColourSpace ∧ decode 0x00001F11#32 = .badColourSpace ∧
    decode 0x00000510#32 = .badColourSpace ∧ decode 0x00004510#32 = .illegal := by decide

/-- The decodable words of that section that fault on a field. -/
theorem test_field_faults :
    faults (.cvtHsv .gray) State.reset .eFmt = true ∧ faults (.avg .rgb) State.reset .eFmt = true ∧
    faults (.xch .rgb 3#4) State.reset .eArg = true ∧
    faults (.ich .rgba 4#4) State.reset .eArg = true ∧
    faults (.eqmap .gray 4#4) State.reset .eArg = true ∧
    faults (.xch .reserved 3#4) State.reset .eFmt = true := by decide +kernel

/-! ## One step of each instruction -/

theorem test_nop : nextHas (exec (.nop .gray) { image 0 [] with cmd := 0x0#32, busy := true })
    (fun t => t.done && !t.busy && t.src == 0x1000#32) = true := by decide

/-- Section 2.2: `CVT.RGB` copies. -/
theorem test_cvtRgb : gives (.cvtRgb .rgb) (image 1 [200, 100, 50]) [200, 100, 50, 0] = true := by
  decide +kernel

theorem test_cvtHsv : gives (.cvtHsv .rgba) (image 1 [200, 100, 50, 7]) [14, 191, 200, 7] = true := by
  decide +kernel

theorem test_cvtHsv_blue_max : gives (.cvtHsv .rgb) (image 2 [10, 20, 30, 255, 0, 255])
    [149, 170, 30, 213, 255, 255] = true := by decide +kernel

theorem test_cvtHsl : gives (.cvtHsl .rgb) (image 2 [200, 100, 50, 255, 254, 253])
    [14, 153, 125, 21, 255, 254] = true := by decide +kernel

theorem test_cvtHsi : gives (.cvtHsi .rgb) (image 2 [200, 100, 50, 254, 0, 255])
    [14, 146, 117, 212, 255, 170] = true := by decide +kernel

theorem test_cvtYuv : gives (.cvtYuv .rgb) (image 2 [255, 0, 0, 12, 200, 99])
    [76, 85, 255, 132, 109, 42] = true := by decide +kernel

/-- Section 2.3: `INV.RGB` copies. -/
theorem test_invRgb : gives (.invRgb .rgba) (image 1 [200, 100, 50, 9]) [200, 100, 50, 9] = true := by
  decide +kernel

theorem test_invHsv : gives (.invHsv .rgb) (image 2 [43, 255, 255, 254, 255, 255])
    [252, 255, 0, 255, 0, 6] = true := by decide +kernel

theorem test_invHsl : gives (.invHsl .rgb) (image 2 [21, 128, 200, 169, 200, 100])
    [228, 200, 172, 22, 25, 178] = true := by decide +kernel

theorem test_invHsi : gives (.invHsi .rgb) (image 2 [84, 255, 85, 170, 200, 100])
    [7, 248, 0, 22, 22, 255] = true := by decide +kernel

theorem test_invYuv : gives (.invYuv .rgb) (image 2 [0, 0, 0, 128, 255, 255])
    [0, 135, 0, 255, 0, 255] = true := by decide +kernel

/-- Section 2.4: alpha is dropped. -/
theorem test_luma : gives (.luma .rgba) (image 2 [255, 0, 0, 9, 0, 255, 0, 200]) [76, 150, 0] = true := by
  decide +kernel

theorem test_avg : nextHas (exec (.avg .gray) (image 3 [255, 255, 254]))
    (fun t => t.avg == 254#8 && t.sumLo == 764#32 && t.sumHi == 0#32 && t.done) = true := by
  decide +kernel

theorem test_avg_empty : faults (.avg .gray) (image 0 []) .eEmpty = true := by decide +kernel

theorem test_xch : gives (.xch .rgba 2#4) (image 2 [1, 2, 3, 4, 5, 6, 7, 8]) [3, 7, 0] = true := by
  decide +kernel

theorem test_ich : gives (.ich .rgb 2#4)
    { image 2 [9, 8] with mem := placed 0x2000 [1, 2, 3, 4, 5, 6] (placed 0x1000 [9, 8] []) }
    [1, 2, 9, 4, 5, 8] = true := by decide +kernel

theorem test_ich_alpha : gives (.ich .rgba 3#4)
    { image 2 [] with mem := placed 0x2000 [1, 2, 3, 4, 5, 6, 7, 8] (placed 0x1000 [0, 255] []) }
    [1, 2, 3, 0, 5, 6, 7, 255] = true := by decide +kernel

/-- Section 2.5: strictly greater. -/
theorem test_bin : gives (.bin .gray) { image 5 [0, 1, 127, 128, 255] with level := 127#32 }
    [0, 0, 0, 255, 255] = true := by decide +kernel

theorem test_bin_level : faults (.bin .gray) { image 5 [0, 1, 127, 128, 255] with level := 256#32 }
    .eLevel = true := by decide +kernel

theorem test_binA : nextHas
    (exec (.binA .gray) { image 5 [0, 1, 127, 128, 255] with level := 256#32 })
    (fun t => bytesAt t 0x2000 5 == [0, 0, 255, 255, 255] && t.avg == 102#8 && t.lvlUsed == 102#8 &&
      t.sumLo == 511#32 && t.level == 256#32) = true := by decide +kernel

/-- Section 2.6: `HIST GRAY` on 5, 5, 7. -/
theorem test_hist_gray : nextHas (exec (.hist .gray) (image 3 [5, 5, 7]))
    (fun t => t.hv == 0b1001#4 && (t.bank 0)[5] == 2#32 && (t.bank 3)[7] == 1#32 &&
      (t.bank 1)[5] == 0#32) = true := by decide +kernel

/-- Section 2.6: `HIST RGBA` counts no alpha. -/
theorem test_hist_rgba : nextHas (exec (.hist .rgba) (image 2 [1, 2, 3, 200, 1, 2, 3, 100]))
    (fun t => t.hv == 0b1111#4 && (t.bank 0)[1] == 2#32 && (t.bank 1)[2] == 2#32 &&
      (t.bank 2)[3] == 2#32 && (t.bank 3)[2] == 2#32 && (t.bank 0)[200] == 0#32) = true := by
  decide +kernel

/-- The bank of 5, 5, 7. -/
def bank557 : Bank := (emptyBank.set 5 2#32).set 7 1#32

/-- A state with that bank valid, as a `HIST GRAY` leaves it. -/
def counted : State :=
  { image 5 [4, 5, 6, 7, 200] with hist := #v[bank557, emptyBank, emptyBank, bank557], hv := 0b1001#4 }

/-- Section 2.6: the map of that bank. -/
theorem test_eqmap : nextHas (exec (.eqmap .gray 0#4) counted)
    (fun t => t.mv && t.map[4] == 0#8 && t.map[5] == 170#8 && t.map[6] == 170#8 && t.map[7] == 255#8 &&
      t.map[255] == 255#8) = true := by decide +kernel

theorem test_eqmap_nohist : faults (.eqmap .gray 1#4) counted .eNohist = true := by decide +kernel

/-- Section 2.6: that map applied. -/
theorem test_eqapp : gives (.eqapp .gray) (counted.buildMap 0) [0, 170, 170, 255, 255] = true := by
  decide +kernel

theorem test_eqapp_nomap : faults (.eqapp .gray) State.reset .eNomap = true := by decide

/-! ## Regions: section 2.7 -/

theorem test_regions :
    faults (.cvtHsv .rgb) (pixelImage 0xFFFFFFFE#32 0x200#32) .eRange = true ∧
    faults (.ich .rgb 0#4) (pixelImage 0x100#32 0xFFFFFFFF#32) .eRange = true ∧
    faults (.cvtHsv .rgb) (pixelImage 0x100#32 0x102#32) .eOverlap = true ∧
    faults (.bin .gray) (pixelImage 0x100#32 0x100#32) .eOverlap = true ∧
    faults (.ich .rgb 0#4) (pixelImage 0x102#32 0x100#32) .eOverlap = true ∧
    faults (.cvtHsv .rgb) (pixelImage 0xFFFFFFFE#32 0xFFFFFFFE#32) .eRange = true := by decide +kernel

theorem test_regions_fit :
    gives (.cvtHsv .rgb) (pixelImage 0xFFFFFFFD#32 0x200#32) [] = true ∧
    gives (.luma .rgb) (pixelImage 0x100#32 0xFFFFFFFF#32) [] = true ∧
    gives (.cvtHsv .rgb) (pixelImage 0x100#32 0x103#32) [] = true ∧
    gives (.cvtHsv .rgb) { image 0 [] with src := 0x100#32, dst := 0x100#32 } [] = true := by
  decide +kernel

/-! ## The register interface: section 2.8 -/

/-- A state with `STATUS = 0x192`. -/
def doneState : State := { State.reset with done := true, hv := 0b1001#4, mv := true }

theorem test_status_write :
    nextHas (hostAct (.regWrite .word 0x024#14 0x1F3#32) doneState) (fun t => t.statusWord == 0x190#32) =
      true ∧
    nextHas (hostAct (.regWrite .word 0x024#14 0x1F1#32) doneState) (fun t => t.statusWord == 0x192#32) =
      true := by decide +kernel

theorem test_reads_after_reset :
    nextHas (hostAct (.regRead .word 0x038#14) State.reset) (fun t => t.readData == 0x43534331#32) = true ∧
    nextHas (hostAct (.regRead .word 0x024#14) State.reset) (fun t => t.readData == 0#32) = true ∧
    nextHas (hostAct (.regRead .word 0x1FFC#14) State.reset) (fun t => t.readData == 0#32) = true := by
  decide +kernel

theorem test_ie_write : nextHas (hostAct (.regWrite .word 0x030#14 0xFFFFFFFF#32) State.reset)
    (fun t => t.ieWord == 0xE#32) = true := by decide +kernel

theorem test_write_while_busy :
    nextHas (hostAct (.regWrite .word 0x000#14 5#32) { State.reset with busy := true })
      (fun t => t.drop && t.src == 0#32) = true ∧
    nextHas (hostAct (.regWrite .word 0x000#14 5#32) { State.reset with err := true, errCode := .eFmt })
      (fun t => !t.drop && t.src == 5#32) = true := by decide +kernel

/-- Program P4: a command word with a bad colour space, waited for. -/
theorem test_wait_lets_the_command_run :
    nextHas (step { State.reset with busy := true, cmd := 0x1710#32, agenda := [.host .wait] })
      (fun t => t.errCode == .eCspace && t.errInfo == 0x1710#32 && t.statusWord == 4#32 &&
        t.agenda == [.host .wait]) = true := by decide +kernel

/-! ## Witnesses: the hypotheses of every statement can be met

Each theorem is named after its statement. Where a statement has several clauses, the witness meets each of
them at a boundary of its range. -/

/-- A command accepted, its word in `CMD`. -/
def running (w : Word) (s : State) : State := { s with cmd := w, busy := true }

/-- A latched fault, as `E_FMT` of the word 0x110 leaves it. -/
def latched : State :=
  { State.reset with cmd := 0x110#32, err := true, errCode := .eFmt, errInfo := 0x110#32 }

/-- A state with a map of ones 255. -/
def mapped255 : State := { image 2 [3, 9] with mv := true, map := Vector.replicate 256 255#8 }

/-- The host kept off the regions of a command under which it wrote nothing. -/
theorem keptOff_of_quiet {i : Instr} {s : State} (h : s.raced = []) : HostKeptOff i s := by
  intro c hc
  rw [h] at hc
  exact absurd hc List.not_mem_nil

/-- A one-pixel image in RGB under whose conversion the host wrote the bytes just outside the regions. -/
def racedAround : State :=
  { image 1 [1, 2, 3] with raced := [(0x0FFF, 9#8), (0x1003, 9#8), (0x1FFF, 9#8), (0x2003, 9#8)] }

theorem racedAround_keptOff : HostKeptOff (.cvtRgb .rgb) racedAround := by
  have h1 : racedAround.npix = 1 := by decide
  have h2 : racedAround.src.toNat = 0x1000 := by decide
  have h3 : racedAround.dst.toNat = 0x2000 := by decide
  intro c hc
  have hc' : c.1 = 0x0FFF ∨ c.1 = 0x1003 ∨ c.1 = 0x1FFF ∨ c.1 = 0x2003 := by
    simp only [racedAround, List.mem_cons, List.not_mem_nil, or_false] at hc
    rcases hc with rfl | rfl | rfl | rfl <;> simp
  constructor <;>
  · rintro ⟨n, hn, h⟩
    cases hn
    rw [h1] at h
    simp only [h2, h3, Fmt.channels] at h
    omega

/-- A bank with four pixels of one level. -/
def single (x : Fin 256) : Bank := emptyBank.set x.val 4#32

theorem single_other {x j : Fin 256} (h : j ≠ x) : (single x)[j] = 0#32 := by
  have hv : x.val ≠ j.val := fun e => h (Fin.ext e.symm)
  show (emptyBank.set x.val 4#32)[j.val] = 0#32
  rw [Vector.getElem_set, if_neg hv, Bank.getElem_emptyBank]

theorem witness_DecodeFunctionByFields :
    (0x4000#32).toNat / 16384 ≠ 0 ∧
    (0x1510#32).toNat / 256 % 16 = 5 ∧ (0x1510#32).toNat % 256 = 0x10 ∧
    (0x1F11#32).toNat / 256 % 16 = 15 ∧ (0x1F11#32).toNat % 256 = 0x11 ∧
    (0x0410#32).toNat / 256 % 16 = 4 ∧ (0x0230#32).toNat / 256 % 16 = 2 ∧
    (0x0151#32).toNat / 256 % 16 ≠ 0 ∧ (0x0152#32).toNat % 256 = 0x52 ∧
    Fmt.reserved.code.toNat = (0x3FFF#32).toNat / 4096 % 4 ∧
    decode 0x0152#32 = .illegal ∧ decode 0x0230#32 = .illegal ∧ decode 0x1F11#32 = .badColourSpace ∧
    decode 0x0151#32 = .illegal ∧ decode 0x3F50#32 = .instr (.eqmap .reserved 15#4) ∧
    TakesFault (.eqmap .reserved 15#4) (running 0x3F50#32 State.reset) .eFmt := by
  refine ⟨by decide, by decide, by decide, by decide, by decide, by decide, by decide, by decide,
    by decide, by decide, by decide, by decide, by decide, by decide, by decide, ?_⟩
  exact .fmt rfl

theorem witness_OpcodeTableRowsSeparateTheWords :
    (Instr.xch .rgb 0#4).matchesRow 0x3F22#32 = true ∧ decode 0x3F22#32 = .instr (.xch .reserved 15#4) := by
  decide

theorem witness_StepRunsTheDecodedInstruction :
    (running 0x51#32 State.reset).engineMoves = true ∧
    ({ running 0x51#32 State.reset with agenda := [.engine] } : State).engineMoves = true ∧
    ({ running 0x51#32 State.reset with agenda := [.host .wait] } : State).engineMoves = true ∧
    decode (running 0x51#32 State.reset).cmd = .instr (.eqapp .gray) ∧
    (running 0x4000#32 State.reset).engineMoves = true ∧ decode 0x4000#32 = .illegal ∧
    (running 0x1510#32 State.reset).engineMoves = true ∧ decode 0x1510#32 = .badColourSpace := by decide

theorem witness_HostActionsAreSteps :
    ({ running 0x51#32 State.reset with agenda := [.host (.memRead 0#32)] } : State).agenda =
      .host (.memRead 0#32) :: [] ∧ HostAction.memRead 0#32 ≠ .wait ∧
    ({ State.reset with agenda := [.host .wait] } : State).busy = false ∧
    ({ running 0x51#32 State.reset with agenda := [.host .wait] } : State).busy = true ∧
    ({ State.reset with agenda := [.engine] } : State).agenda = .engine :: [] ∧
    decode (running 0x1020#32 (image 1 [255, 0, 0])).cmd = .instr (.luma .rgb) ∧
    ¬ stores (.luma .rgb) (running 0x1020#32 (image 1 [255, 0, 0])) (0x2001#32).toNat ∧
    State.reset.inReset = false := by
  refine ⟨by decide, by decide, by decide, by decide, by decide, by decide, ?_, by decide⟩
  rintro ⟨d, hd, -, h⟩
  cases hd
  exact absurd h (by decide)

theorem witness_PlacedWordRunsNext : decodeTableWord 32 0x2323 = some (.ich .rgba 3#4) := by decide

/-- The host issues `HIST GRAY` and waits. -/
def issuing : State := { State.reset with agenda := [.host (.regWrite .word 0x020#14 0x40#32), .host .wait] }

theorem witness_AcceptedCommandIsRun :
    issuing.busy = false ∧ issuing.err = false ∧ issuing.inReset = false ∧
    decode 0x40#32 = .instr (.hist .gray) ∧ decode 0x4000#32 = .illegal ∧
    decode 0x1510#32 = .badColourSpace ∧ [Event.host .wait].head? = some (.host .wait) ∧
    issuing.agenda = .host (.regWrite .word 0x020#14 0x40#32) :: [.host .wait] := by decide

theorem witness_FinishedRunIdles : State.reset.agenda = [] ∧ State.reset.busy = false := by decide

theorem witness_FirstFailingCheckDecidesTheFault :
    decode (running 0x4000#32 State.reset).cmd = .illegal ∧
    decode (running 0x0510#32 State.reset).cmd = .badColourSpace ∧
    decode (running 0x0000#32 State.reset).cmd = .instr (.nop .gray) ∧
    Ready (.nop .gray) (running 0x0000#32 State.reset) ∧
    decode (running 0x0051#32 State.reset).cmd = .instr (.eqapp .gray) ∧
    TakesFault (.eqapp .gray) (running 0x0051#32 State.reset) .eNomap :=
  ⟨by decide, by decide, by decide, ready_of_checks (by decide), by decide,
    takesFault_of_checks (by decide)⟩

theorem witness_FaultLatchesAndChangesNothingElse :
    decode (running 0x80000000#32 State.reset).cmd = .illegal ∧
    decode (running 0x1F11#32 State.reset).cmd = .badColourSpace ∧
    TakesFault (.bin .gray) { image 1 [7] with level := 256#32 } .eLevel ∧ latched.err = true ∧
    latched.inReset = false :=
  ⟨by decide, by decide, takesFault_of_checks (by decide +kernel), rfl, rfl⟩

theorem witness_RangeAndOverlapFaults :
    (Instr.cvtHsv .rgb).wellFormed = true ∧ (Instr.cvtHsv .rgb).readsLevel = false ∧
    (Instr.cvtHsv .rgb).needsPixels = false ∧ bankMissing (.cvtHsv .rgb) (pixelImage 0#32 0#32) = false ∧
    mapMissing (.cvtHsv .rgb) (pixelImage 0#32 0#32) = false ∧ (pixelImage 0#32 0#32).npix = 1 ∧
    (2 : Nat) ^ 32 < (pixelImage 0xFFFFFFFE#32 0#32).src.toNat + 1 * 3 ∧
    (2 : Nat) ^ 32 < (pixelImage 0#32 0xFFFFFFFE#32).dst.toNat + 1 * 3 ∧
    (pixelImage 0xFFFFFFFD#32 0#32).src.toNat + 1 * 3 = 2 ^ 32 ∧
    TakesFault (.cvtHsv .rgb) (pixelImage 0x100#32 0x102#32) .eOverlap ∧
    Ready (.cvtHsv .rgb) (pixelImage 0x100#32 0x103#32) ∧
    Ready (.cvtHsv .rgb) (pixelImage 0x103#32 0x100#32) :=
  ⟨by decide, by decide, by decide, by decide, by decide, by decide, by decide, by decide, by decide,
    takesFault_of_checks (by decide +kernel), ready_of_checks (by decide +kernel),
    ready_of_checks (by decide +kernel)⟩

theorem witness_ForwardConversionsConvertEveryPixel :
    Ready (.cvtRgb .rgba) (image 1 [1, 2, 3, 4]) ∧ Ready (.cvtHsv .rgb) (image 1 [1, 2, 3]) ∧
    Ready (.cvtHsl .rgb) (image 1 [1, 2, 3]) ∧ Ready (.cvtHsi .rgba) (image 1 [1, 2, 3, 4]) ∧
    Ready (.cvtYuv .rgb) (image 1 [1, 2, 3]) ∧ HostKeptOff (.cvtYuv .rgb) (image 1 [1, 2, 3]) ∧
    Ready (.cvtRgb .rgb) racedAround ∧ HostKeptOff (.cvtRgb .rgb) racedAround :=
  ⟨ready_of_checks (by decide +kernel), ready_of_checks (by decide +kernel),
    ready_of_checks (by decide +kernel), ready_of_checks (by decide +kernel),
    ready_of_checks (by decide +kernel), keptOff_of_quiet rfl, ready_of_checks (by decide +kernel),
    racedAround_keptOff⟩

theorem witness_InverseConversionsConvertEveryPixel :
    Ready (.invRgb .rgba) (image 1 [1, 2, 3, 4]) ∧ Ready (.invHsv .rgb) (image 1 [1, 2, 3]) ∧
    Ready (.invHsl .rgb) (image 1 [1, 2, 3]) ∧ Ready (.invHsi .rgba) (image 1 [1, 2, 3, 4]) ∧
    Ready (.invYuv .rgb) (image 1 [1, 2, 3]) ∧ HostKeptOff (.invYuv .rgb) (image 1 [1, 2, 3]) :=
  ⟨ready_of_checks (by decide +kernel), ready_of_checks (by decide +kernel),
    ready_of_checks (by decide +kernel), ready_of_checks (by decide +kernel),
    ready_of_checks (by decide +kernel), keptOff_of_quiet rfl⟩

theorem witness_InverseCornerCases :
    (84#8 : Byte).toNat < 85 ∧ 85 ≤ (85#8 : Byte).toNat ∧ (169#8 : Byte).toNat < 170 ∧
    170 ≤ (170#8 : Byte).toNat ∧ hsiSector 84 = 0 ∧ hsiSector 85 = 1 ∧ hsiSector 169 = 1 ∧
    hsiSector 170 = 2 ∧ hsiSector 255 = 2 ∧ rq.getD 85 0 = -4294967296 := by decide

theorem witness_HsiHueIsWellDefined :
    hsiNumerator 255 255 0 = 255 ∧ hsiSquare 255 255 0 = 255 * 255 ∧
    hsiNumerator 255 0 255 = 255 ∧ hsiSquare 255 0 255 = 255 * 255 ∧
    hsiNumerator 0 255 255 = -510 ∧ hsiNumerator 0 255 255 * hsiNumerator 0 255 255 =
      4 * hsiSquare 0 255 255 ∧
    forwardHsi ⟨255#8, 255#8, 0#8⟩ = ⟨43#8, 255#8, 170#8⟩ ∧
    forwardHsi ⟨0#8, 255#8, 255#8⟩ = ⟨128#8, 255#8, 170#8⟩ ∧
    forwardHsi ⟨255#8, 0#8, 255#8⟩ = ⟨213#8, 255#8, 170#8⟩ := by decide +kernel

theorem witness_LumaFacts :
    (254#8 : Byte).toNat ≤ (255#8 : Byte).toNat ∧
    (299 * (0#8 : Byte).toNat + 587 * (0#8 : Byte).toNat + 114 * (250#8 : Byte).toNat) % 1000 = 500 := by
  decide

theorem witness_LumaWritesTheLumaPlane : Ready (.luma .rgba) (image 1 [255, 0, 0, 9]) :=
  ready_of_checks (by decide +kernel)

theorem witness_AvgIsTheTruncatedMean : Ready (.avg .gray) (image 2 [0, 255]) :=
  ready_of_checks (by decide +kernel)

theorem witness_XchCopiesOneChannel : Ready (.xch .rgb 2#4) (image 1 [1, 2, 3]) :=
  ready_of_checks (by decide +kernel)

theorem witness_IchWritesOneChannelOnly :
    Ready (.ich .rgba 3#4) (image 1 [9]) ∧ 2 < Fmt.rgba.channels ∧ 2 ≠ (3#4 : BitVec 4).toNat :=
  ⟨ready_of_checks (by decide +kernel), by decide, by decide⟩

theorem witness_XchThenIchMovesOneChannel :
    (∃ t v, exec (.xch .rgb 2#4) (image 1 [1, 2, 3]) = .next t ∧
      Ready (.xch .rgb 2#4) (image 1 [1, 2, 3]) ∧
      Ready (.ich .rgb 2#4) { t with src := 0x2000#32, dst := 0x3000#32 } ∧
      exec (.ich .rgb 2#4) { t with src := 0x2000#32, dst := 0x3000#32 } = .next v) ∧
    (∃ t v, exec (.ich .rgb 0#4) (image 1 [9]) = .next t ∧ Ready (.ich .rgb 0#4) (image 1 [9]) ∧
      Ready (.xch .rgb 0#4) { t with src := 0x2000#32, dst := 0x3000#32 } ∧
      exec (.xch .rgb 0#4) { t with src := 0x2000#32, dst := 0x3000#32 } = .next v) := by
  have h1 : Ready (.xch .rgb 2#4) (image 1 [1, 2, 3]) := ready_of_checks (by decide +kernel)
  have h2 : Ready (.ich .rgb 2#4)
      { (effectOf (.xch .rgb 2#4) (image 1 [1, 2, 3])).complete with src := 0x2000#32, dst := 0x3000#32 } :=
    ready_of_checks (by decide +kernel)
  have h3 : Ready (.ich .rgb 0#4) (image 1 [9]) := ready_of_checks (by decide +kernel)
  have h4 : Ready (.xch .rgb 0#4)
      { (effectOf (.ich .rgb 0#4) (image 1 [9])).complete with src := 0x2000#32, dst := 0x3000#32 } :=
    ready_of_checks (by decide +kernel)
  exact ⟨⟨_, _, exec_of_ready h1, h1, h2, exec_of_ready h2⟩, ⟨_, _, exec_of_ready h3, h3, h4, exec_of_ready h4⟩⟩

theorem witness_BinComparesStrictly : Ready (.bin .gray) { image 1 [7] with level := 255#32 } :=
  ready_of_checks (by decide +kernel)

theorem witness_BinAutoUsesTheAverage : Ready (.binA .gray) { image 1 [7] with level := 256#32 } :=
  ready_of_checks (by decide +kernel)

theorem witness_BinAutoIsAvgThenBin :
    ∃ t u v, exec (.binA .gray) (image 2 [7, 9]) = .next t ∧ exec (.avg .gray) (image 2 [7, 9]) = .next u ∧
      exec (.bin .gray) { u with level := u.avg.setWidth 32 } = .next v ∧
      Ready (.binA .gray) (image 2 [7, 9]) ∧ HostKeptOff (.binA .gray) (image 2 [7, 9]) := by
  have h1 : Ready (.binA .gray) (image 2 [7, 9]) := ready_of_checks (by decide +kernel)
  have h2 : Ready (.avg .gray) (image 2 [7, 9]) := ready_of_checks (by decide +kernel)
  rcases exec_cases (.bin .gray)
      { (effectOf (.avg .gray) (image 2 [7, 9])).complete with
        level := (effectOf (.avg .gray) (image 2 [7, 9])).complete.avg.setWidth 32 } with
    ⟨_, _, h⟩ | ⟨_, h⟩
  · exact ⟨_, _, _, exec_of_ready h1, exec_of_ready h2, h, h1, keptOff_of_quiet rfl⟩
  · exact ⟨_, _, _, exec_of_ready h1, exec_of_ready h2, h, h1, keptOff_of_quiet rfl⟩

theorem witness_BinaryImageProperties :
    Ready (.bin .gray) { image 1 [7] with level := 255#32 } ∧ Ready (.binA .gray) (image 1 [7]) ∧
    HostKeptOff (.binA .gray) (image 1 [7]) ∧ (254#8 : Byte).toNat ≤ (255#8 : Byte).toNat ∧
    binarise 254 255#8 = 255#8 ∧ binarise 255 255#8 = 0#8 :=
  ⟨ready_of_checks (by decide +kernel), ready_of_checks (by decide +kernel), keptOff_of_quiet rfl,
    by decide, by decide, by decide⟩

theorem witness_HistCountsEveryValue :
    Ready (.hist .gray) (image 1 [7]) ∧ Ready (.hist .rgb) (image 1 [1, 2, 3]) ∧
    Ready (.hist .rgba) (image 1 [1, 2, 3, 4]) :=
  ⟨ready_of_checks (by decide +kernel), ready_of_checks (by decide +kernel),
    ready_of_checks (by decide +kernel)⟩

theorem witness_HistogramsConserveThePixelCount :
    ∃ t, exec (.hist .gray) (image 1 [7]) = .next t ∧ Ready (.hist .gray) (image 1 [7]) ∧
      t.hv.getLsbD 0 = true ∧ t.hv.getLsbD 1 = false ∧ t.hv.getLsbD 2 = false ∧ t.hv.getLsbD 3 = true := by
  have h : Ready (.hist .gray) (image 1 [7]) := ready_of_checks (by decide +kernel)
  exact ⟨_, exec_of_ready h, h, rfl, rfl, rfl, rfl⟩

theorem witness_HistogramOrderIndependence :
    Ready (.hist .gray) (image 1 [7]) ∧ HostKeptOff (.hist .gray) (image 1 [7]) ∧ Fmt.gray.channels = 1 ∧
    4294967294 + 1 < 2 ^ 32 ∧
    ∀ (p : Fin (image 1 [7]).npix) (c : Nat), c < 1 →
      pixelByte (image 1 [7]).mem (image 1 [7]).src.toNat 1 p.val c =
        pixelByte (image 1 [7]).mem (image 1 [7]).src.toNat 1 ((Equiv.refl _) p).val c :=
  ⟨ready_of_checks (by decide +kernel), keptOff_of_quiet rfl, rfl, by decide, fun _ _ _ => rfl⟩

theorem witness_AllBlackHistogram :
    Ready (.hist .rgb) (image 2 []) ∧ Ready (.hist .gray) (image 2 []) ∧
    HostKeptOff (.hist .rgb) (image 2 []) ∧
    (∀ a, readsFrom (.hist .rgb) (image 2 []) a → (image 2 []).mem.read a = 0#8) ∧
    readsFrom (.hist .rgb) (image 2 []) 0x1005 :=
  ⟨ready_of_checks (by decide +kernel), ready_of_checks (by decide +kernel), keptOff_of_quiet rfl,
    fun _ _ => rfl, 3, rfl, by decide, by decide⟩

theorem witness_EqmapBuildsTheMap :
    Ready (.eqmap .gray 3#4) counted ∧ 1 ≤ (counted.bank (3#4 : BitVec 4).toNat).total :=
  ⟨ready_of_checks (by decide +kernel), by decide +kernel⟩

theorem mapped255_tablesMean : TablesMean mapped255 where
  valid := Or.inl rfl
  counted := fun b _ h => absurd h (by simp [mapped255, image, State.reset])
  agree := fun b c _ _ h => absurd h (by simp [mapped255, image, State.reset])
  rising := fun _ i j _ => by simp [mapped255]
  top := fun _ => by simp [mapped255]
  sum := by decide

theorem witness_ValidMapRisesTo255 :
    (TablesMean mapped255 ∧ step mapped255 = .next mapped255 ∧ mapped255.mv = true) ∧
    ∃ t, (running 0x350#32 counted).hv.getLsbD 3 = true ∧ 1 ≤ ((running 0x350#32 counted).bank 3).total ∧
      1 ≤ ((running 0x350#32 counted).bank 0).total ∧
      step (running 0x350#32 counted) = .next t ∧ t.mv = true :=
  have h : step (running 0x350#32 counted) = exec (.eqmap .gray 3#4) (running 0x350#32 counted) := rfl
  ⟨⟨mapped255_tablesMean, rfl, rfl⟩, _, rfl, by decide +kernel, by decide +kernel,
    h.trans (exec_of_ready (ready_of_checks (by decide +kernel))), rfl⟩

theorem witness_MapCornerCases :
    1 ≤ (single 7).total ∧ (single 7).cumsum 6 = 0 ∧ (single 7).cumsum 7 = 4 ∧
    (∀ j : Fin 256, j ≠ 7 → (single 7)[j] = 0#32) ∧ (∀ j : Fin 256, 7 < j → (single 7)[j] = 0#32) ∧
    (∀ j : Fin 256, j ≠ 0 → (single 0)[j] = 0#32) ∧ (∀ j : Fin 256, j ≠ 255 → (single 255)[j] = 0#32) :=
  ⟨by decide +kernel, by decide +kernel, by decide +kernel, fun j h => single_other h,
    fun j h => single_other (ne_of_gt h), fun j h => single_other h, fun j h => single_other h⟩

theorem witness_EqappLooksUpEverySample : Ready (.eqapp .gray) mapped255 :=
  ready_of_checks (by decide +kernel)

theorem witness_EqappPreservesOrder :
    TablesMean mapped255 ∧ Ready (.eqapp .gray) mapped255 ∧ HostKeptOff (.eqapp .gray) mapped255 ∧
    mapped255.npix = 2 ∧
    (mapped255.mem.read (0x1000 + 0)).toNat ≤ (mapped255.mem.read (0x1000 + 1)).toNat :=
  ⟨mapped255_tablesMean, ready_of_checks (by decide +kernel), keptOff_of_quiet rfl, by decide,
    by decide +kernel⟩

theorem witness_MemoryOutsideTheDestinationSetStays :
    (∃ t, exec (.ich .rgb 1#4) (image 1 [9]) = .next t) ∧ stores (.ich .rgb 1#4) (image 1 [9]) 0x2001 ∧
    ¬ stores (.ich .rgb 1#4) (image 1 [9]) 0x2000 ∧ ¬ stores (.luma .rgb) (image 1 []) 0x2001 ∧
    stores (.luma .rgb) (image 1 []) 0x2000 ∧ TakesFault (.eqapp .gray) State.reset .eNomap := by
  refine ⟨⟨_, exec_of_ready (ready_of_checks (by decide +kernel))⟩, ⟨0, by decide, by decide⟩, ?_, ?_,
    ⟨1, rfl, by decide, by decide⟩, takesFault_of_checks (by decide)⟩
  · rintro ⟨p, hp, h⟩
    have h0 : p = 0 := by
      have : (image 1 [9]).npix = 1 := by decide
      omega
    subst h0
    exact absurd h (by decide)
  · rintro ⟨d, hd, -, h⟩
    cases hd
    exact absurd h (by decide)

theorem witness_CommandsWriteTheirOwnRegistersOnly :
    (∃ t, exec (.avg .gray) (image 1 [9]) = .next t) ∧ Ready (.avg .gray) (image 1 [9]) ∧
    TakesFault (.avg .gray) State.reset .eEmpty :=
  ⟨⟨_, exec_of_ready (ready_of_checks (by decide +kernel))⟩, ready_of_checks (by decide +kernel),
    takesFault_of_checks (by decide)⟩

/-- Another state with the same sample where `image 1 [9]` has its one, and other registers and tables. -/
def otherwise9 : State := { image 1 [9, 5] with avg := 3#8, level := 7#32, hv := 1#4, mv := true }

theorem witness_OutputsDependOnOperandsAndSourceOnly :
    ∃ t v, Ready (.binA .gray) (image 1 [9]) ∧ exec (.binA .gray) (image 1 [9]) = .next t ∧
      exec (.binA .gray) otherwise9 = .next v ∧ SameInputs (.binA .gray) (image 1 [9]) otherwise9 ∧
      HostKeptOff (.binA .gray) (image 1 [9]) ∧ HostKeptOff (.binA .gray) otherwise9 := by
  have h1 : Ready (.binA .gray) (image 1 [9]) := ready_of_checks (by decide +kernel)
  have h2 : Ready (.binA .gray) otherwise9 := ready_of_checks (by decide +kernel)
  refine ⟨_, _, h1, exec_of_ready h1, exec_of_ready h2,
    ⟨fun _ => ⟨rfl, rfl⟩, fun _ => rfl, fun h => absurd h (by decide), fun _ _ h => Instr.noConfusion h,
      fun _ h => Instr.noConfusion h, ?_⟩, keptOff_of_quiet rfl, keptOff_of_quiet rfl⟩
  rintro a ⟨n, hn, ha, hb⟩
  cases hn
  have e1 : (image 1 [9]).npix = 1 := by decide
  have e2 : (image 1 [9]).src.toNat = 0x1000 := by decide
  have : a = 0x1000 := by omega
  subst this
  decide +kernel

theorem witness_ZeroAreaImages :
    (image 0 []).npix = 0 ∧ (Instr.hist .rgba).wellFormed = true ∧ (Instr.hist .rgba).needsPixels = true ∧
    (Instr.bin .gray).destChannels ≠ none ∧ (Instr.bin .gray).needsPixels = false ∧
    ({ image 0 [] with level := 255#32 } : State).level.toNat ≤ 255 ∧
    mapMissing (.bin .gray) (image 0 []) = false ∧ (∃ t, exec (.nop .gray) (image 0 []) = .next t) ∧
    ∃ t, exec (.eqmap .gray 0#4) counted = .next t :=
  ⟨by decide, by decide, by decide, by decide, by decide, by decide, by decide, ⟨_, rfl⟩,
    _, exec_of_ready (ready_of_checks (by decide +kernel))⟩

theorem witness_TablesSurvive :
    (∃ t, step (running 0x40#32 (image 1 [7])) = .next t) ∧ State.reset.hv.getLsbD 3 = false ∧
    State.reset.mv = false :=
  have h : step (running 0x40#32 (image 1 [7])) = exec (.hist .gray) (running 0x40#32 (image 1 [7])) := rfl
  ⟨⟨_, h.trans (exec_of_ready (ready_of_checks (by decide +kernel)))⟩, by decide, rfl⟩

theorem reset_flagsFit : FlagsFit State.reset := by constructor <;> simp [State.reset]

theorem running_flagsFit : FlagsFit (running 0x51#32 State.reset) := by
  constructor <;> simp [running, State.reset]

theorem latched_flagsFit : FlagsFit latched := by constructor <;> simp [latched, State.reset]

theorem witness_BusyFallsOnlyWithDoneOrErr :
    ∃ t, FlagsFit (running 0x51#32 State.reset) ∧ step (running 0x51#32 State.reset) = .next t ∧
      (running 0x51#32 State.reset).busy = true ∧ t.busy = false :=
  have h : step (running 0x51#32 State.reset) = exec (.eqapp .gray) (running 0x51#32 State.reset) := rfl
  ⟨_, running_flagsFit, h.trans (exec_of_fault (c := .eNomap) (takesFault_of_checks (by decide))), rfl, rfl⟩

theorem witness_EveryCommandEnds :
    ({ running 0x51#32 State.reset with agenda := [.host (.regRead .word 0x3FFC#14)] } : State).busy = true ∧
    supportedAccess .word 0x3FFC#14 = true := by decide

theorem witness_HostReadReturnsTheRegister :
    State.reset.inReset = false ∧ State.reset.busy = false ∧ (0x3FFC#14).toNat % 4 = 0 ∧
    regAt 0x000#14 = .src ∧ regAt 0x038#14 = .id ∧ regAt 0x03C#14 = .reserved ∧ regAt 0x0FFC#14 = .reserved ∧
    regAt 0x1000#14 = .hist 0 0 ∧ regAt 0x1FFC#14 = .hist 3 255 ∧ regAt 0x2000#14 = .map 0 ∧
    regAt 0x23FC#14 = .map 255 ∧ regAt 0x2400#14 = .reserved ∧ regAt 0x3FFC#14 = .reserved ∧
    State.reset.errCode = .eNone ∧ ({ latched with errCode := .eOverlap } : State).errCode = .eOverlap := by
  decide

theorem witness_HostWriteEffects :
    State.reset.inReset = false ∧ (0x038#14).toNat % 4 = 0 ∧ 0x038 ≤ (0x038#14).toNat ∧
    0x038 ≤ (0x3FFC#14).toNat ∧ (0x02C#14).toNat ∈ [0x010, 0x014, 0x018, 0x01C, 0x028, 0x02C] ∧
    (1#32).getLsbD 0 = true ∧ (0xFFFFFFFE#32).getLsbD 0 = false := by decide

theorem witness_OddRegisterAccessesAreRefused :
    AccessSize.burst ≠ .word ∧ (0x001#14).toNat % 4 ≠ 0 ∧ (0x003#14).toNat % 4 ≠ 0 := by decide

theorem witness_InterruptOutputIsTheEnabledFlags :
    FlagsFit latched ∧ ({ State.reset with inReset := true } : State).inReset = true :=
  ⟨latched_flagsFit, rfl⟩

theorem witness_WritingErrReturnsFromTheFault :
    latched.err = true ∧ latched.busy = false ∧ latched.inReset = false := by decide

theorem witness_FaultsDoNotNest :
    ∃ t, FlagsFit latched ∧ latched.err = true ∧ step latched = .next t ∧ t.err = true ∧
      latched.inReset = false :=
  ⟨_, latched_flagsFit, rfl, rfl, rfl, rfl⟩

theorem witness_ResetGivesEveryValueOfTheTable :
    (running 0x51#32 counted).inReset = false ∧ (1#32).getLsbD 0 = true ∧ counted.busy = false ∧
    ({ counted with agenda := [.resetAssert, .resetRelease, .engine] } : State).agenda =
      .resetAssert :: .resetRelease :: [.engine] ∧
    ({ running 0x51#32 counted with agenda := [.resetRelease] } : State).agenda = .resetRelease :: [] := by
  decide

theorem witness_AbandonedBytesAreOldOrNew :
    (running 0x1020#32 (image 1 [255, 0, 0])).busy = true ∧
    (running 0x1020#32 (image 1 [255, 0, 0])).inReset = false ∧ (3#32).getLsbD 0 = true ∧
    ({ running 0x1020#32 (image 1 [255, 0, 0]) with agenda := [.resetAssert] } : State).agenda =
      .resetAssert :: [] ∧
    decode (running 0x1020#32 (image 1 [255, 0, 0])).cmd = .instr (.luma .rgb) ∧
    ¬ stores (.luma .rgb) (image 1 [255, 0, 0]) 0x2001 := by
  refine ⟨rfl, rfl, by decide, rfl, by decide, ?_⟩
  rintro ⟨d, hd, -, h⟩
  cases hd
  exact absurd h (by decide)

theorem witness_StepKeepsMemoryCanonical :
    MemoryCanonical (image 2 [0, 7]) ∧ step (image 2 [0, 7]) = .next (image 2 [0, 7]) :=
  ⟨(by decide +kernel : (image 2 [0, 7]).mem.wf), rfl⟩

theorem witness_StepKeepsFlagsFit : FlagsFit latched ∧ step latched = .next latched :=
  ⟨latched_flagsFit, rfl⟩

theorem witness_StepKeepsTablesMean : TablesMean mapped255 ∧ step mapped255 = .next mapped255 :=
  ⟨mapped255_tablesMean, rfl⟩

end Sys2Proof.Tests
end

/-! What the three ways of a reset leave (`10_state.md` R47, `70_reset_and_hazards.md` R290, R291), and the
interrupt output (`10_state.md` R46). What the host sees of a block in its reset state follows from
`BlockReset` alone, so one lemma serves the reset state, the soft reset and the reset input. -/

namespace Sys2Proof.Machine

/-! ## What the host sees of a block in its reset state -/

theorem flags_of_blockReset {t : State} (h : BlockReset t) :
    t.busy = false ∧ t.done = false ∧ t.err = false ∧ t.drop = false := by
  obtain ⟨-, -, -, -, -, -, -, -, -, hbusy, hdone, herr, hdrop, -⟩ := h
  exact ⟨hbusy, hdone, herr, hdrop⟩

theorem validBits_of_blockReset {t : State} (h : BlockReset t) : t.hv = 0#4 ∧ t.mv = false := by
  obtain ⟨-, -, -, -, -, -, -, -, -, -, -, -, -, hhv, hmv, -⟩ := h
  exact ⟨hhv, hmv⟩

/-- No flag is set, so none raises the interrupt, whatever the enables (R46). -/
theorem irq_of_blockReset {t : State} (h : BlockReset t) : t.irq = false := by
  obtain ⟨-, hdone, herr, hdrop⟩ := flags_of_blockReset h
  simp [State.irq, hdone, herr, hdrop]

/-- No bank is valid and no command runs, so the `HIST` window reads zero (R41). -/
theorem regValue_hist_of_blockReset {t : State} (h : BlockReset t) (b i : Nat) :
    t.regValue (.hist b i) = 0#32 := by
  obtain ⟨hbusy, -⟩ := flags_of_blockReset h
  obtain ⟨hhv, -⟩ := validBits_of_blockReset h
  simp [State.regValue, State.whenIdle, State.histWord, hbusy, hhv]

/-- There is no map and no command runs, so the `MAP` window reads zero (R43). -/
theorem regValue_map_of_blockReset {t : State} (h : BlockReset t) (i : Nat) :
    t.regValue (.map i) = 0#32 := by
  obtain ⟨hbusy, -⟩ := flags_of_blockReset h
  obtain ⟨-, hmv⟩ := validBits_of_blockReset h
  simp [State.regValue, State.whenIdle, State.mapWord, hbusy, hmv]

/-- The whole table of R47 as the host sees it. -/
theorem resetView_of_blockReset {t : State} (h : BlockReset t) :
    BlockReset t ∧ t.irq = false ∧ t.regValue .id = 0x43534331#32 ∧
      (∀ b i, t.regValue (.hist b i) = 0#32) ∧ ∀ i, t.regValue (.map i) = 0#32 :=
  ⟨h, irq_of_blockReset h, rfl, regValue_hist_of_blockReset h, regValue_map_of_blockReset h⟩

/-! ## What each reset leaves -/

theorem blockReset_reset : BlockReset State.reset := by simp [BlockReset, State.reset]

theorem blockReset_softReset (s : State) : BlockReset s.softReset := by simp [BlockReset, State.softReset]

theorem blockReset_assertReset (s : State) : BlockReset s.assertReset := by
  simp [BlockReset, State.assertReset]

theorem blockReset_releaseReset (s : State) : BlockReset s.releaseReset := by
  simp [BlockReset, State.releaseReset]

/-- The count of the host's actions is no register of the block. -/
theorem blockReset_tick {s : State} (h : BlockReset s) : BlockReset s.tick := h

/-- With no command running there is none to abandon (R292). -/
theorem memAbandoned_of_idle {s : State} (h : s.busy = false) : s.memAbandoned = s.mem := by
  simp [State.memAbandoned, h]

/-- Every reset leaves the memory of an abandoned command; with none running it is the memory before. -/
theorem sameMemory_of_memAbandoned {s t : State} (hb : s.busy = false) (h : t.mem = s.memAbandoned) :
    SameMemory s t := fun a => by rw [h, memAbandoned_of_idle hb]

/-! ## The events that reset the block -/

/-- A host write to `CTRL` with bit 0 set is a soft reset (R38, R232). -/
theorem hostAct_ctrl_reset {s : State} {v : Word} (hin : s.inReset = false) (hv : v.getLsbD 0 = true) :
    hostAct (.regWrite .word 0x034#14 v) s = .next s.softReset.tick := by
  have hsup : supportedAccess .word 0x034#14 = true := by decide
  have hreg : regAt 0x034#14 = .ctrl := by decide
  simp [hostAct, hsup, State.portWrite, hin, hreg, State.writeReg, hv]

theorem step_of_resetAssert {s : State} {rest : List Event} (h : s.agenda = .resetAssert :: rest) :
    step s = .next s.popEvent.assertReset := by
  simp [step_eq, State.engineMoves, outsideTurn, h]

theorem step_of_resetRelease {s : State} {rest : List Event} (h : s.agenda = .resetRelease :: rest) :
    step s = .next s.popEvent.releaseReset := by
  simp [step_eq, State.engineMoves, outsideTurn, h]

/-! ## The statements -/

/-- Settles O55: each reset leaves `BlockReset`, from which the rest of the table follows, and gives back
image memory as it was where no command was abandoned. -/
theorem resetGivesEveryValueOfTheTable : Obligations.ResetGivesEveryValueOfTheTable := by
  unfold Obligations.ResetGivesEveryValueOfTheTable
  refine ⟨resetView_of_blockReset blockReset_reset, ?soft, ?hardware, ?release⟩
  case soft =>
    intro s v hin hv
    exact ⟨_, hostAct_ctrl_reset hin hv,
      resetView_of_blockReset (blockReset_tick (blockReset_softReset s)),
      fun hb => sameMemory_of_memAbandoned hb rfl⟩
  case hardware =>
    intro s rest hag
    have hasserted : s.popEvent.assertReset.agenda = .resetRelease :: rest := by
      simp [State.assertReset, hag]
    refine ⟨_, _, step_of_resetAssert hag, irq_of_blockReset (blockReset_assertReset _), rfl,
      step_of_resetRelease hasserted, rfl, resetView_of_blockReset (blockReset_releaseReset _),
      congrArg List.tail hasserted, fun hb a => ?_⟩
    have hassert : SameMemory s.popEvent s.popEvent.assertReset := sameMemory_of_memAbandoned hb rfl
    have hrelease : SameMemory s.popEvent.assertReset.popEvent
        s.popEvent.assertReset.popEvent.releaseReset := sameMemory_of_memAbandoned rfl rfl
    exact (hrelease a).trans (hassert a)
  case release =>
    intro s rest hag
    exact ⟨_, step_of_resetRelease hag, rfl, resetView_of_blockReset (blockReset_releaseReset _),
      congrArg List.tail hag, fun hb => sameMemory_of_memAbandoned (s := s.popEvent) hb rfl⟩

/-- Settles O52: out of reset `irq` is the formula; an asserted reset input drives it low, and the flag
invariant then holds the flags at their reset values. -/
theorem interruptOutputIsTheEnabledFlags : Obligations.InterruptOutputIsTheEnabledFlags := by
  unfold Obligations.InterruptOutputIsTheEnabledFlags
  have low (s : State) (hin : s.inReset = true) : s.irq = false := by simp [State.irq, hin]
  refine ⟨fun s hfit => ?_, low⟩
  cases hin : s.inReset with
  | false => simp [State.irq, hin]
  | true =>
    obtain ⟨-, hdone, herr, hdrop⟩ := flags_of_blockReset (hfit.held hin)
    simp [low s hin, hdone, herr, hdrop]

end Sys2Proof.Machine

/-! Where in image memory a command can write (`20_memory.md` R67, R70): inside its destination set where it
completes, nowhere where it takes a fault (`60_exceptions.md` R255). -/

namespace Sys2Proof.Machine

/-- A command that takes a fault leaves image memory as it was (R255). -/
theorem mem_of_exec_of_takesFault {i : Instr} {s t : State} {c : ErrorCode} (hc : TakesFault i s c)
    (h : exec i s = .next t) : t.mem = s.mem := by
  rw [exec_of_fault hc] at h
  cases h
  exact State.takeFault_mem c s

/-- However a command ends, a byte outside its destination set keeps its value (R70). -/
theorem read_of_exec_of_not_stores {i : Instr} {s t : State} {a : Nat} (h : exec i s = .next t)
    (ha : ¬ stores i s a) : t.mem.read a = s.mem.read a := by
  rcases exec_inversion h with ⟨c, hc, -⟩ | ⟨-, rfl⟩
  · rw [mem_of_exec_of_takesFault hc h]
  · rw [State.complete_mem, read_effectOf_other i s a ha]

/-- Settles O42: a completed command stores in its destination set only, and a fault stores nothing. -/
theorem memoryOutsideTheDestinationSetStays : Obligations.MemoryOutsideTheDestinationSetStays := by
  unfold Obligations.MemoryOutsideTheDestinationSetStays
  exact fun i s t h =>
    ⟨fun a ha => read_of_exec_of_not_stores h ha, fun c hc => mem_of_exec_of_takesFault hc h⟩

end Sys2Proof.Machine

/-! The decode function by its fields as numbers (`30_encoding.md` R103): a word with `RSV = 0` decodes by the
row of the opcode table that its `OPC`, `ARG` and `FMT` name, and running the accepted word follows what it
decodes to (R92, R256). -/

namespace Sys2Proof

/-! ## The rows that give no instruction -/

theorem ne_of_toNat_lt {n : Nat} {a c : BitVec 4} (ha : n ≤ a.toNat) (hc : c.toNat < n) : a ≠ c := by
  rintro rfl
  omega

/-- `CVT` of a colour-space code above 4 (R96). -/
theorem decodeCvt_of_five_le {a : BitVec 4} (h : 5 ≤ a.toNat) (f : Fmt) :
    decodeCvt a f = .badColourSpace := by
  simp [decodeCvt, ne_of_toNat_lt h]

/-- `INV` of a colour-space code above 4 (R96). -/
theorem decodeInv_of_five_le {a : BitVec 4} (h : 5 ≤ a.toNat) (f : Fmt) :
    decodeInv a f = .badColourSpace := by
  simp [decodeInv, ne_of_toNat_lt h]

/-- The `BIN` opcode with an `ARG` above 1 (R98). -/
theorem decodeBin_of_one_lt {a : BitVec 4} (h : 1 < a.toNat) (f : Fmt) : decodeBin a f = .illegal := by
  simp [decodeBin, ne_of_toNat_lt (n := 2) h]

/-- The opcodes whose `ARG` must be zero (R98). -/
theorem decodeOpc_of_arg_ne_zero {o : BitVec 8} {a : BitVec 4}
    (ho : o ∈ [0x00#8, 0x20#8, 0x21#8, 0x40#8, 0x51#8]) (ha : a ≠ 0#4) (f : Fmt) :
    decodeOpc o a f = .illegal := by
  have hrefuse (i : Instr) : decodeNoArg a i = .illegal := if_neg ha
  simp only [List.mem_cons, List.not_mem_nil, or_false] at ho
  rcases ho with rfl | rfl | rfl | rfl | rfl
  · exact hrefuse (.nop f)
  · exact hrefuse (.luma f)
  · exact hrefuse (.avg f)
  · exact hrefuse (.hist f)
  · exact hrefuse (.eqapp f)

/-- The opcodes of no row (R98). -/
theorem decodeOpc_of_unknown {o : BitVec 8}
    (ho : o ∉ [0x00#8, 0x10#8, 0x11#8, 0x20#8, 0x21#8, 0x22#8, 0x23#8, 0x30#8, 0x40#8, 0x50#8, 0x51#8])
    (a : BitVec 4) (f : Fmt) : decodeOpc o a f = .illegal := by
  simp only [List.mem_cons, List.not_mem_nil, or_false, not_or] at ho
  simp [decodeOpc, ho]

/-! ## Words by their fields as numbers -/

theorem rsvField_eq_zero_iff (w : Word) : rsvField w = 0#18 ↔ w.toNat / 16384 = 0 := by
  rw [← (toNat_fields w).1, ← BitVec.toNat_inj]
  rfl

theorem opcField_mem_iff (w : Word) (l : List (BitVec 8)) :
    opcField w ∈ l ↔ w.toNat % 256 ∈ l.map BitVec.toNat := by
  obtain ⟨-, -, -, hopc⟩ := toNat_fields w
  rw [← hopc, List.mem_map_of_injective BitVec.toNat_injective]

theorem fmtOfCode_fmtField {w : Word} {f : Fmt} (hf : f.code.toNat = w.toNat / 4096 % 4) :
    fmtOfCode (fmtField w) = f := by
  obtain ⟨-, hfmt, -, -⟩ := toNat_fields w
  rw [← BitVec.eq_of_toNat_eq (hf.trans hfmt.symm), fmtOfCode_code]

/-- A reserved bit set refuses the word (R98). -/
theorem decode_of_rsv_ne_zero {w : Word} (h : w.toNat / 16384 ≠ 0) : decode w = .illegal :=
  if_pos (mt (rsvField_eq_zero_iff w).1 h)

/-- With no reserved bit set the opcode map decides. -/
theorem decode_of_rsv_eq_zero {w : Word} {f : Fmt} (hf : f.code.toNat = w.toNat / 4096 % 4)
    (h : w.toNat / 16384 = 0) : decode w = decodeOpc (opcField w) (argField w) f := by
  rw [decode, if_neg (not_not.2 ((rsvField_eq_zero_iff w).2 h)), fmtOfCode_fmtField hf]

/-- The row a word names by its `OPC` alone. -/
theorem decode_of_opc {w : Word} {f : Fmt} (hf : f.code.toNat = w.toNat / 4096 % 4)
    (hrsv : w.toNat / 16384 = 0) (o : BitVec 8) (ho : w.toNat % 256 = o.toNat) :
    decode w = decodeOpc o (BitVec.ofNat 4 (w.toNat / 256 % 16)) f := by
  obtain ⟨-, -, harg, hopc⟩ := toNat_fields w
  rw [decode_of_rsv_eq_zero hf hrsv, BitVec.eq_of_toNat_eq (hopc.trans ho), ← harg,
    BitVec.ofNat_toNat, BitVec.setWidth_eq]

/-- The row a word names by its `OPC` and `ARG`. -/
theorem decode_of_opc_arg {w : Word} {f : Fmt} (hf : f.code.toNat = w.toNat / 4096 % 4)
    (hrsv : w.toNat / 16384 = 0) (o : BitVec 8) (a : BitVec 4) (ho : w.toNat % 256 = o.toNat)
    (ha : w.toNat / 256 % 16 = a.toNat) : decode w = decodeOpc o a f := by
  rw [decode_of_opc hf hrsv o ho, ha, BitVec.ofNat_toNat, BitVec.setWidth_eq]

/-- `CVT` and `INV` of a colour-space code above 4 (R96). -/
theorem decode_of_five_le_arg {w : Word} {f : Fmt} (hf : f.code.toNat = w.toNat / 4096 % 4)
    (hrsv : w.toNat / 16384 = 0) (ho : w.toNat % 256 = 0x10 ∨ w.toNat % 256 = 0x11)
    (ha : 5 ≤ w.toNat / 256 % 16) : decode w = .badColourSpace := by
  have harg : 5 ≤ (BitVec.ofNat 4 (w.toNat / 256 % 16)).toNat := by
    rw [BitVec.toNat_ofNat]
    omega
  rcases ho with ho | ho
  · exact (decode_of_opc hf hrsv 0x10#8 ho).trans (decodeCvt_of_five_le harg f)
  · exact (decode_of_opc hf hrsv 0x11#8 ho).trans (decodeInv_of_five_le harg f)

end Sys2Proof

namespace Sys2Proof.Machine

/-! ## Running the accepted word -/

/-- An illegal word takes `E_ILLEGAL` (R256 check 1). -/
theorem runCommand_of_illegal {s : State} (h : decode s.cmd = .illegal) :
    runCommand s = .next (s.takeFault .eIllegal) := by
  rw [runCommand, h]

/-- A bad colour space takes `E_CSPACE` (R256 check 2). -/
theorem runCommand_of_badColourSpace {s : State} (h : decode s.cmd = .badColourSpace) :
    runCommand s = .next (s.takeFault .eCspace) := by
  rw [runCommand, h]

theorem runCommand_of_instr {s : State} {i : Instr} (h : decode s.cmd = .instr i) :
    runCommand s = exec i s := by
  rw [runCommand, h]

/-- Settles O2: the fields as numbers name the row of the opcode table, and a row's decoding is then what
the opcode map computes; the rows that give no instruction have lemmas of their own. -/
theorem decodeFunctionByFields : Obligations.DecodeFunctionByFields := by
  unfold Obligations.DecodeFunctionByFields
  intro w f hf
  refine ⟨decode_of_rsv_ne_zero, fun hrsv => ?byOpcode, ?outcome⟩
  case byOpcode =>
    have row := decode_of_opc hf hrsv
    have argRow := decode_of_opc_arg hf hrsv
    refine ⟨decode_of_five_le_arg hf hrsv, fun ho => ?cvt, fun ho => ?inv, row 0x22#8, row 0x23#8,
      row 0x50#8, fun ho => ?bin, argRow 0x00#8 0#4, argRow 0x20#8 0#4, argRow 0x21#8 0#4,
      argRow 0x40#8 0#4, argRow 0x51#8 0#4, fun ho ha => ?argNotZero, fun ho => ?unknown⟩
    case cvt =>
      exact ⟨argRow 0x10#8 0#4 ho, argRow 0x10#8 1#4 ho, argRow 0x10#8 2#4 ho, argRow 0x10#8 3#4 ho,
        argRow 0x10#8 4#4 ho⟩
    case inv =>
      exact ⟨argRow 0x11#8 0#4 ho, argRow 0x11#8 1#4 ho, argRow 0x11#8 2#4 ho, argRow 0x11#8 3#4 ho,
        argRow 0x11#8 4#4 ho⟩
    case bin =>
      refine ⟨argRow 0x30#8 0#4 ho, argRow 0x30#8 1#4 ho, fun ha => ?_⟩
      refine (row 0x30#8 ho).trans (decodeBin_of_one_lt ?_ f)
      rw [BitVec.toNat_ofNat]
      omega
    case argNotZero =>
      rw [decode_of_rsv_eq_zero hf hrsv]
      refine decodeOpc_of_arg_ne_zero ((opcField_mem_iff w _).2 ho) (fun h => ha ?_) f
      obtain ⟨-, -, harg, -⟩ := toNat_fields w
      rw [← harg, h]
      rfl
    case unknown =>
      rw [decode_of_rsv_eq_zero hf hrsv]
      exact decodeOpc_of_unknown (mt (opcField_mem_iff w _).1 ho) _ f
  case outcome =>
    rintro s rfl
    exact ⟨fun h => ⟨_, runCommand_of_illegal h, faulted_takeFault _ s⟩,
      fun h => ⟨_, runCommand_of_badColourSpace h, faulted_takeFault _ s⟩,
      fun i h => ⟨runCommand_of_instr h, fun c hc => ⟨_, exec_of_fault hc, faulted_takeFault c s⟩⟩⟩

end Sys2Proof.Machine

/-! A count as a sum over the pixels (`44_histogram.md` R212): it can be taken in another order, and in
parts that are summed at the end. -/

namespace Sys2Proof.Machine

/-- A counter sums, over the values counted, one for each value equal to its index. -/
theorem countRun_getElem_eq_sum (f : Nat → Byte) {n i : Nat} (hi : i < 256) (hn : n < 2 ^ 32) :
    ((countRun f n)[i]).toNat = ∑ p ∈ Finset.range n, if (f p).toNat = i then 1 else 0 := by
  rw [Bank.countRun_getElem f n i hi hn, Finset.card_filter]

/-- Counting the values in another order leaves the same bank. -/
theorem countRun_perm {f g : Nat → Byte} {n : Nat} (hn : n < 2 ^ 32) (σ : Equiv.Perm (Fin n))
    (h : ∀ p : Fin n, g p = f (σ p)) : countRun g n = countRun f n := by
  refine Vector.ext fun i hi => BitVec.eq_of_toNat_eq ?_
  rw [countRun_getElem_eq_sum g hi hn, countRun_getElem_eq_sum f hi hn, Finset.sum_range,
    Finset.sum_range]
  simp only [h]
  exact Equiv.sum_comp σ fun q : Fin n => if (f q).toNat = i then 1 else 0

/-- A count over `m + n` values is the sum, counter by counter, of the counts over the first `m` and over
the other `n`. -/
theorem countRun_add (f : Nat → Byte) {m n i : Nat} (hi : i < 256) (h : m + n < 2 ^ 32) :
    ((countRun f (m + n))[i]).toNat =
      ((countRun f m)[i]).toNat + ((countRun (fun p => f (m + p)) n)[i]).toNat := by
  rw [countRun_getElem_eq_sum f hi h, countRun_getElem_eq_sum f hi (by omega),
    countRun_getElem_eq_sum _ hi (by omega), Finset.sum_range_add]

/-- A format that `HIST` accepts and that is not `GRAY` has its three colour channels (R95). -/
theorem three_le_channels_of_hist {fmt : Fmt} (hw : (Instr.hist fmt).wellFormed = true)
    (hg : fmt ≠ .gray) : 3 ≤ fmt.channels := by
  cases fmt with
  | gray => exact absurd rfl hg
  | rgb => decide
  | rgba => decide
  | reserved => exact absurd hw (by decide)

/-- `u` holds the image of `s` with its pixels in the order `σ`. -/
def PermutedImage (n : Nat) (s u : State) (σ : Equiv.Perm (Fin s.npix)) : Prop :=
  u.npix = s.npix ∧ ∀ (p : Fin s.npix) (c : Nat), c < n →
    pixelByte u.mem u.src.toNat n p.val c = pixelByte s.mem s.src.toNat n (σ p).val c

/-- The banks of a grey image do not depend on the order of its pixels. -/
theorem grayBanks_perm {s u : State} {σ : Equiv.Perm (Fin s.npix)} (hs : HostKeptOff (.hist .gray) s)
    (hu : HostKeptOff (.hist .gray) u) (h : PermutedImage 1 s u σ) : u.grayBanks = s.grayBanks := by
  obtain ⟨hnpix, hpix⟩ := h
  have hbank : countRun (fun p => u.mem.read (u.src.toNat + p)) s.npix =
      countRun (fun p => s.mem.read (s.src.toNat + p)) s.npix :=
    countRun_perm (npix_lt s) σ fun p => by simpa [pixelByte] using hpix p 0 Nat.one_pos
  rw [grayBanks_of_quiet hs rfl, grayBanks_of_quiet hu rfl, hnpix]
  exact four_banks hbank rfl rfl hbank

/-- The banks of a colour image do not depend on the order of its pixels: each counts a function of the
pixel. -/
theorem colourBanks_perm {fmt : Fmt} {s u : State} {σ : Equiv.Perm (Fin s.npix)}
    (h3 : 3 ≤ fmt.channels) (hs : HostKeptOff (.hist fmt) s) (hu : HostKeptOff (.hist fmt) u)
    (h : PermutedImage fmt.channels s u σ) :
    u.colourBanks fmt.channels = s.colourBanks fmt.channels := by
  obtain ⟨hnpix, hpix⟩ := h
  have hpixel (p : Fin s.npix) : pixelAt u.mem u.src.toNat fmt.channels p =
      pixelAt s.mem s.src.toNat fmt.channels (σ p) := by
    simp only [pixelAt, hpix p 0 (by omega), hpix p 1 (by omega), hpix p 2 (by omega)]
  have hbank (v : Triple → Byte) :
      countRun (fun p => v (pixelAt u.mem u.src.toNat fmt.channels p)) s.npix =
        countRun (fun p => v (pixelAt s.mem s.src.toNat fmt.channels p)) s.npix :=
    countRun_perm (npix_lt s) σ fun p => congrArg v (hpixel p)
  rw [colourBanks_of_quiet hs rfl h3, colourBanks_of_quiet hu rfl h3, hnpix]
  exact four_banks (hbank Triple.c0) (hbank Triple.c1) (hbank Triple.c2) (hbank luma8)

/-- Settles O35: a counter is a sum over the pixels, which a permutation reorders and a cut at `m` splits. -/
theorem histogramOrderIndependence : Obligations.HistogramOrderIndependence := by
  unfold Obligations.HistogramOrderIndependence
  refine ⟨?order, fun m n f i h => countRun_add f i.isLt h⟩
  case order =>
    intro fmt s u σ hs hu hqs hqu hnpix hpix
    refine ⟨_, _, exec_of_ready hs, exec_of_ready hu, ?banks, ?valid⟩
    case banks =>
      rw [complete_countImage_hist, complete_countImage_hist]
      by_cases hg : fmt = .gray
      · subst hg
        exact grayBanks_perm hqs hqu ⟨hnpix, hpix⟩
      · rw [if_neg hg, if_neg hg]
        exact colourBanks_perm (three_le_channels_of_hist hs.wellFormed hg) hqs hqu ⟨hnpix, hpix⟩
    case valid => rw [complete_countImage_hv, complete_countImage_hv]

end Sys2Proof.Machine

/-! The host's register accesses (`46_system.md` R231, R232): an aligned offset names a register by the map of
`10_state.md` R39, a read returns that register's value, and a write has that register's effect. -/

namespace Sys2Proof.Machine

/-! ## The register map by the offset as a number -/

theorem regAt_of_toNat {off : BitVec 14} {n : Nat} (h : off.toNat = n) :
    regAt off = regAt (BitVec.ofNat 14 n) := by
  rw [← h, BitVec.ofNat_toNat, BitVec.setWidth_eq]

/-- The offsets that name no register (R39). -/
theorem regAt_reserved {off : BitVec 14}
    (h : (0x038 < off.toNat ∧ off.toNat < 0x1000) ∨ 0x2400 ≤ off.toNat) : regAt off = .reserved := by
  simp (disch := omega) only [regAt, if_neg]

/-- The `HIST` window: four banks of 256 counters (R39, R41). -/
theorem regAt_hist {off : BitVec 14} {b : Fin 4} {i : Fin 256}
    (h : off.toNat = 0x1000 + 0x400 * b.val + 4 * i.val) : regAt off = .hist b i := by
  have hbank : (off.toNat - 0x1000) / 0x400 = b := by omega
  have hcounter : (off.toNat - 0x1000) % 0x400 / 4 = i := by omega
  simp (disch := omega) only [regAt, if_neg, if_pos, hbank, hcounter]

/-- The `MAP` window: 256 entries (R39, R43). -/
theorem regAt_map {off : BitVec 14} {i : Fin 256} (h : off.toNat = 0x2000 + 4 * i.val) :
    regAt off = .map i := by
  have hentry : (off.toNat - 0x2000) / 4 = i := by omega
  simp (disch := omega) only [regAt, if_neg, if_pos, hentry]

/-- From `ID` on the window holds read-only targets only (R39). -/
theorem regAt_of_id_le {off : BitVec 14} (h : 0x038 ≤ off.toNat) :
    regAt off = .id ∨ (∃ b i, regAt off = .hist b i) ∨ (∃ i, regAt off = .map i) ∨
      regAt off = .reserved := by
  by_cases hid : off.toNat = 0x038
  · exact .inl (regAt_of_toNat hid)
  by_cases hhist : 0x1000 ≤ off.toNat ∧ off.toNat < 0x2000
  · exact .inr (.inl ⟨_, _, by simp (disch := omega) only [regAt, if_neg, if_pos]; rfl⟩)
  by_cases hmap : 0x2000 ≤ off.toNat ∧ off.toNat < 0x2400
  · exact .inr (.inr (.inl ⟨_, by simp (disch := omega) only [regAt, if_neg, if_pos]; rfl⟩))
  · exact .inr (.inr (.inr (regAt_reserved (by omega))))

/-! ## The words a read returns -/

theorem whenIdle_of_idle {s : State} (h : s.busy = false) (w : Word) : s.whenIdle w = w := by
  simp [State.whenIdle, h]

theorem toNat_statusWord (s : State) :
    s.statusWord.toNat = s.busy.toNat + 2 * s.done.toNat + 4 * s.err.toNat + 8 * s.drop.toNat +
      16 * s.hv.toNat + 256 * s.mv.toNat := by
  have hbusy := s.busy.toNat_le
  have hdone := s.done.toNat_le
  have herr := s.err.toNat_le
  have hdrop := s.drop.toNat_le
  have hmv := s.mv.toNat_le
  rw [State.statusWord, BitVec.toNat_ofNat, Nat.mod_eq_of_lt (by omega)]

theorem toNat_ieWord (s : State) :
    s.ieWord.toNat = 2 * s.doneIE.toNat + 4 * s.errIE.toNat + 8 * s.dropIE.toNat := by
  have hdone := s.doneIE.toNat_le
  have herr := s.errIE.toNat_le
  have hdrop := s.dropIE.toNat_le
  rw [State.ieWord, BitVec.toNat_ofNat, Nat.mod_eq_of_lt (by omega)]

/-- The fault codes and their numbers as R252 lists them. -/
def numberedCodes : List (ErrorCode × Nat) :=
  [(.eNone, 0), (.eIllegal, 1), (.eCspace, 2), (.eFmt, 3), (.eArg, 4), (.eLevel, 5), (.eEmpty, 6),
    (.eNohist, 7), (.eNomap, 8), (.eRange, 9), (.eOverlap, 10)]

theorem toNat_errCode_of_mem : ∀ p ∈ numberedCodes, (BitVec.ofNat 32 p.1.number).toNat = p.2 := by
  decide

/-- A counter as the `HIST` window shows it (R41). -/
theorem histWord_eq (s : State) (b : Nat) (i : Fin 256) :
    s.histWord b i = if s.hv.getLsbD b then (s.bank b)[i] else 0#32 := by
  simp [State.histWord]

/-- An entry as the `MAP` window shows it (R43). -/
theorem toNat_mapWord (s : State) (i : Fin 256) :
    (s.mapWord i).toNat = if s.mv then (s.map[i]).toNat else 0 := by
  rw [State.mapWord]
  split
  · rw [getElem?_pos s.map i.val i.isLt, Option.getD_some,
      BitVec.toNat_setWidth_of_le (by decide)]
    rfl
  · rfl

/-! ## The accesses -/

theorem supportedAccess_word {off : BitVec 14} (h : off.toNat % 4 = 0) :
    supportedAccess .word off = true := by
  simp [supportedAccess, h]

/-- A read returns the named register and changes nothing in the block (R231). -/
theorem hostAct_regRead {s : State} {off : BitVec 14} (hal : off.toNat % 4 = 0)
    (hin : s.inReset = false) :
    hostAct (.regRead .word off) s =
      .next { s with readData := s.regValue (regAt off), moment := s.moment + 1 } := by
  simp [hostAct, supportedAccess_word hal, State.portValue, hin, State.tick, State.withReadData]

/-- What a write does to the registers leaves the count of host actions to the action itself. -/
theorem moment_of_writeEffect {s u : State} (h : WriteEffect s u) : u.moment = s.moment := by
  cases h with
  | status v => rw [writeStatus_eq]
  | none => rfl
  | operand => rfl
  | dropped => rfl
  | accepted => rfl
  | enables => rfl
  | reset => rfl

/-- A write has the effect on the named register (R232). -/
theorem hostAct_regWrite {s : State} {off : BitVec 14} (v : Word) (hal : off.toNat % 4 = 0)
    (hin : s.inReset = false) :
    hostAct (.regWrite .word off v) s =
      .next { s.writeReg (regAt off) v with moment := s.moment + 1 } := by
  have hmoment := moment_of_writeEffect (writeReg_effect (regAt off) v s)
  simp [hostAct, supportedAccess_word hal, State.portWrite, hin, State.tick, hmoment]

/-- A write to a target from `ID` on is ignored (R232). -/
theorem writeReg_of_id_le {off : BitVec 14} (h : 0x038 ≤ off.toNat) (v : Word) (s : State) :
    s.writeReg (regAt off) v = s := by
  rcases regAt_of_id_le h with hr | ⟨b, i, hr⟩ | ⟨i, hr⟩ | hr <;> rw [hr] <;> rfl

theorem sameOutside_softReset (s : State) : SameOutside s s.softReset := ⟨rfl, rfl, rfl⟩

/-! ## The statements -/

/-- Settles O49: the offset names the register, and the value read is that register's word. -/
theorem hostReadReturnsTheRegister : Obligations.HostReadReturnsTheRegister := by
  unfold Obligations.HostReadReturnsTheRegister
  intro s off hal hin
  have named {n : Nat} (h : off.toNat = n) :
      s.regValue (regAt off) = s.regValue (regAt (BitVec.ofNat 14 n)) :=
    congrArg s.regValue (regAt_of_toNat h)
  refine ⟨_, hostAct_regRead hal hin, named, named, named, named, named, fun h => ?status,
    fun h c n hmem hc => ?errCode, named, fun h => ?ie, named, named,
    fun h => congrArg s.regValue (regAt_reserved (by omega)),
    fun hb => ?idle⟩
  case status => exact (congrArg BitVec.toNat (named h)).trans (toNat_statusWord s)
  case errCode =>
    subst hc
    exact (congrArg BitVec.toNat (named h)).trans (toNat_errCode_of_mem _ hmem)
  case ie => exact (congrArg BitVec.toNat (named h)).trans (toNat_ieWord s)
  case idle =>
    have shown {r : Reg} {w : Word} (hr : regAt off = r) (hw : s.regValue r = s.whenIdle w) :
        s.regValue (regAt off) = w := by
      rw [hr, hw, whenIdle_of_idle hb]
    refine ⟨fun h => ?avg, fun h => ?lvlUsed, fun h => shown (regAt_of_toNat h) rfl,
      fun h => shown (regAt_of_toNat h) rfl, fun b i h => ?hist, fun i h => ?map⟩
    case avg | lvlUsed =>
      rw [shown (regAt_of_toNat h) rfl, BitVec.toNat_setWidth_of_le (by decide)]
    case hist => rw [shown (regAt_hist h) rfl, histWord_eq]
    case map => rw [shown (regAt_map h) rfl, toNat_mapWord]

/-- Settles O50: the offset names the register, and the state left is the one its write leaves. -/
theorem hostWriteEffects : Obligations.HostWriteEffects := by
  unfold Obligations.HostWriteEffects
  intro s off v hal hin
  have named {n : Nat} (h : off.toNat = n) :
      s.writeReg (regAt off) v = s.writeReg (regAt (BitVec.ofNat 14 n)) v :=
    congrArg (s.writeReg · v) (regAt_of_toNat h)
  refine ⟨_, hostAct_regWrite v hal hin, named, named, named, named, named,
    fun h => (named h).trans (writeStatus_eq s v), named, fun h hv => ?reset,
    fun h hv => (named h).trans (if_neg (Bool.eq_false_iff.mp hv)), ?ignored⟩
  case reset =>
    have hreset : s.writeReg (regAt off) v = s.softReset := (named h).trans (if_pos hv)
    rw [hreset]
    exact ⟨blockReset_softReset s, sameOutside_softReset s⟩
  case ignored =>
    simp only [List.mem_cons, List.not_mem_nil, or_false]
    rintro ((h | h | h | h | h | h) | h)
    case inr => exact writeReg_of_id_le h v s
    all_goals exact named h

end Sys2Proof.Machine

/-! The exceptions (`60_exceptions.md`): which fault a command takes (R256, R262, R265, R266), what taking one
leaves (R255), and what the host can do while a fault is latched (R259, R260). -/

namespace Sys2Proof.Machine

/-! ## One fault or none -/

/-- The fault of a command is the first failing check of one list, so there is only one (R256). -/
theorem TakesFault.unique {i : Instr} {s : State} {c c' : ErrorCode} (h : TakesFault i s c)
    (h' : TakesFault i s c') : c = c' :=
  Option.some.inj ((firstFailing_of_takesFault h).symm.trans (firstFailing_of_takesFault h'))

theorem ready_or_takesFault (i : Instr) (s : State) : Ready i s ∨ ∃ c, TakesFault i s c := by
  rcases exec_cases i s with ⟨c, hc, -⟩ | ⟨hr, -⟩
  · exact .inr ⟨c, hc⟩
  · exact .inl hr

/-- A fault of the rule's table is taken as R255 says. -/
theorem exec_faulted {i : Instr} {s : State} {c : ErrorCode} (h : TakesFault i s c) :
    ∃ t, exec i s = .next t ∧ Faulted c s t :=
  ⟨_, exec_of_fault h, faulted_takeFault c s⟩

/-- A ready command completes (R92). -/
theorem exec_completed {i : Instr} {s : State} (h : Ready i s) :
    ∃ t, exec i s = .next t ∧ Completed s t :=
  ⟨_, exec_of_ready h, completed_effect i s⟩

/-- Settles O10: checks 1 and 2 are the decoder's; the others are one list, whose first failing check exists
and is unique unless the command is ready. -/
theorem firstFailingCheckDecidesTheFault : Obligations.FirstFailingCheckDecidesTheFault := by
  unfold Obligations.FirstFailingCheckDecidesTheFault
  refine fun s => ⟨fun h => ⟨_, runCommand_of_illegal h, rfl, rfl⟩,
    fun h => ⟨_, runCommand_of_badColourSpace h, rfl, rfl⟩, fun i h => ?_⟩
  rw [runCommand_of_instr h]
  exact ⟨fun c hc => ⟨_, exec_of_fault hc, rfl, rfl⟩, exec_completed, ready_or_takesFault i s,
    fun _ _ => TakesFault.unique, fun _ hr hc => not_ready_of_takesFault hc hr⟩

/-! ## Range and overlap -/

/-- Regions that end inside image memory pass check 8 (R265). -/
theorem not_rangeFails_of_le {i : Instr} {s : State} {n d : Nat} (hn : i.sourceChannels = some n)
    (hd : i.destChannels = some d) (hsrc : s.src.toNat + s.npix * n ≤ 2 ^ 32)
    (hdst : s.dst.toNat + s.npix * d ≤ 2 ^ 32) : ¬ rangeFails i s := by
  rintro (⟨n', hn', -, hpast⟩ | ⟨d', hd', -, hpast⟩)
  · cases hn.symm.trans hn'
    exact absurd hpast (Nat.not_lt.2 hsrc)
  · cases hd.symm.trans hd'
    exact absurd hpast (Nat.not_lt.2 hdst)

/-- With both regions known, check 9 is about those two (R266). -/
theorem overlapFails_iff_shareByte {i : Instr} {s : State} {n d : Nat}
    (hn : i.sourceChannels = some n) (hd : i.destChannels = some d) :
    overlapFails i s ↔ shareByte s.src.toNat (s.npix * n) s.dst.toNat (s.npix * d) := by
  simp [overlapFails, hn, hd]

/-- Regions that touch, lie apart or are empty share no byte (R69). -/
theorem not_shareByte {base len base' len' : Nat}
    (h : base + len ≤ base' ∨ base' + len' ≤ base ∨ len = 0 ∨ len' = 0) :
    ¬ shareByte base len base' len' := by
  rintro ⟨hlen, hlen', hlt, hlt'⟩
  omega

/-- Settles O12: where the earlier checks pass, `TakesFault` and `Ready` differ in checks 8 and 9 only. -/
theorem rangeAndOverlapFaults : Obligations.RangeAndOverlapFaults := by
  unfold Obligations.RangeAndOverlapFaults
  intro i s hw hl hp hb hm
  have range (hr : rangeFails i s) : ∃ t, exec i s = .next t ∧ Faulted .eRange s t :=
    exec_faulted (.range hw hl hp hb hm hr)
  refine ⟨fun n hn hlen hpast => range (.inl ⟨n, hn, hlen, hpast⟩),
    fun d hd hlen hpast => range (.inr ⟨d, hd, hlen, hpast⟩), fun n d hn hd hsrc hdst => ?_⟩
  have hr : ¬ rangeFails i s := not_rangeFails_of_le hn hd hsrc hdst
  have ho := overlapFails_iff_shareByte (s := s) hn hd
  exact ⟨fun hlen hlen' hlt hlt' =>
      exec_faulted (.overlap hw hl hp hb hm hr (ho.2 ⟨hlen, hlen', hlt, hlt'⟩)),
    fun happart => exec_completed ⟨hw, hl, hp, hb, hm, hr, mt ho.1 (not_shareByte happart)⟩⟩

/-! ## Zero-area images -/

/-- Only `EQMAP` reads a bank, and it writes no image (R264). -/
theorem bankMissing_of_dest {i : Instr} (hd : i.destChannels ≠ none) (s : State) :
    bankMissing i s = false := by
  cases i with
  | eqmap => exact absurd rfl hd
  | _ => rfl

/-- The regions of an empty image have length zero, so checks 8 and 9 pass wherever they lie (R265, R266). -/
theorem regions_pass_of_empty {s : State} (h : s.npix = 0) (i : Instr) :
    ¬ rangeFails i s ∧ ¬ overlapFails i s := by
  simp [rangeFails, pastTop, overlapFails, shareByte, h]

/-- On an empty image no effect stores a byte. -/
theorem effectOf_mem_of_empty {s : State} (h : s.npix = 0) (i : Instr) :
    (effectOf i s).mem = s.mem := by
  have noStore (base stride : Nat) (f : Nat → Byte) {count : Nat} (hc : count = 0) :
      s.storeRun base stride f count = s.mem := by rw [hc, State.storeRun]
  have image (n : Nat) : s.npix * n = 0 := by rw [h, Nat.zero_mul]
  cases i with
  | nop => rfl
  | avg => rfl
  | hist => rw [effectOf, countImage_eq]; rfl
  | eqmap => rfl
  | luma => exact noStore _ _ _ h
  | xch => exact noStore _ _ _ h
  | ich => exact noStore _ _ _ h
  | bin => exact noStore _ _ _ h
  | binA => exact noStore _ _ _ h
  | eqapp => exact noStore _ _ _ h
  | cvtRgb => exact noStore _ _ _ (image _)
  | cvtHsv => exact noStore _ _ _ (image _)
  | cvtHsl => exact noStore _ _ _ (image _)
  | cvtHsi => exact noStore _ _ _ (image _)
  | cvtYuv => exact noStore _ _ _ (image _)
  | invRgb => exact noStore _ _ _ (image _)
  | invHsv => exact noStore _ _ _ (image _)
  | invHsl => exact noStore _ _ _ (image _)
  | invHsi => exact noStore _ _ _ (image _)
  | invYuv => exact noStore _ _ _ (image _)

/-- `BIN` leaves the level it compared with in `LVLUSED` (R28, R200). -/
theorem toNat_lvlUsed_bin {s : State} (h : s.level.toNat ≤ 255) (fmt : Fmt) :
    (effectOf (.bin fmt) s).complete.lvlUsed.toNat = s.level.toNat := by
  show (BitVec.ofNat 8 s.level.toNat).toNat = s.level.toNat
  rw [BitVec.toNat_ofNat, Nat.mod_eq_of_lt (by omega)]

/-- Checks that do not read `DIM`, and an effect that does not, end the same whatever `DIM` holds. -/
theorem perform_withDim {checks : List Check} {effect : State → State} {s t : State} {d : Word}
    (heffect : effect { s with dim := d } = { effect s with dim := d })
    (h : perform checks effect s = .next t) :
    perform checks effect { s with dim := d } = .next { t with dim := d } := by
  unfold perform at h ⊢
  cases hc : firstFailing checks with
  | some c => rw [hc] at h; cases h; rfl
  | none => rw [hc] at h; cases h; simp only [heffect]; rfl

/-- Settles O45: a command that needs pixels fails check 6; the others with a destination image are ready,
their regions being empty, and their run of stores has length zero; `NOP` and `EQMAP` do not read `DIM`. -/
theorem zeroAreaImages : Obligations.ZeroAreaImages := by
  unfold Obligations.ZeroAreaImages
  refine ⟨fun i s h0 hw hp => exec_faulted (.empty hw hp h0), ?dest,
    fun s t d fmt h => ?nop, fun s t d fmt b h => ?eqmap⟩
  case dest =>
    intro i s h0 hw hd hp hl hm
    obtain ⟨hrange, hoverlap⟩ := regions_pass_of_empty h0 i
    have hr : Ready i s := ⟨hw, hl, by simp [hp], bankMissing_of_dest hd s, hm, hrange, hoverlap⟩
    refine ⟨_, exec_of_ready hr, completed_effect i s, effectOf_mem_of_empty h0 i, ?_⟩
    rintro rfl
    exact toNat_lvlUsed_bin (hl rfl) .gray
  case nop => exact perform_withDim rfl h
  case eqmap => exact perform_withDim rfl h

/-! ## While a fault is latched -/

/-- A host write has the effect on the named register, and is one more host action (R232). -/
theorem hostAct_regWrite_of_regAt {s : State} {off : BitVec 14} {r : Reg} (hal : off.toNat % 4 = 0)
    (hr : regAt off = r) (hin : s.inReset = false) (v : Word) :
    hostAct (.regWrite .word off v) s = .next (s.writeReg r v).tick := by
  subst hr
  rw [hostAct_regWrite v hal hin, State.tick, moment_of_writeEffect (writeReg_effect _ v s)]

/-- A host write to `CMD` (R33, R232). -/
theorem hostAct_write_cmd {s : State} (hin : s.inReset = false) (w : Word) :
    hostAct (.regWrite .word 0x020#14 w) s = .next (s.issue w).tick :=
  hostAct_regWrite_of_regAt (r := .cmd) (by decide) (by decide) hin w

theorem issue_of_err {s : State} (he : s.err = true) (w : Word) : s.issue w = s.dropWrite := by
  simp [State.issue, he]

theorem issue_of_idle {s : State} (hb : s.busy = false) (he : s.err = false) (w : Word) :
    s.issue w = s.accept w := by
  simp [State.issue, hb, he]

/-- A write to `CMD` while a fault is latched is dropped and recorded (R255, R260). -/
theorem hostAct_write_cmd_of_err {s : State} (he : s.err = true) (hin : s.inReset = false) (w : Word) :
    hostAct (.regWrite .word 0x020#14 w) s = .next s.dropWrite.tick := by
  rw [hostAct_write_cmd hin, issue_of_err he]

/-- Settles O11: taking a fault is one update of the state, the same for a word and for an instruction, and
the latched `ERR` drops every write to `CMD`. -/
theorem faultLatchesAndChangesNothingElse : Obligations.FaultLatchesAndChangesNothingElse := by
  unfold Obligations.FaultLatchesAndChangesNothingElse
  exact ⟨fun i s c hc => exec_faulted hc,
    fun s => ⟨fun h => ⟨_, runCommand_of_illegal h, faulted_takeFault _ s⟩,
      fun h => ⟨_, runCommand_of_badColourSpace h, faulted_takeFault _ s⟩⟩,
    fun s w he hin => ⟨_, hostAct_write_cmd_of_err he hin w, rfl, rfl, rfl⟩⟩

/-- `WR STATUS, 0x4` is the return from a fault and nothing else (R259). -/
theorem hostAct_write_status_err {s : State} (hin : s.inReset = false) :
    hostAct (.regWrite .word 0x024#14 0x00000004#32) s = .next s.returnFromFault.tick := by
  have hwrite : s.writeStatus 0x00000004#32 = s.returnFromFault := by
    simp [writeStatus_eq, State.returnFromFault]
  rw [hostAct_regWrite_of_regAt (r := .status) (by decide) (by decide) hin, State.writeReg, hwrite]

/-- Settles O53: the write is the return from the fault; with `ERR` and `BUSY` clear the next write to `CMD`
is accepted. -/
theorem writingErrReturnsFromTheFault : Obligations.WritingErrReturnsFromTheFault := by
  unfold Obligations.WritingErrReturnsFromTheFault
  intro s w _ hb hin
  refine ⟨_, ((s.returnFromFault.tick).accept w).tick, hostAct_write_status_err hin, rfl, ?_, rfl, rfl⟩
  rw [hostAct_write_cmd (s := s.returnFromFault.tick) hin,
    issue_of_idle (s := s.returnFromFault.tick) hb rfl]

/-- No command runs in `t`, and a fault still latched there is the one latched in `s`, with the same `CMD`
(R260). -/
def KeepsFault (s t : State) : Prop :=
  t.busy = false ∧ (t.err = true → t.errCode = s.errCode ∧ t.errInfo = s.errInfo ∧ t.cmd = s.cmd)

theorem keepsFault_refl {s : State} (hb : s.busy = false) : KeepsFault s s :=
  ⟨hb, fun _ => ⟨rfl, rfl, rfl⟩⟩

/-- A reset clears the fault (R290, R291). -/
theorem keepsFault_of_blockReset {t : State} (h : BlockReset t) (s : State) : KeepsFault s t := by
  obtain ⟨hbusy, -, herr, -⟩ := flags_of_blockReset h
  exact ⟨hbusy, fun he => absurd (herr.symm.trans he) Bool.false_ne_true⟩

/-- A register write while a fault is latched clears the fault or leaves it as it is; none accepts a
command (R232, R260). -/
theorem keepsFault_of_writeEffect {s u : State} (he : s.err = true) (hb : s.busy = false)
    (h : WriteEffect s u) : KeepsFault s u := by
  cases h with
  | none => exact keepsFault_refl hb
  | operand => exact keepsFault_refl hb
  | dropped => exact keepsFault_refl hb
  | enables => exact keepsFault_refl hb
  | accepted w _ hclear => exact absurd (hclear.symm.trans he) Bool.false_ne_true
  | reset => exact keepsFault_of_blockReset (blockReset_softReset s) s
  | status v =>
    rw [writeStatus_eq]
    cases hv : v.getLsbD 2 with
    | false => exact keepsFault_refl hb
    | true => exact ⟨hb, by simp⟩

/-- A host action while a fault is latched: only a register write could touch the fault registers, `CMD` or
`BUSY`. -/
theorem keepsFault_of_hostAct {a : HostAction} {s t : State} (he : s.err = true) (hb : s.busy = false)
    (h : hostAct a s = .next t) : KeepsFault s t := by
  rcases hostAct_cases h with ⟨w, rfl⟩ | ⟨-, rfl⟩ | ⟨-, u, hu, rfl⟩ | ⟨addr, v, rfl⟩
  · exact keepsFault_refl hb
  · exact keepsFault_refl hb
  · have hwritten : KeepsFault s u := keepsFault_of_writeEffect he hb hu
    exact hwritten
  · exact keepsFault_refl hb

/-- With a fault latched and no command running the engine has no turn, so no step runs a command (R260). -/
theorem keepsFault_of_step {s t : State} (he : s.err = true) (hb : s.busy = false)
    (h : step s = .next t) : KeepsFault s t := by
  rcases step_cases h with ⟨hm, -⟩ | rfl | rfl | ⟨a, ha⟩ | rfl | rfl
  · exact absurd (hb.symm.trans (busy_of_engineMoves hm)) Bool.false_ne_true
  · exact keepsFault_refl hb
  · exact keepsFault_refl hb
  · exact keepsFault_of_hostAct (s := s.popEvent) he hb ha
  · exact keepsFault_of_blockReset (blockReset_assertReset s.popEvent) s
  · exact keepsFault_of_blockReset (blockReset_releaseReset s.popEvent) s

/-- A latched fault excludes a running command (R303). -/
theorem FlagsFit.busy_eq_false_of_err {s : State} (hfit : FlagsFit s) (he : s.err = true) :
    s.busy = false :=
  Bool.eq_false_iff.2 fun hb => absurd ((hfit.busy hb).2.symm.trans he) Bool.false_ne_true

/-- Settles O54: the flag invariant rules out a running command, every step then keeps the fault or clears
it, a write to `CMD` is dropped, and a soft reset sets the reset values. -/
theorem faultsDoNotNest : Obligations.FaultsDoNotNest := by
  unfold Obligations.FaultsDoNotNest
  exact ⟨fun s t hfit he h => keepsFault_of_step he (hfit.busy_eq_false_of_err he) h,
    fun s w he hin => ⟨_, hostAct_write_cmd_of_err he hin w, rfl, rfl, rfl, rfl⟩,
    fun s hin => ⟨_, hostAct_ctrl_reset hin (by decide), rfl, rfl, rfl⟩⟩

end Sys2Proof.Machine

/-! The encoding both ways (`30_encoding.md` R90 to R103): the opcode map answers an instruction with the
fields it was given, and a row's mask and pattern hold the fields that name the row. -/

namespace Sys2Proof

/-! ## The instruction a word decodes to has the word's fields -/

/-- `OPC`, `ARG` and `FMT` of the instruction are the ones given. -/
def Instr.HasFields (i : Instr) (o : BitVec 8) (a : BitVec 4) (f : Fmt) : Prop :=
  i.opc = o ∧ i.arg = a ∧ i.fmt = f

theorem hasFields_of_decodeNoArg {a : BitVec 4} {j i : Instr} (hj : j.arg = 0#4)
    (h : decodeNoArg a j = .instr i) : i.HasFields j.opc a j.fmt := by
  unfold decodeNoArg at h
  split at h
  · next ha => cases h; exact ⟨rfl, hj.trans ha.symm, rfl⟩
  · cases h

theorem hasFields_of_decodeBin {a : BitVec 4} {f : Fmt} {i : Instr} (h : decodeBin a f = .instr i) :
    i.HasFields 0x30#8 a f := by
  unfold decodeBin at h
  split_ifs at h with h0 h1
  · cases h; exact ⟨rfl, h0.symm, rfl⟩
  · cases h; exact ⟨rfl, h1.symm, rfl⟩

theorem hasFields_of_decodeCvt {a : BitVec 4} {f : Fmt} {i : Instr} (h : decodeCvt a f = .instr i) :
    i.HasFields 0x10#8 a f := by
  unfold decodeCvt at h
  split_ifs at h with h0 h1 h2 h3 h4 <;> cases h
  · exact ⟨rfl, h0.symm, rfl⟩
  · exact ⟨rfl, h1.symm, rfl⟩
  · exact ⟨rfl, h2.symm, rfl⟩
  · exact ⟨rfl, h3.symm, rfl⟩
  · exact ⟨rfl, h4.symm, rfl⟩

theorem hasFields_of_decodeInv {a : BitVec 4} {f : Fmt} {i : Instr} (h : decodeInv a f = .instr i) :
    i.HasFields 0x11#8 a f := by
  unfold decodeInv at h
  split_ifs at h with h0 h1 h2 h3 h4 <;> cases h
  · exact ⟨rfl, h0.symm, rfl⟩
  · exact ⟨rfl, h1.symm, rfl⟩
  · exact ⟨rfl, h2.symm, rfl⟩
  · exact ⟨rfl, h3.symm, rfl⟩
  · exact ⟨rfl, h4.symm, rfl⟩

/-- The opcode map reads no field wrongly (R93, R94). -/
theorem hasFields_of_decodeOpc {o : BitVec 8} {a : BitVec 4} {f : Fmt} {i : Instr}
    (h : decodeOpc o a f = .instr i) : i.HasFields o a f := by
  have hknown : o ∈ [0x00#8, 0x10#8, 0x11#8, 0x20#8, 0x21#8, 0x22#8, 0x23#8, 0x30#8, 0x40#8, 0x50#8,
      0x51#8] := by
    by_contra ho
    rw [decodeOpc_of_unknown ho] at h
    cases h
  simp only [List.mem_cons, List.not_mem_nil, or_false] at hknown
  rcases hknown with rfl | rfl | rfl | rfl | rfl | rfl | rfl | rfl | rfl | rfl | rfl
  · exact hasFields_of_decodeNoArg (j := .nop f) rfl h
  · exact hasFields_of_decodeCvt h
  · exact hasFields_of_decodeInv h
  · exact hasFields_of_decodeNoArg (j := .luma f) rfl h
  · exact hasFields_of_decodeNoArg (j := .avg f) rfl h
  · obtain rfl : Instr.xch f a = i := Decoded.instr.inj h
    exact ⟨rfl, rfl, rfl⟩
  · obtain rfl : Instr.ich f a = i := Decoded.instr.inj h
    exact ⟨rfl, rfl, rfl⟩
  · exact hasFields_of_decodeBin h
  · exact hasFields_of_decodeNoArg (j := .hist f) rfl h
  · obtain rfl : Instr.eqmap f a = i := Decoded.instr.inj h
    exact ⟨rfl, rfl, rfl⟩
  · exact hasFields_of_decodeNoArg (j := .eqapp f) rfl h

/-- The encoded word has `RSV = 0` and the instruction's fields. -/
theorem fields_encode (i : Instr) : rsvField (encode i) = 0#18 ∧ fmtField (encode i) = i.fmt.code ∧
    argField (encode i) = i.arg ∧ opcField (encode i) = i.opc :=
  Laws.fields_of_word i.fmt.code i.arg i.opc

/-- A word that decodes is the encoding of what it decodes to. -/
theorem eq_encode_of_decode {w : Word} {i : Instr} (h : decode w = .instr i) : w = encode i := by
  unfold decode at h
  split at h
  · cases h
  · next hrsv =>
    obtain ⟨hopc, harg, hfmt⟩ := hasFields_of_decodeOpc h
    obtain ⟨ersv, efmt, earg, eopc⟩ := fields_encode i
    refine word_eq_of_fields ((not_not.1 hrsv).trans ersv.symm) ?_ (harg ▸ earg.symm) (hopc ▸ eopc.symm)
    rw [efmt, hfmt, code_fmtOfCode]

/-! ## The rows of the opcode table -/

/-- The instruction of the same row with this `FMT` and, where the row leaves `ARG` free, this `ARG`. -/
def Instr.withFields (f : Fmt) (a : BitVec 4) : Instr → Instr
  | .nop _ => .nop f
  | .cvtRgb _ => .cvtRgb f
  | .cvtHsv _ => .cvtHsv f
  | .cvtHsl _ => .cvtHsl f
  | .cvtHsi _ => .cvtHsi f
  | .cvtYuv _ => .cvtYuv f
  | .invRgb _ => .invRgb f
  | .invHsv _ => .invHsv f
  | .invHsl _ => .invHsl f
  | .invHsi _ => .invHsi f
  | .invYuv _ => .invYuv f
  | .luma _ => .luma f
  | .avg _ => .avg f
  | .xch _ _ => .xch f a
  | .ich _ _ => .ich f a
  | .bin _ => .bin f
  | .binA _ => .binA f
  | .hist _ => .hist f
  | .eqmap _ _ => .eqmap f a
  | .eqapp _ => .eqapp f

theorem withFields_row (i : Instr) (f : Fmt) (a : BitVec 4) :
    (i.withFields f a).pattern = i.pattern ∧ (i.withFields f a).mask = i.mask := by
  cases i <;> exact ⟨rfl, rfl⟩

theorem withFields_opc_fmt (i : Instr) (f : Fmt) (a : BitVec 4) :
    (i.withFields f a).opc = i.opc ∧ (i.withFields f a).fmt = f := by
  cases i <;> exact ⟨rfl, rfl⟩

theorem withFields_self (i : Instr) : i.withFields i.fmt i.arg = i := by cases i <;> rfl

/-- A row's mask covers everything but `FMT`, and `ARG` exactly where the row fixes it (R102). -/
theorem mask_cases (i : Instr) :
    (i.mask = 0xFFFFCFFF#32 ∧ ∀ f a, (i.withFields f a).arg = i.arg) ∨
      (i.mask = 0xFFFFC0FF#32 ∧ ∀ f a, (i.withFields f a).arg = a) := by
  cases i with
  | xch => exact .inr ⟨rfl, fun _ _ => rfl⟩
  | ich => exact .inr ⟨rfl, fun _ _ => rfl⟩
  | eqmap => exact .inr ⟨rfl, fun _ _ => rfl⟩
  | _ => exact .inl ⟨rfl, fun _ _ => rfl⟩

/-- A row's pattern is its encoding with the free fields zero (R102). -/
theorem pattern_eq_encode (i : Instr) : i.pattern = encode (i.withFields .gray 0#4) := by
  cases i <;> simp only [Instr.pattern, Instr.withFields] <;> decide

/-- A word is of a row when `RSV = 0`, `OPC` is the row's, and so is `ARG` where the row fixes it. -/
theorem matchesRow_iff (i : Instr) (w : Word) (f : Fmt) : i.matchesRow w = true ↔
    rsvField w = 0#18 ∧ opcField w = i.opc ∧ (i.withFields f (argField w)).arg = argField w := by
  obtain ⟨arsv, afmt, aarg, aopc⟩ := fields_and w i.mask
  obtain ⟨prsv, pfmt, parg, popc⟩ := fields_encode (i.withFields .gray 0#4)
  rw [← pattern_eq_encode] at prsv pfmt parg popc
  rw [(withFields_opc_fmt i _ _).1] at popc
  rw [(withFields_opc_fmt i _ _).2] at pfmt
  have hmask : rsvField i.mask = BitVec.allOnes 18 ∧ fmtField i.mask = 0#2 ∧
      opcField i.mask = BitVec.allOnes 8 := by
    rcases mask_cases i with ⟨hm, -⟩ | ⟨hm, -⟩ <;> rw [hm] <;> decide
  obtain ⟨mrsv, mfmt, mopc⟩ := hmask
  have harg : argField (w &&& i.mask) = argField i.pattern ↔
      (i.withFields f (argField w)).arg = argField w := by
    rcases mask_cases i with ⟨hm, hfix⟩ | ⟨hm, hfree⟩
    · have hones : argField i.mask = BitVec.allOnes 4 := by rw [hm]; decide
      rw [aarg, parg, hones, BitVec.and_allOnes, hfix, hfix, eq_comm]
    · have hzero : argField i.mask = 0#4 := by rw [hm]; decide
      rw [aarg, parg, hzero, BitVec.and_zero, hfree, hfree]
      exact iff_of_true rfl rfl
  rw [mrsv, BitVec.and_allOnes] at arsv
  rw [mfmt, BitVec.and_zero] at afmt
  rw [mopc, BitVec.and_allOnes] at aopc
  rw [Instr.matchesRow, beq_iff_eq, ← harg, ← prsv, ← popc, ← arsv, ← aopc]
  constructor
  · intro h
    rw [h]
    exact ⟨rfl, rfl, rfl⟩
  · rintro ⟨hrsv, hopc, harg⟩
    exact word_eq_of_fields hrsv (afmt.trans pfmt.symm) harg hopc

/-- The opcode map answers the instruction with the fields it is given. -/
theorem decodeOpc_fields (i : Instr) : decodeOpc i.opc i.arg i.fmt = .instr i := by cases i <;> rfl

/-- A word of a row decodes to the row's instruction with the word's own free fields. -/
theorem decode_of_matchesRow {i : Instr} {w : Word} (h : i.matchesRow w = true) :
    decode w = .instr (i.withFields (fmtOfCode (fmtField w)) (argField w)) := by
  obtain ⟨hrsv, hopc, harg⟩ := (matchesRow_iff i w (fmtOfCode (fmtField w))).1 h
  have hrow := decodeOpc_fields (i.withFields (fmtOfCode (fmtField w)) (argField w))
  rw [(withFields_opc_fmt i _ _).1, (withFields_opc_fmt i _ _).2, harg, ← hopc] at hrow
  rw [decode, if_neg (not_not.2 hrsv), hrow]

theorem matchesRow_encode (i : Instr) : i.matchesRow (encode i) = true := by
  obtain ⟨hrsv, -, harg, hopc⟩ := fields_encode i
  exact (matchesRow_iff i _ i.fmt).2 ⟨hrsv, hopc, by rw [harg, withFields_self]⟩

theorem decode_encode (i : Instr) : decode (encode i) = .instr i := by
  obtain ⟨-, hfmt, harg, -⟩ := fields_encode i
  rw [decode_of_matchesRow (matchesRow_encode i), hfmt, harg, fmtOfCode_code, withFields_self]

/-! ## The statements -/

/-- Settles O1: a word is determined by its fields, which are those of the instruction it decodes to; and an
encoded word is in its instruction's row. -/
theorem wordDecodesToItsEncodedInstructionOnly : Obligations.WordDecodesToItsEncodedInstructionOnly := by
  unfold Obligations.WordDecodesToItsEncodedInstructionOnly
  exact fun w i => ⟨eq_encode_of_decode, fun h => h ▸ decode_encode i⟩

/-- Settles O4: a word of a row decodes to that row's instruction with other free fields, and a word that
decodes is an encoding. -/
theorem opcodeTableRowsSeparateTheWords : Obligations.OpcodeTableRowsSeparateTheWords := by
  unfold Obligations.OpcodeTableRowsSeparateTheWords
  exact fun w i => ⟨fun h => ⟨_, decode_of_matchesRow h, withFields_row i _ _⟩,
    fun h => eq_encode_of_decode h ▸ matchesRow_encode i⟩

/-- Settles O3: each of the ten words is an encoding; the other two are refused by their fields. -/
theorem wordsWrittenOutDecode : Obligations.WordsWrittenOutDecode := by
  unfold Obligations.WordsWrittenOutDecode
  exact ⟨decode_encode (.nop .gray), decode_encode (.cvtHsv .rgba), decode_encode (.invYuv .rgb),
    decode_encode (.luma .rgb), decode_encode (.xch .rgb 2#4), decode_encode (.ich .rgba 3#4),
    decode_encode (.binA .gray), decode_encode (.hist .rgba), decode_encode (.eqmap .gray 3#4),
    decode_encode (.eqapp .gray), by decide, by decide⟩

end Sys2Proof

/-! What a step leaves unchanged, and what every step keeps: which registers and tables a command writes
(`30_encoding.md` section 6, R104), how `BUSY` falls (`70_reset_and_hazards.md` R303, R305), and the three
invariants of memory, flags and tables. -/

namespace Sys2Proof.Machine

/-! ## The registers and tables an effect writes (R104) -/

theorem sameAverage_effectOf {i : Instr} (hi : ∀ fmt, i ≠ .avg fmt ∧ i ≠ .binA fmt) (s : State) :
    SameAverage s (effectOf i s).complete := by
  cases i with
  | avg fmt => exact absurd rfl (hi fmt).1
  | binA fmt => exact absurd rfl (hi fmt).2
  | hist => rw [effectOf, countImage_eq]; exact ⟨rfl, rfl, rfl⟩
  | _ => exact ⟨rfl, rfl, rfl⟩

theorem lvlUsed_effectOf {i : Instr} (hi : ∀ fmt, i ≠ .bin fmt ∧ i ≠ .binA fmt) (s : State) :
    (effectOf i s).complete.lvlUsed = s.lvlUsed := by
  cases i with
  | bin fmt => exact absurd rfl (hi fmt).1
  | binA fmt => exact absurd rfl (hi fmt).2
  | hist => rw [effectOf, countImage_eq]; rfl
  | _ => rfl

theorem sameHistogram_effectOf {i : Instr} (hi : ∀ fmt, i ≠ .hist fmt) (s : State) :
    SameHistogram s (effectOf i s).complete := by
  cases i with
  | hist fmt => exact absurd rfl (hi fmt)
  | _ => exact ⟨rfl, rfl⟩

theorem sameMap_effectOf {i : Instr} (hi : ∀ fmt b, i ≠ .eqmap fmt b) (s : State) :
    SameMap s (effectOf i s).complete := by
  cases i with
  | eqmap fmt b => exact absurd rfl (hi fmt b)
  | hist => rw [effectOf, countImage_eq]; exact ⟨rfl, rfl⟩
  | _ => exact ⟨rfl, rfl⟩

/-- Settles O43: a fault writes the fault registers only, and a completed effect the columns of R104. -/
theorem commandsWriteTheirOwnRegistersOnly : Obligations.CommandsWriteTheirOwnRegistersOnly := by
  unfold Obligations.CommandsWriteTheirOwnRegistersOnly
  intro i s t h
  rcases exec_inversion h with ⟨c, hc, rfl⟩ | ⟨hr, rfl⟩
  · have same : SameOperands s (s.takeFault c) ∧ SameOutside s (s.takeFault c) :=
      ⟨⟨rfl, rfl, rfl, rfl⟩, rfl, rfl, rfl⟩
    exact ⟨same.1, same.2, rfl, rfl, rfl, rfl, rfl, rfl, rfl, fun _ => ⟨rfl, rfl, rfl⟩, fun _ => rfl,
      fun _ => ⟨rfl, rfl⟩, fun _ => ⟨rfl, rfl⟩, fun hr => absurd hr (not_ready_of_takesFault hc),
      fun _ => ⟨rfl, rfl, rfl⟩⟩
  · obtain ⟨hbusy, hdone, hoperands, hcontrol, houtside⟩ := completed_effect i s
    obtain ⟨hcmd, herr, hdrop, hcode, hinfo, hdoneIE, herrIE, hdropIE, hreset⟩ := hcontrol
    exact ⟨hoperands, houtside, hcmd, hdrop, hreset, hdoneIE, herrIE, hdropIE, hbusy,
      fun hi => sameAverage_effectOf hi s, fun hi => lvlUsed_effectOf hi s,
      fun hi => sameHistogram_effectOf hi s, fun hi => sameMap_effectOf hi s,
      fun _ => ⟨herr, hcode, hinfo, hdone⟩, fun ⟨c, hc⟩ => absurd hr (not_ready_of_takesFault hc)⟩

/-! ## The engine's step and the others -/

/-- The tables and the flags as the engine finds them are those of the state in which it moves. -/
theorem engineTakesTurn_same (s : State) :
    SameHistogram s s.engineTakesTurn ∧ SameMap s s.engineTakesTurn ∧
      s.engineTakesTurn.done = s.done ∧ s.engineTakesTurn.err = s.err ∧
      s.engineTakesTurn.cmd = s.cmd := by
  obtain ⟨l, hl⟩ := engineTakesTurn_cases s
  rw [hl]
  exact ⟨⟨rfl, rfl⟩, ⟨rfl, rfl⟩, rfl, rfl, rfl⟩

/-- A register write leaves the tables alone or resets the block. -/
theorem sameTables_of_writeEffect {s u : State} (h : WriteEffect s u) :
    (SameHistogram s u ∧ SameMap s u) ∨ BlockReset u := by
  cases h with
  | reset => exact .inr (blockReset_softReset s)
  | status v => rw [writeStatus_eq]; exact .inl ⟨⟨rfl, rfl⟩, rfl, rfl⟩
  | _ => exact .inl ⟨⟨rfl, rfl⟩, rfl, rfl⟩

theorem sameTables_of_hostAct {a : HostAction} {s t : State} (h : hostAct a s = .next t) :
    (SameHistogram s t ∧ SameMap s t) ∨ BlockReset t := by
  rcases hostAct_cases h with ⟨w, rfl⟩ | ⟨-, rfl⟩ | ⟨-, u, hu, rfl⟩ | ⟨addr, v, rfl⟩
  · exact .inl ⟨⟨rfl, rfl⟩, rfl, rfl⟩
  · exact .inl ⟨⟨rfl, rfl⟩, rfl, rfl⟩
  · exact (sameTables_of_writeEffect hu).imp id blockReset_tick
  · exact .inl ⟨⟨rfl, rfl⟩, rfl, rfl⟩

/-- The tables change by a reset or by a command that completes, in the engine's step (R294). -/
theorem sameTables_of_step {s t : State} (h : step s = .next t) :
    (SameHistogram s t ∧ SameMap s t) ∨ BlockReset t ∨
      ∃ i, s.engineMoves = true ∧ decode s.cmd = .instr i ∧ Ready i s.engineTakesTurn ∧
        t = (effectOf i s.engineTakesTurn).complete := by
  obtain ⟨hhist, hmap, -, -, hcmd⟩ := engineTakesTurn_same s
  rcases step_cases h with ⟨hm, hrun⟩ | rfl | rfl | ⟨a, ha⟩ | rfl | rfl
  · rcases runCommand_cases s.engineTakesTurn with ⟨c, -, he⟩ | ⟨i, hi, hr, he⟩
    · cases he.symm.trans hrun
      exact .inl ⟨hhist, hmap⟩
    · cases he.symm.trans hrun
      exact .inr (.inr ⟨i, hm, hcmd ▸ hi, hr, rfl⟩)
  · exact .inl ⟨⟨rfl, rfl⟩, rfl, rfl⟩
  · exact .inl ⟨⟨rfl, rfl⟩, rfl, rfl⟩
  · exact (sameTables_of_hostAct (s := s.popEvent) ha).imp id .inl
  · exact .inr (.inl (blockReset_assertReset _))
  · exact .inr (.inl (blockReset_releaseReset _))

/-- Settles O46: the command that completes in a step is `HIST` or leaves the histogram alone, `EQMAP` or
leaves the map alone; without the table check 7 of R256 fails. -/
theorem tablesSurvive : Obligations.TablesSurvive := by
  unfold Obligations.TablesSurvive
  refine ⟨fun s t h => ?step, fun s b hb hv => ?nohist, fun s hm => ?nomap⟩
  case step =>
    obtain ⟨hhist, hmap, -⟩ := engineTakesTurn_same s
    rcases sameTables_of_step h with ⟨sh, sm⟩ | hreset | ⟨i, hm, hi, -, rfl⟩
    · exact ⟨.inl sh, .inl sm⟩
    · exact ⟨.inr (.inl hreset), .inr (.inl hreset)⟩
    · constructor
      · by_cases his : ∃ fmt, i = .hist fmt
        · obtain ⟨fmt, rfl⟩ := his
          exact .inr (.inr ⟨hm, fmt, hi⟩)
        · obtain ⟨h1, h2⟩ := sameHistogram_effectOf (not_exists.1 his) s.engineTakesTurn
          exact .inl ⟨h1.trans hhist.1, h2.trans hhist.2⟩
      · by_cases his : ∃ fmt b, i = .eqmap fmt b
        · obtain ⟨fmt, b, rfl⟩ := his
          exact .inr (.inr ⟨hm, fmt, b, hi⟩)
        · obtain ⟨h1, h2⟩ := sameMap_effectOf (fun fmt b e => his ⟨fmt, b, e⟩) s.engineTakesTurn
          exact .inl ⟨h1.trans hmap.1, h2.trans hmap.2⟩
  case nohist =>
    have hw : (Instr.eqmap .gray b).wellFormed = true := by
      simpa [Instr.wellFormed, Instr.fmtLegal, Instr.argLegal] using hb
    exact exec_faulted (.nohist hw (by rw [bankMissing, hv]; rfl))
  case nomap => exact exec_faulted (.nomap rfl (by rw [mapMissing, hm]; rfl))

/-! ## How `BUSY` falls -/

/-- While a command runs, a register write leaves it running or resets the block. -/
theorem busy_of_writeEffect {s u : State} (hb : s.busy = true) (h : WriteEffect s u) :
    u.busy = true ∨ BlockReset u := by
  cases h with
  | none => exact .inl hb
  | dropped => exact .inl hb
  | enables => exact .inl hb
  | status v => rw [writeStatus_eq]; exact .inl hb
  | operand _ _ _ _ hidle => exact absurd (hb.symm.trans hidle) (by decide)
  | accepted _ hidle => exact absurd (hb.symm.trans hidle) (by decide)
  | reset => exact .inr (blockReset_softReset s)

theorem busy_of_hostAct {a : HostAction} {s t : State} (hb : s.busy = true)
    (h : hostAct a s = .next t) : t.busy = true ∨ BlockReset t := by
  rcases hostAct_cases h with ⟨w, rfl⟩ | ⟨-, rfl⟩ | ⟨-, u, hu, rfl⟩ | ⟨addr, v, rfl⟩
  · exact .inl hb
  · exact .inl hb
  · exact (busy_of_writeEffect hb hu).imp id blockReset_tick
  · exact .inl hb

/-- Running the accepted word ends the command, with the one flag or the other (R92, R255). -/
theorem runCommand_ends (s : State) : ∃ t, runCommand s = .next t ∧ t.busy = false ∧
    ((t.done = true ∧ t.err = s.err) ∨ (t.done = s.done ∧ t.err = true)) := by
  rcases runCommand_cases s with ⟨c, -, he⟩ | ⟨i, -, -, he⟩
  · exact ⟨_, he, rfl, .inr ⟨rfl, rfl⟩⟩
  · obtain ⟨-, -, -, ⟨-, herr, -⟩, -⟩ := completed_effect i s
    exact ⟨_, he, rfl, .inl ⟨rfl, herr⟩⟩

/-- Settles O47: only the engine's step and a reset let `BUSY` fall; the engine's sets one flag, and the
invariant says that the other was clear. -/
theorem busyFallsOnlyWithDoneOrErr : Obligations.BusyFallsOnlyWithDoneOrErr := by
  unfold Obligations.BusyFallsOnlyWithDoneOrErr
  intro s t hfit h hb ht
  obtain ⟨hdone, herr⟩ := hfit.busy hb
  have falls : ¬ t.busy = true := by simp [ht]
  rcases step_cases h with ⟨-, hrun⟩ | rfl | rfl | ⟨a, ha⟩ | rfl | rfl
  · obtain ⟨u, hu, -, hend⟩ := runCommand_ends s.engineTakesTurn
    obtain ⟨-, -, edone, eerr, -⟩ := engineTakesTurn_same s
    cases hu.symm.trans hrun
    rw [edone, eerr, hdone, herr] at hend
    exact hend.imp id .inl
  · exact absurd hb falls
  · exact absurd hb falls
  · exact .inr (.inr ((busy_of_hostAct (s := s.popEvent) hb ha).resolve_left falls))
  · exact .inr (.inr (blockReset_assertReset _))
  · exact .inr (.inr (blockReset_releaseReset _))

/-! ## Every command ends -/

/-- The event is no register access that the model refuses (R72). -/
def Event.Supported (e : Event) : Prop :=
  (∀ size off, e = .host (.regRead size off) → supportedAccess size off = true) ∧
    ∀ size off v, e = .host (.regWrite size off v) → supportedAccess size off = true

theorem agenda_of_writeEffect {s u : State} (h : WriteEffect s u) : u.agenda = s.agenda := by
  cases h with
  | status v => rw [writeStatus_eq]
  | _ => rfl

theorem agenda_of_hostAct {a : HostAction} {s t : State} (h : hostAct a s = .next t) :
    t.agenda = s.agenda := by
  rcases hostAct_cases h with ⟨w, rfl⟩ | ⟨-, rfl⟩ | ⟨-, u, hu, rfl⟩ | ⟨addr, v, rfl⟩
  · rfl
  · rfl
  · exact (State.tick_agenda u).trans (agenda_of_writeEffect hu)
  · rfl

theorem hostAct_of_supported {a : HostAction} (h : (Event.host a).Supported) (s : State) :
    ∃ t, hostAct a s = .next t := by
  obtain ⟨hread, hwrite⟩ := h
  cases a with
  | regRead size off => exact ⟨_, if_pos (hread size off rfl)⟩
  | regWrite size off v => exact ⟨_, if_pos (hwrite size off v rfl)⟩
  | memRead => exact ⟨_, rfl⟩
  | memWrite => exact ⟨_, rfl⟩
  | wait => exact ⟨_, rfl⟩

/-- A step the engine does not make, with a command running, takes the event at the head of the agenda. -/
theorem step_pops_of_not_engineMoves {s : State} (hb : s.busy = true) (hm : s.engineMoves = false)
    (hs : ∀ e ∈ s.agenda, e.Supported) :
    ∃ e t, step s = .next t ∧ s.agenda = e :: t.agenda := by
  cases hag : s.agenda with
  | nil => simp [State.engineMoves, hb, hag] at hm
  | cons e rest =>
    have hpop : s.popEvent.agenda = rest := by rw [State.popEvent_agenda, hag]; rfl
    have hstep : step s = outsideTurn s := by rw [step_eq, if_neg (by simp [hm])]
    refine ⟨e, ?_⟩
    rw [hstep]
    unfold outsideTurn
    rw [hag]
    cases e with
    | engine => exact ⟨_, rfl, by rw [hpop]⟩
    | resetAssert => exact ⟨_, rfl, by rw [← hpop]; rfl⟩
    | resetRelease => exact ⟨_, rfl, by rw [← hpop]; rfl⟩
    | host a =>
      obtain ⟨t, ht⟩ := hostAct_of_supported (hs (.host a) (by rw [hag]; exact List.mem_cons_self))
        s.popEvent
      exact ⟨t, ht, by rw [agenda_of_hostAct ht, hpop]⟩

/-- By induction on the agenda: the engine moves, or an event comes off it. -/
theorem ends_within_agenda (l : List Event) (s : State) (hl : s.agenda = l) (hb : s.busy = true)
    (hs : ∀ e ∈ s.agenda, e.Supported) :
    ∃ n t, 1 ≤ n ∧ n ≤ l.length + 1 ∧ stepsTo n s t ∧ t.busy = false := by
  induction l generalizing s with
  | nil =>
    have hm : s.engineMoves = true := by simp [State.engineMoves, hb, hl]
    obtain ⟨t, ht, hbusy, -⟩ := runCommand_ends s.engineTakesTurn
    exact ⟨1, t, le_rfl, le_rfl, ⟨t, by rw [step_eq, if_pos hm, ht], rfl⟩, hbusy⟩
  | cons e rest ih =>
    cases hm : s.engineMoves with
    | true =>
      obtain ⟨t, ht, hbusy, -⟩ := runCommand_ends s.engineTakesTurn
      exact ⟨1, t, le_rfl, by simp, ⟨t, by rw [step_eq, if_pos hm, ht], rfl⟩, hbusy⟩
    | false =>
      obtain ⟨e', u, hu, hag⟩ := step_pops_of_not_engineMoves hb hm hs
      obtain ⟨-, rfl⟩ : e = e' ∧ rest = u.agenda := by simpa using hl.symm.trans hag
      cases hbu : u.busy with
      | false => exact ⟨1, u, le_rfl, by simp, ⟨u, hu, rfl⟩, hbu⟩
      | true =>
        obtain ⟨n, t, -, hn, hsteps, ht⟩ := ih u rfl hbu fun d hd =>
          hs d (by rw [hag]; exact List.mem_cons_of_mem e' hd)
        exact ⟨n + 1, t, by omega, by simpa using hn, ⟨u, hu, hsteps⟩, ht⟩

/-- Settles O48: each step runs the command or takes an event off the agenda, and with none left the engine
moves. -/
theorem everyCommandEnds : Obligations.EveryCommandEnds := by
  unfold Obligations.EveryCommandEnds
  exact fun s hb hs => ends_within_agenda s.agenda s rfl hb hs

/-! ## The canonical form of image memory -/

/-- Settles O57: every transition keeps the form, a reset because the memory of an abandoned command has
it. -/
theorem stepKeepsMemoryCanonical : Obligations.StepKeepsMemoryCanonical := by
  unfold Obligations.StepKeepsMemoryCanonical
  refine step_preserves MemoryCanonical (fun s c h _ _ => h) (fun i s h _ hr => effectOf_wf hr h)
    (fun s l h => h) (fun s h => h) (fun s w h => h) ?write
    (fun s a v h => Memory.write_wf h a.isLt) (fun s b h => memAbandoned_wf h)
  case write =>
    intro s u h _ hu
    cases hu with
    | status v => rw [writeStatus_eq]; exact h
    | reset => exact memAbandoned_wf (s := s) h
    | _ => exact h

/-! ## The flags -/

theorem faultRegisters_of_blockReset {t : State} (h : BlockReset t) :
    t.errCode = .eNone ∧ t.errInfo = 0#32 := by
  obtain ⟨-, -, -, -, -, -, -, -, -, -, -, -, -, -, -, hcode, hinfo, -⟩ := h
  exact ⟨hcode, hinfo⟩

theorem flagsFit_of_blockReset {t : State} (h : BlockReset t) (hraced : t.raced = []) : FlagsFit t := by
  obtain ⟨hbusy, hdone, herr, -⟩ := flags_of_blockReset h
  exact ⟨by simp [hbusy], fun _ => hraced, by simp [herr],
    fun _ => faultRegisters_of_blockReset h, fun _ => h⟩

/-- A running command excludes an asserted reset input, which holds `BUSY` at 0. -/
theorem FlagsFit.inReset_eq_false_of_busy {s : State} (h : FlagsFit s) (hb : s.busy = true) :
    s.inReset = false := by
  cases hin : s.inReset with
  | false => rfl
  | true => exact absurd (hb.symm.trans (flags_of_blockReset (h.held hin)).1) (by decide)

theorem flagsFit_takeFault {s : State} (h : FlagsFit s) (hb : s.busy = true) {c : ErrorCode}
    (hc : c ≠ .eNone) : FlagsFit (s.takeFault c) where
  busy := fun hbusy => absurd hbusy (by simp)
  idle := fun _ => rfl
  latched := fun _ => ⟨(h.busy hb).1, hc, rfl⟩
  clear := fun herr => absurd herr (by simp)
  held := fun hin => absurd ((h.inReset_eq_false_of_busy hb).symm.trans hin) (by decide)

theorem flagsFit_complete {s : State} (h : FlagsFit s) (hb : s.busy = true) (i : Instr) :
    FlagsFit (effectOf i s).complete where
  busy := fun hbusy => absurd hbusy (by simp)
  idle := fun _ => rfl
  latched := fun herr => absurd ((h.busy hb).2.symm.trans ((effectOf_err i s).symm.trans herr)) (by decide)
  clear := fun _ => by simpa using h.clear (h.busy hb).2
  held := fun hin => absurd ((h.inReset_eq_false_of_busy hb).symm.trans
    ((effectOf_inReset i s).symm.trans hin)) (by decide)

theorem flagsFit_accept {s : State} (h : FlagsFit s) (hin : s.inReset = false) (he : s.err = false)
    (w : Word) : FlagsFit (s.accept w) where
  busy := fun _ => ⟨rfl, he⟩
  idle := fun hidle => absurd hidle (by simp)
  latched := fun herr => absurd (he.symm.trans herr) (by decide)
  clear := fun _ => h.clear he
  held := fun hheld => absurd (hin.symm.trans hheld) (by decide)

/-- The writes to `STATUS` clear flags only, and `ERRCODE` and `ERRINFO` with `ERR` (R32, R259). -/
theorem flagsFit_writeStatus {s : State} (h : FlagsFit s) (hin : s.inReset = false) (v : Word) :
    FlagsFit (s.writeStatus v) := by
  rw [writeStatus_eq]
  refine ⟨fun hb => ?_, h.idle, fun he => ?_, fun he => ?_, fun hheld => ?_⟩
  · obtain ⟨hdone, herr⟩ := h.busy hb
    simp [hdone, herr]
  · obtain ⟨herr, hkeep⟩ : s.err = true ∧ v.getLsbD 2 = false := by simpa using he
    obtain ⟨hdone, hcode, hinfo⟩ := h.latched herr
    simp only [hdone, hkeep, Bool.false_and]
    exact ⟨trivial, hcode, hinfo⟩
  · cases hclear : v.getLsbD 2 with
    | true => exact ⟨rfl, rfl⟩
    | false =>
      have herr : (s.err && !v.getLsbD 2) = false := he
      exact h.clear (by simpa only [hclear, Bool.not_false, Bool.and_true] using herr)
  · exact absurd (hin.symm.trans hheld) (by decide)

theorem flagsFit_of_writeEffect {s u : State} (h : FlagsFit s) (hin : s.inReset = false)
    (hu : WriteEffect s u) : FlagsFit u := by
  have held {P : Prop} (hheld : s.inReset = true) : P := absurd (hin.symm.trans hheld) (by decide)
  cases hu with
  | none => exact h
  | operand => exact ⟨h.busy, h.idle, h.latched, h.clear, held⟩
  | dropped => exact ⟨h.busy, h.idle, h.latched, h.clear, held⟩
  | enables => exact ⟨h.busy, h.idle, h.latched, h.clear, held⟩
  | accepted w _ he => exact flagsFit_accept h hin he w
  | status v => exact flagsFit_writeStatus h hin v
  | reset => exact flagsFit_of_blockReset (blockReset_softReset s) rfl

/-- A host write of image memory goes on record only while a command runs (R300). -/
theorem flagsFit_hostStore {s : State} (h : FlagsFit s) (a : Nat) (v : Byte) :
    FlagsFit (s.hostStore a v) := by
  refine ⟨h.busy, fun hidle => ?_, h.latched, h.clear, h.held⟩
  rw [State.hostStore_busy] at hidle
  simp [State.hostStore, hidle, h.idle hidle]

/-- Settles O58: the engine's end of a command, an acceptance and a write to `STATUS` move the flags
together; the other transitions leave them alone, and a reset leaves the reset values. -/
theorem stepKeepsFlagsFit : Obligations.StepKeepsFlagsFit := by
  unfold Obligations.StepKeepsFlagsFit
  exact step_preserves FlagsFit (fun s c h hb hc => flagsFit_takeFault h hb hc)
    (fun i s h hb _ => flagsFit_complete h hb i) (fun s l h => ⟨h.busy, h.idle, h.latched, h.clear, h.held⟩)
    (fun s h => ⟨h.busy, h.idle, h.latched, h.clear, h.held⟩)
    (fun s w h => ⟨h.busy, h.idle, h.latched, h.clear, h.held⟩) (fun s u h hin hu => flagsFit_of_writeEffect h hin hu)
    (fun s a v h => flagsFit_hostStore h _ v)
    (fun s b _ => flagsFit_of_blockReset (by simp [BlockReset]) rfl)

/-! ## The tables -/

/-- The clauses of the table invariant about the histogram. -/
def BanksCount (s : State) : Prop :=
  (s.hv = 0b0000#4 ∨ s.hv = 0b1001#4 ∨ s.hv = 0b1111#4) ∧
    (∀ b, b < 4 → s.hv.getLsbD b = true → 1 ≤ (s.bank b).total ∧ (s.bank b).total < 2 ^ 32) ∧
    ∀ b c, b < 4 → c < 4 → s.hv.getLsbD b = true → s.hv.getLsbD c = true →
      (s.bank b).total = (s.bank c).total

/-- Entries that rise and end in 255 (R221). -/
def RisesTo255 (entries : Vector Byte 256) : Prop :=
  (∀ i j : Fin 256, i ≤ j → entries[i].toNat ≤ entries[j].toNat) ∧ entries[255] = 255#8

theorem tablesMean_iff (s : State) : TablesMean s ↔
    BanksCount s ∧ (s.mv = true → RisesTo255 s.map) ∧ s.sumHi.toNat < 256 :=
  ⟨fun h => ⟨⟨h.valid, h.counted, h.agree⟩, fun hm => ⟨h.rising hm, h.top hm⟩, h.sum⟩,
    fun ⟨⟨hv, hc, ha⟩, hmap, hsum⟩ => ⟨hv, hc, ha, fun hm => (hmap hm).1, fun hm => (hmap hm).2, hsum⟩⟩

theorem banksCount_of_same {s t : State} (h : BanksCount s) (hs : SameHistogram s t) : BanksCount t := by
  unfold BanksCount State.bank at *
  rwa [hs.1, hs.2]

theorem tablesMean_of_same {s t : State} (h : TablesMean s) (hh : SameHistogram s t) (hm : SameMap s t)
    (hsum : t.sumHi = s.sumHi) : TablesMean t := by
  obtain ⟨hbanks, hmap, hlt⟩ := (tablesMean_iff s).1 h
  refine (tablesMean_iff t).2 ⟨banksCount_of_same hbanks hh, ?_, by rwa [hsum]⟩
  rwa [hm.1, hm.2]

/-- With no valid table and a sum of zero there is nothing to say. -/
theorem tablesMean_of_blockReset {t : State} (h : BlockReset t) : TablesMean t := by
  obtain ⟨hhv, hmv⟩ := validBits_of_blockReset h
  obtain ⟨-, -, -, -, -, -, -, hsum, -⟩ := h
  refine (tablesMean_iff t).2 ⟨⟨.inl hhv, ?_, ?_⟩, ?_, ?_⟩ <;> simp [hhv, hmv, hsum]

/-- A `HIST` that completes makes banks valid that count the pixels, at least one and below 2^32
(R210, R211). -/
theorem banksCount_hist {fmt : Fmt} {s : State} (hr : Ready (.hist fmt) s) :
    BanksCount (effectOf (.hist fmt) s).complete := by
  have htotal {b : Nat} (hb : b < 4) (hv : (effectOf (.hist fmt) s).complete.hv.getLsbD b = true) :
      ((effectOf (.hist fmt) s).complete.bank b).total = s.npix := total_countImage fmt s hb hv
  refine ⟨?valid, fun b hb hv => ?counted, fun b c hb hc hvb hvc => ?agree⟩
  case valid =>
    rw [complete_countImage_hv]
    split
    · exact .inr (.inl rfl)
    · exact .inr (.inr rfl)
  case counted =>
    rw [htotal hb hv]
    exact ⟨Nat.one_le_iff_ne_zero.2 (hr.pixels rfl), npix_lt s⟩
  case agree => rw [htotal hb hvb, htotal hc hvc]

theorem risesTo255_equalization {bank : Bank} (h : 1 ≤ bank.total) : RisesTo255 bank.equalization := by
  refine ⟨fun i j hij => ?_, ?_⟩
  · simpa using Bank.mapEntry_mono bank h hij j.isLt
  · simpa using Bank.mapEntry_last bank h

/-- `EQMAP` runs on a bank that holds a histogram (R97, R264). -/
theorem valid_of_ready_eqmap {fmt : Fmt} {b : BitVec 4} {s : State} (hr : Ready (.eqmap fmt b) s) :
    b.toNat < 4 ∧ s.hv.getLsbD b.toNat = true := by
  have hw := hr.wellFormed
  have hb := hr.bank
  simp only [Instr.wellFormed, Instr.argLegal, Bool.and_eq_true, decide_eq_true_eq] at hw
  simp only [bankMissing, Bool.not_eq_false'] at hb
  exact ⟨by omega, hb⟩

/-- A map built from a bank that counts a pixel rises to 255 (R221). -/
theorem risesTo255_eqmap {fmt : Fmt} {b : BitVec 4} {s : State} (hr : Ready (.eqmap fmt b) s)
    (h : ∀ b, b < 4 → s.hv.getLsbD b = true → 1 ≤ (s.bank b).total) :
    RisesTo255 (effectOf (.eqmap fmt b) s).complete.map := by
  obtain ⟨hlt, hv⟩ := valid_of_ready_eqmap hr
  exact risesTo255_equalization (h b.toNat hlt hv)

/-- The upper half of a grey sum (R27, R183). -/
theorem withAverage_sumHi_lt (f : Nat → Byte) (s : State) (n : Nat) :
    (s.withAverage (sumRun f s.npix) n).sumHi.toNat < 256 := by
  have := sumRun_npix_lt f s
  simp only [State.withAverage, BitVec.toNat_ofNat]
  omega

theorem sumHi_lt_effectOf {s : State} (h : s.sumHi.toNat < 256) (i : Instr) :
    (effectOf i s).complete.sumHi.toNat < 256 := by
  by_cases hi : ∀ fmt, i ≠ .avg fmt ∧ i ≠ .binA fmt
  · obtain ⟨-, -, hsum⟩ := sameAverage_effectOf hi s
    rwa [hsum]
  · obtain ⟨fmt, hfmt⟩ := not_forall.1 hi
    rcases not_and_or.1 hfmt with hne | hne
    · cases not_not.1 hne
      exact withAverage_sumHi_lt (s.graySample 0) s s.npix
    · cases not_not.1 hne
      exact withAverage_sumHi_lt (s.graySample 0) s s.npix

/-- The three parts of the invariant are kept apart: only `HIST` writes the banks, only `EQMAP` the map. -/
theorem tablesMean_complete {i : Instr} {s : State} (h : TablesMean s) (hr : Ready i s) :
    TablesMean (effectOf i s).complete := by
  obtain ⟨hbanks, hmap, hsum⟩ := (tablesMean_iff s).1 h
  refine (tablesMean_iff _).2 ⟨?banks, ?map, sumHi_lt_effectOf hsum i⟩
  case banks =>
    by_cases hi : ∃ fmt, i = .hist fmt
    · obtain ⟨fmt, rfl⟩ := hi
      exact banksCount_hist hr
    · exact banksCount_of_same hbanks (sameHistogram_effectOf (not_exists.1 hi) s)
  case map =>
    by_cases hi : ∃ fmt b, i = .eqmap fmt b
    · obtain ⟨fmt, b, rfl⟩ := hi
      exact fun _ => risesTo255_eqmap hr fun b hb hv => (h.counted b hb hv).1
    · obtain ⟨hsame, hmv⟩ := sameMap_effectOf (fun fmt b e => hi ⟨fmt, b, e⟩) s
      rwa [hsame, hmv]

/-- Settles O59: a command that completes keeps each part of the invariant, a reset leaves nothing valid, and
no other transition writes a table or `SUMHI`. -/
theorem stepKeepsTablesMean : Obligations.StepKeepsTablesMean := by
  unfold Obligations.StepKeepsTablesMean
  refine step_preserves TablesMean (fun s c h _ _ => tablesMean_of_same h ⟨rfl, rfl⟩ ⟨rfl, rfl⟩ rfl)
    (fun i s h _ hr => tablesMean_complete h hr)
    (fun s l h => tablesMean_of_same h ⟨rfl, rfl⟩ ⟨rfl, rfl⟩ rfl)
    (fun s h => tablesMean_of_same h ⟨rfl, rfl⟩ ⟨rfl, rfl⟩ rfl)
    (fun s w h => tablesMean_of_same h ⟨rfl, rfl⟩ ⟨rfl, rfl⟩ rfl) ?write
    (fun s a v h => tablesMean_of_same h ⟨rfl, rfl⟩ ⟨rfl, rfl⟩ rfl)
    (fun s b _ => tablesMean_of_blockReset (by simp [BlockReset]))
  case write =>
    intro s u h _ hu
    cases hu with
    | status v => rw [writeStatus_eq]; exact tablesMean_of_same h ⟨rfl, rfl⟩ ⟨rfl, rfl⟩ rfl
    | reset => exact tablesMean_of_blockReset (blockReset_softReset s)
    | _ => exact tablesMean_of_same h ⟨rfl, rfl⟩ ⟨rfl, rfl⟩ rfl

/-- Settles O60: each invariant holds of a block in its reset state with an empty memory. -/
theorem resetMeetsTheInvariants : Obligations.ResetMeetsTheInvariants := by
  unfold Obligations.ResetMeetsTheInvariants
  exact ⟨Memory.nil_wf, flagsFit_of_blockReset blockReset_reset rfl,
    tablesMean_of_blockReset blockReset_reset⟩

/-- Settles O38: a step that leaves `MV` set leaves the map or completes an `EQMAP`, whose bank counts a
pixel; the second clause is the table invariant after the step. -/
theorem validMapRisesTo255 : Obligations.ValidMapRisesTo255 := by
  unfold Obligations.ValidMapRisesTo255
  intro risesTo255
  have rises {t : State} (h : RisesTo255 t.map) : risesTo255 t :=
    ⟨fun i => h.1 _ _ (Fin.castSucc_lt_succ).le, fun i => Nat.le_of_lt_succ (t.map[i]).isLt, h.2⟩
  refine ⟨fun s t hcount h hm => ?_, fun s t hmean h hm => ?_⟩
  · rcases sameTables_of_step h with ⟨-, sm⟩ | hreset | ⟨i, -, -, hr, rfl⟩
    · exact .inl sm
    · exact absurd ((validBits_of_blockReset hreset).2.symm.trans hm) (by decide)
    · obtain ⟨hhist, hmap, -⟩ := engineTakesTurn_same s
      by_cases hi : ∃ fmt b, i = .eqmap fmt b
      · obtain ⟨fmt, b, rfl⟩ := hi
        refine .inr (rises (risesTo255_eqmap hr ?_))
        unfold State.bank at hcount ⊢
        rwa [hhist.1, hhist.2]
      · obtain ⟨h1, h2⟩ := sameMap_effectOf (fun fmt b e => hi ⟨fmt, b, e⟩) s.engineTakesTurn
        exact .inl ⟨h1.trans hmap.1, h2.trans hmap.2⟩
  · obtain ⟨-, hrises, -⟩ := (tablesMean_iff t).1 (stepKeepsTablesMean s t hmean h)
    exact rises (hrises hm)

end Sys2Proof.Machine

/-! Single steps (`00_scope.md` section 6): the engine's turn, the host's actions and what they do to image
memory (`20_memory.md` section 1, `70_reset_and_hazards.md` R300), and the bytes a command abandoned by a reset
leaves (R292). -/

namespace Sys2Proof.Machine

/-! ## The engine's turn -/

theorem step_of_engineMoves {s : State} (h : s.engineMoves = true) :
    step s = runCommand s.engineTakesTurn := by
  rw [step_eq, if_pos h]

theorem step_of_not_engineMoves {s : State} (h : s.engineMoves = false) : step s = outsideTurn s := by
  rw [step_eq, if_neg (by simp [h])]

/-- An idle block takes the next event, whatever it is (R15). -/
theorem engineMoves_of_idle {s : State} (h : s.busy = false) : s.engineMoves = false := by
  simp [State.engineMoves, h]

/-- Taking the turn removes the engine's own event, if it heads the agenda. -/
theorem engineTakesTurn_eq (s : State) : s.engineTakesTurn =
    { s with agenda := if s.agenda.head? = some .engine then s.agenda.tail else s.agenda } := by
  unfold State.engineTakesTurn
  split
  · next hag => rw [if_pos (by rw [hag]; rfl)]; rfl
  all_goals next hag => rw [if_neg (by rw [hag]; simp)]

/-- The engine's step, by what the accepted word decodes to (R92). -/
theorem step_of_engineMoves_cases {s : State} (h : s.engineMoves = true) :
    (∀ i, decode s.cmd = .instr i → step s = exec i s.engineTakesTurn) ∧
      (decode s.cmd = .illegal → ∃ t, step s = .next t ∧ Faulted .eIllegal s.engineTakesTurn t) ∧
      (decode s.cmd = .badColourSpace →
        ∃ t, step s = .next t ∧ Faulted .eCspace s.engineTakesTurn t) := by
  obtain ⟨-, -, -, -, hcmd⟩ := engineTakesTurn_same s
  rw [step_of_engineMoves h, ← hcmd]
  exact ⟨fun i => runCommand_of_instr,
    fun hi => ⟨_, runCommand_of_illegal hi, faulted_takeFault _ _⟩,
    fun hi => ⟨_, runCommand_of_badColourSpace hi, faulted_takeFault _ _⟩⟩

/-- Settles O5: the step is the engine's run of the accepted word, which taking the turn leaves in `CMD`. -/
theorem stepRunsTheDecodedInstruction : Obligations.StepRunsTheDecodedInstruction := by
  unfold Obligations.StepRunsTheDecodedInstruction
  intro s h
  obtain ⟨hinstr, hillegal, hspace⟩ := step_of_engineMoves_cases h
  exact ⟨hinstr, hillegal, hspace, engineTakesTurn_eq s⟩

theorem decode_of_decodeTableWord {nbits w : Nat} {i : Instr} (h : decodeTableWord nbits w = some i) :
    decode (tableWord nbits w) = .instr i := by
  unfold decodeTableWord at h
  split at h
  · next j hj => rw [hj, Option.some.inj h]
  · cases h
  · cases h

/-- The state in which the engine runs a placed word. -/
theorem engineTakesTurn_placeCommand (w : Word) (s : State) :
    (s.placeCommand w).engineTakesTurn = (s.returnFromFault.accept w).withResetInput false := rfl

/-- Settles O7: the placed word is in `CMD` with `BUSY` set and the engine's event first, so the engine moves
and takes that event off again. -/
theorem placedWordRunsNext : Obligations.PlacedWordRunsNext := by
  unfold Obligations.PlacedWordRunsNext
  intro s w i h
  have hm : (s.placeCommand (tableWord 32 w)).engineMoves = true := rfl
  obtain ⟨hrun, -⟩ := step_of_engineMoves_cases hm
  rw [engineTakesTurn_placeCommand] at hrun
  exact ⟨_, hrun i (decode_of_decodeTableWord h), rfl, rfl, rfl, ⟨rfl, rfl, rfl, rfl⟩, ⟨rfl, rfl, rfl⟩, rfl,
    ⟨rfl, rfl⟩, ⟨rfl, rfl⟩, rfl, rfl⟩

/-- Settles O9: an idle block whose agenda is empty has no event to take. -/
theorem finishedRunIdles : Obligations.FinishedRunIdles := by
  unfold Obligations.FinishedRunIdles
  intro s hag hb
  rw [step_of_not_engineMoves (engineMoves_of_idle hb), outsideTurn, hag]

/-- Settles O13: the one check of `NOP` passes and its effect is none. -/
theorem nopOnlyCompletes : Obligations.NopOnlyCompletes := by
  unfold Obligations.NopOnlyCompletes
  intro s
  exact perform_of_none (l := [checkFmt (Fmt.gray == .gray)]) rfl id s

/-! ## The host's actions as steps -/

/-- A host action, but for a `WAIT` under a running command, is the next step. -/
theorem step_of_host {s : State} {a : HostAction} {rest : List Event} (hag : s.agenda = .host a :: rest)
    (h : a ≠ .wait ∨ s.busy = false) : step s = hostAct a s.popEvent := by
  have hm : s.engineMoves = false := by
    rcases h with hw | hb
    · cases a with
      | wait => exact absurd rfl hw
      | _ => simp [State.engineMoves, hag]
    · exact engineMoves_of_idle hb
  rw [step_of_not_engineMoves hm, outsideTurn, hag]

theorem popEvent_eq {s : State} {e : Event} {rest : List Event} (hag : s.agenda = e :: rest) :
    s.popEvent = { s with agenda := rest } := by
  rw [State.popEvent, hag, List.tail_cons]

/-- Settles O8: the write is accepted, and where the engine's turn comes next its step runs the word. -/
theorem acceptedCommandIsRun : Obligations.AcceptedCommandIsRun := by
  unfold Obligations.AcceptedCommandIsRun
  intro s w rest hb he hin hag
  have hpop := popEvent_eq hag
  have hstep : step s = .next ({ s with agenda := rest }.accept w).tick := by
    rw [step_of_host hag (.inl (by simp)), hpop, hostAct_write_cmd (s := { s with agenda := rest }) hin,
      issue_of_idle (s := { s with agenda := rest }) hb he]
  refine ⟨_, hstep, rfl, rfl, rfl, ⟨rfl, rfl, rfl, rfl⟩,
    ⟨⟨rfl, rfl, rfl⟩, rfl, ⟨rfl, rfl⟩, rfl, rfl⟩, rfl, rfl, he, rfl, fun hnext => ?_⟩
  have hm : ({ s with agenda := rest }.accept w).tick.engineMoves = true := by
    cases rest with
    | nil => rfl
    | cons e l =>
      rcases hnext with hnil | hengine | hwait
      · cases hnil
      · cases hengine; rfl
      · cases hwait; rfl
  have hcmd : ({ s with agenda := rest }.accept w).tick.cmd = w := rfl
  have hrun := step_of_engineMoves_cases hm
  rwa [hcmd] at hrun

/-- Settles O51: the access is not a supported one. -/
theorem oddRegisterAccessesAreRefused : Obligations.OddRegisterAccessesAreRefused := by
  unfold Obligations.OddRegisterAccessesAreRefused
  intro s size off v h
  have hodd : ¬ supportedAccess size off = true := by
    simp only [supportedAccess, Bool.and_eq_true, beq_iff_eq, not_and_or]
    exact h
  exact ⟨if_neg hodd, if_neg hodd⟩

/-! ## Image memory under a running command -/

theorem memWhenDone_of_busy {s u : State} (hb : s.busy = true) (hu : runCommand s = .next u) :
    s.memWhenDone = u.mem := by
  simp [State.memWhenDone, hb, hu]

/-- Running an instruction leaves the bytes outside its destination set alone (R70). -/
theorem read_of_runCommand_of_not_stores {s u : State} (hu : runCommand s = .next u) {i : Instr}
    (hi : decode s.cmd = .instr i) {a : Nat} (ha : ¬ stores i s a) : u.mem.read a = s.mem.read a :=
  read_of_exec_of_not_stores (runCommand_of_instr hi ▸ hu) ha

/-- A host read of image memory returns the byte that is there or the one the command would write
(R300). -/
theorem hostByte_cases (s : State) (a : Nat) : s.hostByte a = s.mem.read a ∨
    (s.busy = true ∧ ∃ u, runCommand s = .next u ∧ s.hostByte a = u.mem.read a) := by
  unfold State.hostByte
  split
  · next h =>
    simp only [Bool.and_eq_true] at h
    obtain ⟨u, hu, -⟩ := runCommand_ends s
    exact .inr ⟨h.1, u, hu, by rw [memWhenDone_of_busy h.1 hu]⟩
  · exact .inl rfl

theorem read_storeByte_cases (s : State) (m : Memory) (a : Nat) (v : Byte) :
    (s.storeByte m a v).read a = v ∨ (s.replaced a ≠ [] ∧ (s.storeByte m a v).read a = m.read a) := by
  unfold State.storeByte
  split
  · next h =>
    simp only [Bool.and_eq_true, Bool.not_eq_true', List.isEmpty_eq_false_iff] at h
    exact .inr ⟨h.1, rfl⟩
  · exact .inl (Memory.read_write_same m a v)

theorem portValue_status {s : State} (hin : s.inReset = false) : s.portValue 0x024#14 = s.statusWord := by
  have hreg : regAt 0x024#14 = .status := by decide
  rw [State.portValue, hin, hreg]
  rfl

/-- Settles O6: which event is the next step follows from the agenda; what the accesses do follows from the
operations on image memory they are made of. -/
theorem hostActionsAreSteps : Obligations.HostActionsAreSteps := by
  unfold Obligations.HostActionsAreSteps
  refine ⟨fun s rest => ⟨fun a hag h => ?action, fun hag hb => ?wait, fun hag hb => ?engine⟩,
    fun s addr => ?memRead, fun s addr v => ?memWrite, fun s r a => List.mem_cons.1 (sourceByte_mem s r a),
    read_storeByte_cases, fun s hin => ?waitReads⟩
  case action => rw [step_of_host hag h, popEvent_eq hag]
  case wait => exact ⟨by simp [State.engineMoves, hb, hag], by simp [State.engineTakesTurn, hag]⟩
  case engine =>
    rw [step_of_not_engineMoves (engineMoves_of_idle hb), outsideTurn, hag, ← popEvent_eq hag]
  case memRead =>
    refine ⟨s.hostByte addr.toNat, rfl, fun hb => ?_, ?_, fun i hi ha => ?_⟩
    · simp [State.hostByte, hb]
    · exact (hostByte_cases s addr.toNat).imp id fun ⟨_, h⟩ => h
    · rcases hostByte_cases s addr.toNat with h | ⟨-, u, hu, h⟩
      · exact h
      · rw [h, read_of_runCommand_of_not_stores hu hi ha]
  case memWrite =>
    exact ⟨_, rfl, rfl, Memory.read_write_same s.mem _ v,
      fun a ha => Memory.read_write_other s.mem _ a v ha, rfl⟩
  case waitReads =>
    refine ⟨s.statusWord, ?_, toNat_statusWord s⟩
    rw [hostAct, portValue_status hin]
    rfl

/-! ## A command abandoned by a reset -/

/-- Each byte is the old one or the one the command would have written, and outside the destination set
these are the same (R292). -/
theorem memAbandoned_oldOrNew {s : State} (hb : s.busy = true) :
    (∃ u, runCommand s = .next u ∧
      ∀ a, s.memAbandoned.read a = s.mem.read a ∨ s.memAbandoned.read a = u.mem.read a) ∧
    ∀ i, decode s.cmd = .instr i → ∀ a, ¬ stores i s a → s.memAbandoned.read a = s.mem.read a := by
  obtain ⟨u, hu, -⟩ := runCommand_ends s
  have hread (a : Nat) : s.memAbandoned.read a =
      if Config.abandonedWrote s.moment a then u.mem.read a else s.mem.read a := by
    rw [State.memAbandoned, if_pos hb, memWhenDone_of_busy hb hu, Memory.read_mix]
  refine ⟨⟨u, hu, fun a => ?_⟩, fun i hi a ha => ?_⟩
  · rw [hread]
    split
    · exact .inr rfl
    · exact .inl rfl
  · rw [hread, read_of_runCommand_of_not_stores hu hi ha, ite_self]

/-- Settles O56: both resets leave the reset state and the memory of an abandoned command. -/
theorem abandonedBytesAreOldOrNew : Obligations.AbandonedBytesAreOldOrNew := by
  unfold Obligations.AbandonedBytesAreOldOrNew
  refine ⟨fun s v hb hin hv => ?_, fun s rest hb hag => ?_⟩
  · exact ⟨_, hostAct_ctrl_reset hin hv, blockReset_tick (blockReset_softReset s), memAbandoned_oldOrNew hb⟩
  · rw [← popEvent_eq hag]
    exact ⟨_, step_of_resetAssert hag, blockReset_assertReset _,
      memAbandoned_oldOrNew (s := s.popEvent) hb⟩

end Sys2Proof.Machine

/-! The commands that write an image or a plane (`40_codec_forward.md`, `41_codec_inverse.md`,
`42_grayscale_planes.md`, `43_threshold.md`): what each destination byte holds where the host kept off, and the
average. -/

namespace Sys2Proof.Machine

/-- A command that answered `t` has the result it completes with. -/
theorem Completes.of_exec {i : Instr} {s t : State} {frame result : State → Prop}
    (h : Completes i s frame result) (he : exec i s = .next t) :
    Completed s t ∧ frame t ∧ (∀ a, ¬ stores i s a → t.mem.read a = s.mem.read a) ∧
      (HostKeptOff i s → result t) := by
  obtain ⟨u, hu, h⟩ := h
  cases hu.symm.trans he
  exact h

/-! ## Conversions -/

/-- A ready command with a colour image has three or four channels (R93, R95). -/
theorem channels_of_ready {i : Instr} {s : State} {fmt : Fmt} (hr : Ready i s)
    (hi : i.fmtLegal = fmt.colour) : fmt.channels = 3 ∨ fmt.channels = 4 := by
  have hw := hr.wellFormed
  rw [Instr.wellFormed, Bool.and_eq_true, hi] at hw
  exact channels_of_colour hw.1

/-- The instruction is the conversion of R120 with this function and format. -/
structure Converts (i : Instr) (f : Triple → Triple) (fmt : Fmt) : Prop where
  effect : ∀ s, effectOf i s = s.convertImage f fmt.channels
  legal : i.fmtLegal = fmt.colour
  source : i.sourceChannels = some fmt.channels
  dest : i.destChannels = some fmt.channels
  notIch : ∀ fmt' k, i ≠ .ich fmt' k

/-- A converted byte is the channel of the converted pixel, or the source's alpha (R120). -/
theorem convertByte_of_quiet {i : Instr} {f : Triple → Triple} {fmt : Fmt} (hi : Converts i f fmt)
    {s : State} (hr : Ready i s) (hq : HostKeptOff i s) {p c : Nat} (hp : p < s.npix)
    (hc : c < fmt.channels) :
    s.convertByte f fmt.channels (p * fmt.channels + c) =
      if c < 3 then (f (pixelAt s.mem s.src.toNat fmt.channels p)).channel c
      else pixelByte s.mem s.src.toNat fmt.channels p 3 := by
  have hn := channels_of_ready hr hi.legal
  obtain ⟨hdiv, hmod⟩ := pixel_div_mod p hc
  rw [State.convertByte, hdiv, hmod]
  split
  · rw [sourcePixel_of_quiet hq hi.source (by omega) c hp]
  · rw [sourceChannel_of_quiet hq hi.source 3 hp (by omega)]

theorem completes_convert {i : Instr} {f : Triple → Triple} {fmt : Fmt} (hi : Converts i f fmt)
    {s : State} (hr : Ready i s) :
    Completes i s (SameResultsAndTables s) (ConvertedImage f fmt.channels s) := by
  refine completes_of_ready hr _ _ ?frame fun hq p hp => ?result
  case frame =>
    rw [hi.effect]
    exact ⟨⟨rfl, rfl, rfl⟩, rfl, ⟨rfl, rfl⟩, rfl, rfl⟩
  case result =>
    have hn := channels_of_ready hr hi.legal
    have hbyte {c : Nat} (hc : c < fmt.channels) :
        pixelByte (effectOf i s).complete.mem s.dst.toNat fmt.channels p c =
          s.convertByte f fmt.channels (p * fmt.channels + c) := by
      rw [hi.effect]
      exact read_image hq (fun j hj => stores_of_dest hi.dest hi.notIch hj) _ hp hc
    constructor
    · simp only [pixelAt]
      rw [hbyte (c := 0) (by omega), hbyte (c := 1) (by omega), hbyte (c := 2) (by omega),
        convertByte_of_quiet hi hr hq hp (by omega), convertByte_of_quiet hi hr hq hp (by omega),
        convertByte_of_quiet hi hr hq hp (by omega)]
      rfl
    · intro h4
      rw [← h4, hbyte (c := 3) (by omega), convertByte_of_quiet hi hr hq hp (by omega)]
      rfl

/-- Settles O14: each `CVT` command is the conversion with its function. -/
theorem forwardConversionsConvertEveryPixel : Obligations.ForwardConversionsConvertEveryPixel := by
  unfold Obligations.ForwardConversionsConvertEveryPixel
  intro fmt s
  exact ⟨completes_convert ⟨fun _ => rfl, rfl, rfl, rfl, by simp⟩,
    completes_convert ⟨fun _ => rfl, rfl, rfl, rfl, by simp⟩,
    completes_convert ⟨fun _ => rfl, rfl, rfl, rfl, by simp⟩,
    completes_convert ⟨fun _ => rfl, rfl, rfl, rfl, by simp⟩,
    completes_convert ⟨fun _ => rfl, rfl, rfl, rfl, by simp⟩⟩

/-- Settles O15: each `INV` command is the conversion with its function. -/
theorem inverseConversionsConvertEveryPixel : Obligations.InverseConversionsConvertEveryPixel := by
  unfold Obligations.InverseConversionsConvertEveryPixel
  intro fmt s
  exact ⟨completes_convert ⟨fun _ => rfl, rfl, rfl, rfl, by simp⟩,
    completes_convert ⟨fun _ => rfl, rfl, rfl, rfl, by simp⟩,
    completes_convert ⟨fun _ => rfl, rfl, rfl, rfl, by simp⟩,
    completes_convert ⟨fun _ => rfl, rfl, rfl, rfl, by simp⟩,
    completes_convert ⟨fun _ => rfl, rfl, rfl, rfl, by simp⟩⟩

/-! ## Planes -/

/-- A command whose effect is a run of stores over the plane at `DST` writes that plane. -/
theorem writtenPlane_of_quiet {i : Instr} {s : State} (hq : HostKeptOff i s)
    (hd : i.destChannels = some 1) (hi : ∀ fmt k, i ≠ .ich fmt k) {f g : Nat → Byte}
    (hmem : (effectOf i s).complete.mem = s.storeRun s.dst.toNat 1 f s.npix)
    (hfg : ∀ p, p < s.npix → f p = g p) : WrittenPlane g s (effectOf i s).complete := by
  intro p hp
  rw [hmem, read_plane hq (fun j hj => stores_of_dest hd hi (by omega)) f hp, hfg p hp]

/-- Settles O24: `LUMA` stores the luma of each pixel it reads. -/
theorem lumaWritesTheLumaPlane : Obligations.LumaWritesTheLumaPlane := by
  unfold Obligations.LumaWritesTheLumaPlane
  refine fun fmt s hr => completes_of_ready hr _ _ ⟨⟨rfl, rfl, rfl⟩, rfl, ⟨rfl, rfl⟩, rfl, rfl⟩ fun hq => ?_
  refine writtenPlane_of_quiet hq rfl nofun rfl fun p hp => ?_
  have hn := channels_of_ready hr rfl
  rw [sourcePixel_of_quiet hq rfl (by omega) 0 hp]

/-- The channel `XCH` copies is one the image has (R97). -/
theorem xch_channel {fmt : Fmt} {k : BitVec 4} {s : State} (hr : Ready (.xch fmt k) s) :
    k.toNat < fmt.channels := by
  have hn := channels_of_ready hr rfl
  have hw := hr.wellFormed
  simp only [Instr.wellFormed, Instr.argLegal, Bool.and_eq_true, decide_eq_true_eq] at hw
  omega

/-- Settles O26: `XCH` stores the channel of each pixel. -/
theorem xchCopiesOneChannel : Obligations.XchCopiesOneChannel := by
  unfold Obligations.XchCopiesOneChannel
  refine fun fmt k s hr => completes_of_ready hr _ _ ⟨⟨rfl, rfl, rfl⟩, rfl, ⟨rfl, rfl⟩, rfl, rfl⟩ fun hq => ?_
  exact writtenPlane_of_quiet hq rfl nofun rfl fun p hp =>
    sourceChannel_of_quiet hq rfl 0 hp (xch_channel hr)

/-- Two channels of an image at the same address are the same channel (R62). -/
theorem channel_eq_of_address_eq {n p q c k : Nat} (hc : c < n) (hk : k < n)
    (h : p * n + c = q * n + k) : c = k := by
  rw [← (pixel_div_mod p hc).2, ← (pixel_div_mod q hk).2, h]

/-- Settles O27: `ICH` stores at the channel's addresses, which no other channel shares. -/
theorem ichWritesOneChannelOnly : Obligations.IchWritesOneChannelOnly := by
  unfold Obligations.IchWritesOneChannelOnly
  refine fun fmt k s hr => completes_of_ready hr _ _ ⟨⟨rfl, rfl, rfl⟩, rfl, ⟨rfl, rfl⟩, rfl, rfl⟩ fun hq p hp => ?_
  have hk := ich_channel hr.wellFormed
  constructor
  · have hquiet (j : Nat) (hj : j < s.npix) :
        s.replaced (s.dst.toNat + k.toNat + j * fmt.channels) = [] :=
      replaced_of_stores hq ⟨j, hj, by omega⟩
    have hread := read_storeRun (s.dst.toNat + k.toNat) fmt.channels (by omega) (s.graySample 0) s.npix
      hquiet p hp
    rw [graySample_of_quiet hq rfl 0 hp, Nat.add_right_comm] at hread
    exact hread
  · intro c hc hne
    refine read_effectOf_other (.ich fmt k) s _ ?_
    rintro ⟨q, -, hq⟩
    exact hne (channel_eq_of_address_eq (p := p) (q := q) hc hk (by omega))

/-- With no host write on record the host kept off. -/
theorem hostKeptOff_of_raced_nil {i : Instr} {s : State} (h : s.raced = []) : HostKeptOff i s := by
  simp [HostKeptOff, h]

/-- A byte of a ready command's destination region is not in its source region (R266). -/
theorem not_mem_source_of_mem_dest {i : Instr} {s : State} (hr : Ready i s) {n d j a : Nat}
    (hn : i.sourceChannels = some n) (hd : i.destChannels = some d) (hj : j < s.npix * d)
    (ha : a = s.dst.toNat + j) : ¬ (s.src.toNat ≤ a ∧ a < s.src.toNat + s.npix * n) := by
  rintro ⟨hle, hlt⟩
  exact hr.disjoint ⟨n, d, hn, hd, by omega, by omega, by omega, by omega⟩

/-- Settles O28: the second command reads the plane or the image that the first one wrote; the first one's
plane is the second one's source, which its destination image does not meet. -/
theorem xchThenIchMovesOneChannel : Obligations.XchThenIchMovesOneChannel := by
  unfold Obligations.XchThenIchMovesOneChannel
  refine ⟨fun fmt k s t v b hq hr he hr' he' p hp => ?xchIch,
    fun fmt k s t v q hq hr he hr' he' p hp => ?ichXch⟩
  case xchIch =>
    obtain ⟨⟨-, -, ⟨-, -, hdim, -⟩, -⟩, -, hframe, hplane⟩ := (xchCopiesOneChannel fmt k s hr).of_exec he
    obtain ⟨-, -, -, himage⟩ := (ichWritesOneChannelOnly fmt k _ hr').of_exec he'
    have hraced : t.raced = [] := by rw [exec_of_ready hr] at he; cases he; rfl
    have hnpix : t.npix = s.npix := by simp only [State.npix, State.width, State.height, hdim]
    obtain ⟨hsame, hothers⟩ := himage (hostKeptOff_of_raced_nil hraced) p (hnpix.symm ▸ hp)
    refine ⟨hsame.trans (hplane hq p hp), fun c hc hne => (hothers c hc hne).trans (hframe _ ?_)⟩
    rintro ⟨d, hd, hle, hlt⟩
    obtain rfl : 1 = d := Option.some.inj hd
    have hj : p * fmt.channels + c < t.npix * fmt.channels := hnpix ▸ pixel_lt hp hc
    refine not_mem_source_of_mem_dest hr' rfl rfl hj (Nat.add_assoc ..) ⟨hle, ?_⟩
    show _ < s.dst.toNat + t.npix * 1
    rw [hnpix]
    exact hlt
  case ichXch =>
    obtain ⟨⟨-, -, ⟨-, -, hdim, -⟩, -⟩, -, -, himage⟩ := (ichWritesOneChannelOnly fmt k s hr).of_exec he
    obtain ⟨-, -, -, hplane⟩ := (xchCopiesOneChannel fmt k _ hr').of_exec he'
    have hraced : t.raced = [] := by rw [exec_of_ready hr] at he; cases he; rfl
    have hnpix : t.npix = s.npix := by simp only [State.npix, State.width, State.height, hdim]
    exact (hplane (hostKeptOff_of_raced_nil hraced) p (hnpix.symm ▸ hp)).trans (himage hq p hp).1

/-! ## The average -/

/-- `SUMHI`, `SUMLO` and `AVG` hold a grey sum and its truncated mean (R26, R27, R183). -/
theorem withAverage_of_graySum {s : State} (hn : s.npix ≠ 0) (u : State) :
    let t := u.withAverage s.graySum s.npix
    t.sumHi.toNat * 2 ^ 32 + t.sumLo.toNat = s.graySum ∧ t.avg.toNat = s.graySum / s.npix := by
  have hsum := sumRun_npix_lt (s.graySample 0) s
  refine ⟨withAverage_sum u s.npix (hsum.trans (by norm_num)), ?_⟩
  rw [State.withAverage_avg, BitVec.toNat_ofNat, Nat.mod_eq_of_lt (graySum_div_lt s hn)]

/-- Settles O25: the effect of `AVG` is the grey sum in the result registers. -/
theorem avgIsTheTruncatedMean : Obligations.AvgIsTheTruncatedMean := by
  unfold Obligations.AvgIsTheTruncatedMean
  refine fun fmt s hr => completes_of_ready hr _ _ ⟨rfl, ⟨rfl, rfl⟩, ⟨rfl, rfl⟩, fun _ => rfl⟩ fun hq => ?_
  intro sum
  have hsum : s.graySum = sum := graySum_of_quiet hq rfl
  rw [← hsum]
  exact withAverage_of_graySum (hr.pixels rfl) s

/-! ## Thresholds -/

/-- Settles O29: `BIN` stores the comparison of each sample with `LEVEL`. -/
theorem binComparesStrictly : Obligations.BinComparesStrictly := by
  unfold Obligations.BinComparesStrictly
  refine fun fmt s hr => completes_of_ready hr _ _
    ⟨toNat_lvlUsed_bin (hr.level rfl) fmt, ⟨rfl, rfl, rfl⟩, ⟨rfl, rfl⟩, rfl, rfl⟩ fun hq => ?_
  refine writtenPlane_of_quiet hq rfl nofun rfl fun p hp => ?_
  rw [graySample_of_quiet hq rfl 0 hp, binarise]

/-- Settles O30: `BIN.A` stores the comparison of each sample with the average it reports. -/
theorem binAutoUsesTheAverage : Obligations.BinAutoUsesTheAverage := by
  unfold Obligations.BinAutoUsesTheAverage
  refine fun fmt s hr => completes_of_ready hr _ _ ⟨rfl, ⟨rfl, rfl⟩, rfl, rfl⟩ fun hq => ?_
  intro sum
  have hsum : s.graySum = sum := graySum_of_quiet hq rfl
  rw [← hsum]
  obtain ⟨hregs, havg⟩ := withAverage_of_graySum (hr.pixels rfl) s
  refine ⟨hregs, havg, writtenPlane_of_quiet hq rfl nofun rfl fun p hp => ?_⟩
  rw [graySample_of_quiet hq rfl 1 hp, binarise]

/-- What `AVG` needs, `BIN.A` needs (R256). -/
theorem ready_avg_of_ready_binA {s : State} (hr : Ready (.binA .gray) s) : Ready (.avg .gray) s where
  wellFormed := rfl
  level := nofun
  pixels := hr.pixels
  bank := rfl
  map := rfl
  inRange := by
    rintro (hsrc | ⟨d, hd, -⟩)
    · exact hr.inRange (.inl hsrc)
    · cases hd
  disjoint := by
    rintro ⟨n, d, -, hd, -⟩
    cases hd

/-- What `BIN` needs besides a level, `BIN.A` needs (R256). -/
theorem ready_bin_of_ready_binA {s u : State} (hr : Ready (.binA .gray) s) (hsrc : u.src = s.src)
    (hdst : u.dst = s.dst) (hdim : u.dim = s.dim) (hlevel : u.level.toNat ≤ 255) :
    Ready (.bin .gray) u := by
  have hnpix : u.npix = s.npix := by simp only [State.npix, State.width, State.height, hdim]
  refine ⟨rfl, fun _ => hlevel, nofun, rfl, rfl, ?_, ?_⟩
  · have h := hr.inRange
    unfold rangeFails at h ⊢
    rwa [hsrc, hdst, hnpix]
  · have h := hr.disjoint
    unfold overlapFails at h ⊢
    rwa [hsrc, hdst, hnpix]

/-- Settles O31: `BIN` at the average stores what the second pass of `BIN.A` stores, and the registers it leaves
are those of `BIN.A`. -/
theorem binAutoIsAvgThenBin : Obligations.BinAutoIsAvgThenBin := by
  unfold Obligations.BinAutoIsAvgThenBin
  intro s t u v hq hr ht hu hv
  obtain rfl := Host.Outcome.next.inj ((exec_of_ready hr).symm.trans ht)
  obtain rfl := Host.Outcome.next.inj ((exec_of_ready (ready_avg_of_ready_binA hr)).symm.trans hu)
  obtain ⟨-, havg⟩ := withAverage_of_graySum (hr.pixels rfl) s
  set u' : State := { (effectOf (.avg .gray) s).complete with
    level := (effectOf (.avg .gray) s).complete.avg.setWidth 32 }
  have hlevel : u'.level.toNat = s.graySum / s.npix := by
    rw [← havg]
    exact BitVec.toNat_setWidth_of_le (by decide)
  have hlt := graySum_div_lt s (hr.pixels rfl)
  have hr' : Ready (.bin .gray) u' := ready_bin_of_ready_binA hr rfl rfl rfl (by omega)
  obtain rfl := Host.Outcome.next.inj ((exec_of_ready hr').symm.trans hv)
  have hstores (j : Nat) (hj : j < s.npix) : s.replaced (s.dst.toNat + j * 1) = [] :=
    replaced_of_stores hq (stores_of_dest rfl nofun (by omega))
  have hrun : u'.storeRun u'.dst.toNat 1 (fun p => binarise u'.level.toNat (u'.graySample 0 p)) u'.npix =
      s.storeRun s.dst.toNat 1 (fun p => binarise (s.graySum / s.npix) (s.graySample 1 p)) s.npix := by
    refine storeRun_congr (s := s) (u := u') rfl _ _ _ _ _ hstores (fun j _ => rfl) fun p hp => ?_
    rw [hlevel, graySample_of_quiet hq rfl 1 hp,
      graySample_of_quiet (i := .bin .gray) (s := u') (hostKeptOff_of_raced_nil rfl) rfl 0 hp]
    rfl
  simp only [effectOf, State.thresholdImage, State.storePlane, State.autoThresholdImage]
  rw [hrun, hlevel]
  rfl

theorem binarise_zero_or_255 (l : Nat) (g : Byte) : binarise l g = 0#8 ∨ binarise l g = 255#8 := by
  unfold binarise
  split
  · exact .inr rfl
  · exact .inl rfl

theorem toNat_binarise (l : Nat) (g : Byte) : (binarise l g).toNat = if l < g.toNat then 255 else 0 := by
  unfold binarise
  split <;> rfl

/-- Both thresholds store `binarise` at the level they report (R200 to R202). -/
theorem binary_image_of_ready {i : Instr} {s : State} (hi : i = .bin .gray ∨ i = .binA .gray)
    (hr : Ready i s) (hq : HostKeptOff i s) : ∃ t, exec i s = .next t ∧ ∀ p, p < s.npix →
      t.mem.read (s.dst.toNat + p) = binarise t.lvlUsed.toNat (s.mem.read (s.src.toNat + p)) := by
  rcases hi with rfl | rfl
  · obtain ⟨t, ht, -, ⟨hlevel, -⟩, -, hplane⟩ := binComparesStrictly .gray s hr
    refine ⟨t, ht, fun p hp => ?_⟩
    rw [hplane hq p hp, hlevel, binarise]
  · obtain ⟨t, ht, -, ⟨hlevel, -⟩, -, hplane⟩ := binAutoUsesTheAverage .gray s hr
    obtain ⟨-, havg, hwritten⟩ := hplane hq
    refine ⟨t, ht, fun p hp => ?_⟩
    rw [hwritten p hp, hlevel, havg, binarise]

/-- Settles O32: the first clause is what the two commands store, the others are about `binarise` alone. -/
theorem binaryImageProperties : Obligations.BinaryImageProperties := by
  unfold Obligations.BinaryImageProperties
  refine ⟨fun i s hi hr hq => ?image, fun l g g' hg => ?pixel, fun l l' g hl => ?level,
    fun l g hl hg => ?stable, fun g => ?top⟩
  case image =>
    obtain ⟨t, ht, hread⟩ := binary_image_of_ready hi hr hq
    exact ⟨t, ht, fun p hp => ⟨hread p hp, by rw [hread p hp]; exact binarise_zero_or_255 _ _⟩⟩
  case pixel | level =>
    rw [toNat_binarise, toNat_binarise]
    split_ifs <;> omega
  case stable =>
    rcases hg with rfl | rfl
    · exact if_neg (by simp)
    · exact if_pos hl
  case top => exact if_neg (by have := g.isLt; omega)

end Sys2Proof.Machine

/-! The tables (`44_histogram.md`, `45_equalizer.md`): what `HIST` counts, the map `EQMAP` builds and `EQAPP`
applies; and that a command's outputs depend on what it reads only (`10_state.md` section 7). -/

namespace Sys2Proof.Machine

/-! ## The histogram -/

/-- Four banks by their numbers. -/
theorem bank_of_hist {t : State} {a b c d : Bank} (h : t.hist = #v[a, b, c, d]) :
    t.bank 0 = a ∧ t.bank 1 = b ∧ t.bank 2 = c ∧ t.bank 3 = d := by
  simp [State.bank, h]

/-- The banks after `HIST` of a grey image (R210). -/
theorem bank_hist_gray {s : State} (hq : HostKeptOff (.hist .gray) s) :
    let t := (effectOf (.hist .gray) s).complete
    let samples := countRun (fun p => s.mem.read (s.src.toNat + p)) s.npix
    t.bank 0 = samples ∧ t.bank 1 = emptyBank ∧ t.bank 2 = emptyBank ∧ t.bank 3 = samples :=
  bank_of_hist ((complete_countImage_hist .gray s).trans (grayBanks_of_quiet hq rfl))

/-- The banks after `HIST` of a colour image (R210). -/
theorem bank_hist_colour {fmt : Fmt} {s : State} (hr : Ready (.hist fmt) s) (hg : fmt ≠ .gray)
    (hq : HostKeptOff (.hist fmt) s) :
    let t := (effectOf (.hist fmt) s).complete
    t.bank 0 = countRun (fun p => pixelByte s.mem s.src.toNat fmt.channels p 0) s.npix ∧
      t.bank 1 = countRun (fun p => pixelByte s.mem s.src.toNat fmt.channels p 1) s.npix ∧
      t.bank 2 = countRun (fun p => pixelByte s.mem s.src.toNat fmt.channels p 2) s.npix ∧
      t.bank 3 = countRun (fun p => luma8 (pixelAt s.mem s.src.toNat fmt.channels p)) s.npix := by
  refine bank_of_hist ((complete_countImage_hist fmt s).trans ?_)
  rw [if_neg hg, colourBanks_of_quiet hq rfl (three_le_channels_of_hist hr.wellFormed hg)]

theorem sameMemory_hist (fmt : Fmt) (s : State) : SameMemory s (effectOf (.hist fmt) s).complete := by
  intro a
  rw [effectOf, countImage_eq]
  rfl

/-- Settles O33: each bank is a count of one value of each pixel, and a counter holds the number of pixels
with its value. -/
theorem histCountsEveryValue : Obligations.HistCountsEveryValue := by
  unfold Obligations.HistCountsEveryValue
  refine fun fmt s hr => completes_of_ready hr _ _ ⟨complete_countImage_hv fmt s,
    sameAverage_effectOf (by simp) s, lvlUsed_effectOf (by simp) s, sameMap_effectOf (by simp) s,
    sameMemory_hist fmt s⟩ fun hq i => ?_
  intro count
  have counts (f : Nat → Byte) : ((countRun f s.npix)[i]).toNat = count f :=
    Bank.countRun_getElem f s.npix i i.isLt (npix_lt s)
  refine ⟨?gray, fun hg => ?colour⟩
  case gray =>
    rintro rfl
    obtain ⟨h0, h1, h2, h3⟩ := bank_hist_gray hq
    rw [h0, h1, h2, h3]
    exact ⟨counts _, counts _, Bank.getElem_emptyBank i i.isLt, Bank.getElem_emptyBank i i.isLt⟩
  case colour =>
    obtain ⟨h0, h1, h2, h3⟩ := bank_hist_colour hr hg hq
    rw [h0, h1, h2, h3]
    exact ⟨counts _, counts _, counts _, counts _⟩

/-- A bank that `HIST` leaves invalid is one of a grey image, and empty (R210). -/
theorem bank_of_hv_false {fmt : Fmt} {s : State} {b : Nat} (hb : b < 4)
    (hv : (effectOf (.hist fmt) s).complete.hv.getLsbD b = false) :
    (effectOf (.hist fmt) s).complete.bank b = emptyBank := by
  rw [complete_countImage_hv] at hv
  unfold State.bank
  rw [complete_countImage_hist]
  by_cases hg : fmt = .gray
  · simp only [hg, if_true] at hv ⊢
    interval_cases b
    · exact absurd hv (by decide)
    · rfl
    · rfl
    · exact absurd hv (by decide)
  · simp only [hg, if_false] at hv
    interval_cases b <;> exact absurd hv (by decide)

/-- The host reads zero from a bank that is not valid, once no command runs (R41). -/
theorem regValue_hist_of_invalid {t : State} (hbusy : t.busy = false) {b : Nat}
    (hv : t.hv.getLsbD b = false) (i : Nat) : t.regValue (.hist b i) = 0#32 := by
  rw [State.regValue, whenIdle_of_idle hbusy, State.histWord, hv]
  rfl

/-- Settles O34: a valid bank counts one value for each pixel; the others are empty, and check 7 refuses
them. -/
theorem histogramsConserveThePixelCount : Obligations.HistogramsConserveThePixelCount := by
  unfold Obligations.HistogramsConserveThePixelCount
  intro fmt s t hr he
  obtain rfl := Host.Outcome.next.inj ((exec_of_ready hr).symm.trans he)
  refine ⟨Nat.one_le_iff_ne_zero.2 (hr.pixels rfl), fun b hb hv => ?valid, fun b hb hv => ⟨?zero, ?refused⟩⟩
  case valid =>
    have htotal : ((effectOf (.hist fmt) s).complete.bank b).total = s.npix := total_countImage fmt s hb hv
    rw [← htotal, Bank.total, Bank.sumBelow_eq_sum _ _ le_rfl]
  case zero =>
    intro i hi
    rw [bank_of_hv_false hb hv, Vector.getElem?_eq_getElem hi, Bank.getElem_emptyBank i hi]
    exact ⟨rfl, regValue_hist_of_invalid rfl hv i⟩
  case refused =>
    obtain ⟨-, hnohist, -⟩ := tablesSurvive
    have hb' : (BitVec.ofNat 4 b).toNat = b := by
      rw [BitVec.toNat_ofNat]
      omega
    exact hnohist _ _ (by omega) (by rw [hb']; exact hv)

/-- A count of zeros: bin 0 holds them all (R213). -/
theorem countRun_of_zero {f : Nat → Byte} {n : Nat} (hn : n < 2 ^ 32) (hf : ∀ p, p < n → f p = 0#8) :
    ((countRun f n)[(0 : Fin 256)]).toNat = n ∧ ∀ i : Fin 256, i ≠ 0 → (countRun f n)[i] = 0#32 := by
  rw [Bank.countRun_congr (f := fun _ => 0#8) hf]
  refine ⟨(Bank.countRun_getElem _ n 0 (by omega) hn).trans (by simp), fun i hi => ?_⟩
  apply BitVec.eq_of_toNat_eq
  have hne : ¬ 0 = i.val := fun h => hi (Fin.ext h.symm)
  exact (Bank.countRun_getElem _ n i i.isLt hn).trans (by simp [hne])

/-- Settles O36: every bank counts a value that is 0 for each pixel. -/
theorem allBlackHistogram : Obligations.AllBlackHistogram := by
  unfold Obligations.AllBlackHistogram
  intro fmt s hfmt hr hq hblack
  have hbyte {p c : Nat} (hp : p < s.npix) (hc : c < fmt.channels) :
      pixelByte s.mem s.src.toNat fmt.channels p c = 0#8 := by
    have hlt := pixel_lt hp hc
    exact hblack _ ⟨_, rfl, by omega, by omega⟩
  have zero (f : Nat → Byte) (hf : ∀ p, p < s.npix → f p = 0#8) := countRun_of_zero (npix_lt s) hf
  refine ⟨_, exec_of_ready hr, fun b hb hbank => ?_⟩
  rcases hfmt with rfl | rfl
  · obtain ⟨h0, h1, h2, h3⟩ := bank_hist_colour hr (by decide) hq
    interval_cases b
    · rw [h0]; exact zero _ fun p hp => hbyte hp (by decide)
    · rw [h1]; exact zero _ fun p hp => hbyte hp (by decide)
    · rw [h2]; exact zero _ fun p hp => hbyte hp (by decide)
    · rw [h3]
      refine zero _ fun p hp => ?_
      rw [pixelAt, hbyte hp (by decide), hbyte hp (by decide), hbyte hp (by decide)]
      decide
  · obtain ⟨h0, -, -, h3⟩ := bank_hist_gray hq
    have hsample (p : Nat) (hp : p < s.npix) : s.mem.read (s.src.toNat + p) = 0#8 := by
      simpa [pixelByte, Fmt.channels] using hbyte hp (c := 0) (by decide)
    rcases hbank with hrgb | rfl | rfl
    · exact absurd hrgb (by decide)
    · rw [h0]; exact zero _ hsample
    · rw [h3]; exact zero _ hsample

/-! ## The map -/

/-- Settles O37: an entry is the rounded share, the cumulative count being a sum of counters. -/
theorem eqmapBuildsTheMap : Obligations.EqmapBuildsTheMap := by
  unfold Obligations.EqmapBuildsTheMap
  refine fun fmt b s hr htotal => completes_of_ready hr _ _
    ⟨rfl, ⟨rfl, rfl, rfl⟩, rfl, ⟨rfl, rfl⟩, fun _ => rfl, fun i => ?_⟩ fun _ => trivial
  intro counter total cum
  have hcum : (s.bank b.toNat).cumsum i = cum := Bank.sumBelow_eq_sum _ _ i.isLt
  have htot : (s.bank b.toNat).total = total := Bank.sumBelow_eq_sum _ _ le_rfl
  have hentry := Bank.toNat_mapEntry (s.bank b.toNat) i.isLt htotal
  rw [hcum, htot, ← Bank.getElem_equalization] at hentry
  exact hentry

/-- Counters that are zero do not add to a sum (R220). -/
theorem sumBelow_eq_of_zero (bank : Bank) {m n : Nat} (hmn : m ≤ n) (hn : n ≤ 256)
    (h : ∀ j : Fin 256, m ≤ j.val → j.val < n → bank[j] = 0#32) : bank.sumBelow n = bank.sumBelow m := by
  induction n, hmn using Nat.le_induction with
  | base => rfl
  | succ n hmn ih =>
    have hzero : bank[n] = 0#32 := h ⟨n, hn⟩ hmn (Nat.lt_succ_self n)
    rw [Bank.sumBelow_succ bank n hn, hzero, ih (by omega) fun j hm hj => h j hm (by omega)]
    rfl

/-- An entry with nothing counted up to it is 0 (R222 (a)). -/
theorem mapEntry_of_cumsum_zero (bank : Bank) (ht : 1 ≤ bank.total) {i : Nat} (hi : i < 256)
    (h : bank.cumsum i = 0) : bank.mapEntry i = 0#8 := by
  apply BitVec.eq_of_toNat_eq
  rw [Bank.toNat_mapEntry bank hi ht, h, Nat.zero_mul, Nat.zero_add]
  exact Nat.div_eq_of_lt (Nat.div_lt_self ht (by norm_num))

/-- An entry with everything counted up to it is 255, as the last one is (R222 (b)). -/
theorem mapEntry_of_cumsum_total (bank : Bank) (ht : 1 ≤ bank.total) {i : Nat}
    (h : bank.cumsum i = bank.total) : bank.mapEntry i = 255#8 := by
  rw [← Bank.mapEntry_last bank ht, Bank.mapEntry, Bank.mapEntry, h, Bank.cumsum_last]

/-- Rounding to the nearest integer is off by at most a half. -/
theorem abs_rounded_div_sub_le (c t : Nat) (ht : 1 ≤ t) :
    |(((c + t / 2) / t : Nat) : ℚ) - (c : ℚ) / (t : ℚ)| ≤ 1 / 2 := by
  have hpos : (0 : ℚ) < t := by exact_mod_cast ht
  have hdiv : t * ((c + t / 2) / t) + (c + t / 2) % t = c + t / 2 := Nat.div_add_mod _ _
  have hmod : (c + t / 2) % t < t := Nat.mod_lt _ ht
  generalize (c + t / 2) / t = q at hdiv ⊢
  have hlow : 2 * (t * q) ≤ 2 * c + t := by omega
  have hhigh : 2 * c ≤ 2 * (t * q) + t := by omega
  have hlow' : (2 : ℚ) * (t * q) ≤ 2 * c + t := by exact_mod_cast hlow
  have hhigh' : (2 : ℚ) * c ≤ 2 * (t * q) + t := by exact_mod_cast hhigh
  have hdist : (q : ℚ) - c / t = (t * q - c) / t := by field_simp
  rw [hdist, abs_le, le_div_iff₀ hpos, div_le_iff₀ hpos]
  constructor <;> linarith

/-- Settles O39: the corners are cumulative counts of 0 and of the total; the error is that of one rounding. -/
theorem mapCornerCases : Obligations.MapCornerCases := by
  unfold Obligations.MapCornerCases
  intro bank ht
  have below (i : Fin 256) (h : bank.cumsum i = 0) : bank.equalization[i] = 0#8 :=
    (Bank.getElem_equalization bank i i.isLt).trans (mapEntry_of_cumsum_zero bank ht i.isLt h)
  have above (i : Fin 256) (h : ∀ j : Fin 256, i < j → bank[j] = 0#32) :
      bank.equalization[i] = 255#8 := by
    refine (Bank.getElem_equalization bank i i.isLt).trans (mapEntry_of_cumsum_total bank ht ?_)
    exact (sumBelow_eq_of_zero bank i.isLt le_rfl fun j hj _ => h j hj).symm
  refine ⟨below, above, fun x hx i => ?single, fun i => ?error⟩
  case single =>
    split
    · next hlt =>
      refine below i ?_
      rw [Bank.cumsum, sumBelow_eq_of_zero bank (Nat.zero_le _) i.isLt fun j _ hj => hx j ?_,
        Bank.sumBelow_zero]
      exact (lt_of_le_of_lt (Fin.le_def.2 (Nat.lt_succ_iff.1 hj)) hlt).ne
    · next hge =>
      exact above i fun j hj => hx j (lt_of_le_of_lt (not_lt.1 hge) hj).ne'
  case error =>
    have hentry : (bank.equalization[i]).toNat =
        (bank.cumsum i * 255 + bank.total / 2) / bank.total := by
      rw [← Bank.toNat_mapEntry bank i.isLt ht, ← Bank.getElem_equalization bank i i.isLt]
      rfl
    rw [hentry]
    have hround := abs_rounded_div_sub_le (bank.cumsum i * 255) bank.total ht
    rwa [Nat.cast_mul, Nat.cast_ofNat, mul_comm (bank.cumsum i : ℚ)] at hround

/-- A byte has an entry in the map (R223). -/
theorem getElem?_map (s : State) (g : Byte) : s.map[g.toNat]?.getD 0#8 = s.mapped g := by
  rw [State.mapped, Vector.getElem?_eq_getElem g.isLt, Option.getD_some]

/-- Settles O40: `EQAPP` stores the map's entry for each sample. -/
theorem eqappLooksUpEverySample : Obligations.EqappLooksUpEverySample := by
  unfold Obligations.EqappLooksUpEverySample
  refine fun fmt s hr => completes_of_ready hr _ _ ⟨⟨rfl, rfl, rfl⟩, rfl, ⟨rfl, rfl⟩, rfl, rfl⟩ fun hq => ?_
  refine writtenPlane_of_quiet hq rfl nofun rfl fun p hp => ?_
  rw [graySample_of_quiet hq rfl 0 hp, getElem?_map]

/-- Settles O41: a ready `EQAPP` has a map, which the table invariant says rises. -/
theorem eqappPreservesOrder : Obligations.EqappPreservesOrder := by
  unfold Obligations.EqappPreservesOrder
  intro s hmean hr hq
  have hmv : s.mv = true := by simpa [mapMissing] using hr.map
  obtain ⟨t, ht, -, -, -, hplane⟩ := eqappLooksUpEverySample .gray s hr
  refine ⟨t, ht, fun p q hp hq' hle => ?_⟩
  rw [hplane hq p hp, hplane hq q hq']
  simp only [getElem?_map]
  exact hmean.rising hmv ⟨_, BitVec.isLt _⟩ ⟨_, BitVec.isLt _⟩ hle

end Sys2Proof.Machine

/-! Two runs of one instruction from states that agree on what it reads (`10_state.md` section 7,
`30_encoding.md` R104): they leave the same outputs. -/

namespace Sys2Proof.Machine

/-- The result a ready command completes with, where the host kept off. -/
theorem Completes.result_of_ready {i : Instr} {s : State} {frame result : State → Prop}
    (h : Completes i s frame result) (hr : Ready i s) (hq : HostKeptOff i s) :
    result (effectOf i s).complete := by
  obtain ⟨-, -, -, hresult⟩ := h.of_exec (exec_of_ready hr)
  exact hresult hq

/-- Two runs of an instruction that are ready, read the same, and are left alone by the host. -/
structure SameRuns (i : Instr) (s u : State) : Prop where
  quiet : HostKeptOff i s
  quiet' : HostKeptOff i u
  ready : Ready i s
  ready' : Ready i u
  inputs : SameInputs i s u

/-- Two images with the same pixel, by its three channels and its alpha, have the same bytes there. -/
theorem pixelByte_eq_of_pixelAt {m m' : Memory} {base n p c : Nat} (hn : n = 3 ∨ n = 4) (hc : c < n)
    (hpixel : pixelAt m' base n p = pixelAt m base n p)
    (halpha : n = 4 → pixelByte m' base 4 p 3 = pixelByte m base 4 p 3) :
    pixelByte m' base n p c = pixelByte m base n p c := by
  obtain ⟨h0, h1, h2⟩ := Triple.mk.inj hpixel
  have hc4 : c < 4 := by omega
  interval_cases c
  · exact h0
  · exact h1
  · exact h2
  · obtain rfl : n = 4 := by omega
    exact halpha rfl

section
variable {i : Instr} {s u : State} (h : SameRuns i s u)
include h

/-! ## What they read -/

theorem SameRuns.npix_eq {n : Nat} (hn : i.sourceChannels = some n) : u.npix = s.npix :=
  npix_of_sameInputs h.inputs (by simp [hn])

theorem SameRuns.dst_eq {d : Nat} (hd : i.destChannels = some d) : u.dst = s.dst := by
  obtain ⟨-, hdst, -⟩ := h.inputs
  exact hdst (by simp [hd])

theorem SameRuns.pixelByte_eq {n : Nat} (hn : i.sourceChannels = some n) {p c : Nat} (hp : p < s.npix)
    (hc : c < n) : pixelByte u.mem u.src.toNat n p c = pixelByte s.mem s.src.toNat n p c := by
  obtain ⟨hsrc, -, -, -, -, hread⟩ := h.inputs
  obtain ⟨hsrc, -⟩ := hsrc (by simp [hn])
  have hlt := pixel_lt hp hc
  rw [pixelByte, pixelByte, hsrc, hread _ ⟨n, hn, by omega, by omega⟩]

theorem SameRuns.pixelAt_eq {n : Nat} (hn : i.sourceChannels = some n) (h3 : 3 ≤ n) {p : Nat}
    (hp : p < s.npix) : pixelAt u.mem u.src.toNat n p = pixelAt s.mem s.src.toNat n p := by
  rw [pixelAt, pixelAt, h.pixelByte_eq hn hp (by omega), h.pixelByte_eq hn hp (by omega),
    h.pixelByte_eq hn hp (by omega)]

theorem SameRuns.sample_eq (hn : i.sourceChannels = some 1) {p : Nat} (hp : p < s.npix) :
    u.mem.read (u.src.toNat + p) = s.mem.read (s.src.toNat + p) := by
  simpa [pixelByte] using h.pixelByte_eq hn hp Nat.one_pos

theorem SameRuns.graySum_eq (hn : i.sourceChannels = some 1) : u.graySum = s.graySum := by
  rw [graySum_of_quiet h.quiet' hn, graySum_of_quiet h.quiet hn, h.npix_eq hn]
  exact Finset.sum_congr rfl fun p hp => by rw [h.sample_eq hn (Finset.mem_range.1 hp)]

/-! ## What they store -/

/-- Two written planes with the same samples. -/
theorem SameRuns.plane_eq {n : Nat} (hn : i.sourceChannels = some n) (hd : i.destChannels = some 1)
    {f g : Nat → Byte} {t v : State} (ht : WrittenPlane f s t) (hv : WrittenPlane g u v)
    (hfg : ∀ p, p < s.npix → g p = f p) {a : Nat}
    (ha : ∃ d, some 1 = some d ∧ s.dst.toNat ≤ a ∧ a < s.dst.toNat + s.npix * d) :
    v.mem.read a = t.mem.read a := by
  obtain ⟨d, hone, hle, hlt⟩ := ha
  obtain rfl : 1 = d := Option.some.inj hone
  have hp : a - s.dst.toNat < s.npix := by omega
  have hread := hv (a - s.dst.toNat) (by rw [h.npix_eq hn]; exact hp)
  rw [h.dst_eq hd, hfg _ hp, ← ht _ hp, Nat.add_sub_cancel' hle] at hread
  exact hread

/-- Two converted images of the same source. -/
theorem SameRuns.image_eq {f : Triple → Triple} {fmt : Fmt} (hi : Converts i f fmt) {a : Nat}
    (ha : ∃ d, some fmt.channels = some d ∧ s.dst.toNat ≤ a ∧ a < s.dst.toNat + s.npix * d) :
    (effectOf i u).complete.mem.read a = (effectOf i s).complete.mem.read a := by
  obtain ⟨d, hsome, hle, hlt⟩ := ha
  obtain rfl : fmt.channels = d := Option.some.inj hsome
  have hn := channels_of_ready h.ready hi.legal
  have hp : (a - s.dst.toNat) / fmt.channels < s.npix := by
    rw [Nat.div_lt_iff_lt_mul (by omega)]
    omega
  have hc : (a - s.dst.toNat) % fmt.channels < fmt.channels := Nat.mod_lt _ (by omega)
  have haddr : a = s.dst.toNat + (a - s.dst.toNat) / fmt.channels * fmt.channels +
      (a - s.dst.toNat) % fmt.channels := by
    rw [Nat.add_assoc, Nat.div_add_mod']
    omega
  rw [haddr]
  generalize (a - s.dst.toNat) / fmt.channels = p at hp
  generalize (a - s.dst.toNat) % fmt.channels = c at hc
  obtain ⟨hs, hsalpha⟩ := (completes_convert hi h.ready).result_of_ready h.ready h.quiet p hp
  obtain ⟨hu, hualpha⟩ := (completes_convert hi h.ready').result_of_ready h.ready' h.quiet' p
    (by rw [h.npix_eq hi.source]; exact hp)
  rw [h.dst_eq hi.dest] at hu hualpha
  refine pixelByte_eq_of_pixelAt hn hc ?_ fun h4 => ?_
  · rw [hu, hs, h.pixelAt_eq hi.source (by omega) hp]
  · have halpha := h.pixelByte_eq (n := 4) (c := 3) (h4 ▸ hi.source) hp (by omega)
    rw [hualpha h4, hsalpha h4, halpha]

end

/-- Two runs store the same bytes in the destination set (R70). -/
theorem SameRuns.stored_eq {i : Instr} {s u : State} (h : SameRuns i s u) {a : Nat} (ha : stores i s a) :
    (effectOf i u).complete.mem.read a = (effectOf i s).complete.mem.read a := by
  have none {P : Prop} (hno : ∃ d, (none : Option Nat) = some d ∧ s.dst.toNat ≤ a ∧
      a < s.dst.toNat + s.npix * d) : P := by
    obtain ⟨d, hd, -⟩ := hno
    cases hd
  have results {frame result frame' result' : State → Prop} (hs : Completes i s frame result)
      (hu : Completes i u frame' result') :=
    And.intro (hs.result_of_ready h.ready h.quiet) (hu.result_of_ready h.ready' h.quiet')
  cases i with
  | nop => exact none ha
  | avg => exact none ha
  | hist => exact none ha
  | eqmap => exact none ha
  | cvtRgb fmt => exact h.image_eq ⟨fun _ => rfl, rfl, rfl, rfl, by simp⟩ ha
  | cvtHsv fmt => exact h.image_eq ⟨fun _ => rfl, rfl, rfl, rfl, by simp⟩ ha
  | cvtHsl fmt => exact h.image_eq ⟨fun _ => rfl, rfl, rfl, rfl, by simp⟩ ha
  | cvtHsi fmt => exact h.image_eq ⟨fun _ => rfl, rfl, rfl, rfl, by simp⟩ ha
  | cvtYuv fmt => exact h.image_eq ⟨fun _ => rfl, rfl, rfl, rfl, by simp⟩ ha
  | invRgb fmt => exact h.image_eq ⟨fun _ => rfl, rfl, rfl, rfl, by simp⟩ ha
  | invHsv fmt => exact h.image_eq ⟨fun _ => rfl, rfl, rfl, rfl, by simp⟩ ha
  | invHsl fmt => exact h.image_eq ⟨fun _ => rfl, rfl, rfl, rfl, by simp⟩ ha
  | invHsi fmt => exact h.image_eq ⟨fun _ => rfl, rfl, rfl, rfl, by simp⟩ ha
  | invYuv fmt => exact h.image_eq ⟨fun _ => rfl, rfl, rfl, rfl, by simp⟩ ha
  | luma fmt =>
    obtain ⟨hs, hu⟩ := results (lumaWritesTheLumaPlane fmt s h.ready) (lumaWritesTheLumaPlane fmt u h.ready')
    have hn := channels_of_ready h.ready rfl
    exact h.plane_eq rfl rfl hs hu (fun p hp => congrArg luma8 (h.pixelAt_eq rfl (by omega) hp)) ha
  | xch fmt k =>
    obtain ⟨hs, hu⟩ := results (xchCopiesOneChannel fmt k s h.ready) (xchCopiesOneChannel fmt k u h.ready')
    exact h.plane_eq rfl rfl hs hu (fun p hp => h.pixelByte_eq rfl hp (xch_channel h.ready)) ha
  | bin fmt =>
    obtain ⟨hs, hu⟩ := results (binComparesStrictly fmt s h.ready) (binComparesStrictly fmt u h.ready')
    obtain ⟨-, -, hlevel, -⟩ := h.inputs
    exact h.plane_eq rfl rfl hs hu (fun p hp => by rw [h.sample_eq rfl hp, hlevel rfl]) ha
  | binA fmt =>
    obtain ⟨⟨-, -, hs⟩, -, -, hu⟩ :=
      results (binAutoUsesTheAverage fmt s h.ready) (binAutoUsesTheAverage fmt u h.ready')
    refine h.plane_eq rfl rfl hs hu (fun p hp => ?_) ha
    rw [h.sample_eq rfl hp, ← graySum_of_quiet h.quiet' rfl, ← graySum_of_quiet h.quiet rfl,
      h.graySum_eq rfl, h.npix_eq rfl]
  | eqapp fmt =>
    obtain ⟨hs, hu⟩ := results (eqappLooksUpEverySample fmt s h.ready) (eqappLooksUpEverySample fmt u h.ready')
    obtain ⟨-, -, -, -, hmap, -⟩ := h.inputs
    obtain ⟨hmap, -⟩ := hmap fmt rfl
    exact h.plane_eq rfl rfl hs hu (fun p hp => by rw [h.sample_eq rfl hp, hmap]) ha
  | ich fmt k =>
    obtain ⟨hs, hu⟩ := results (ichWritesOneChannelOnly fmt k s h.ready) (ichWritesOneChannelOnly fmt k u h.ready')
    obtain ⟨p, hp, rfl⟩ := ha
    obtain ⟨hu, -⟩ := hu p (by rw [h.npix_eq rfl]; exact hp)
    rw [h.dst_eq rfl, h.sample_eq rfl hp, ← (hs p hp).1] at hu
    exact hu

/-! ## The tables and registers they write -/

theorem SameRuns.sameHistogram {fmt : Fmt} {s u : State} (h : SameRuns (.hist fmt) s u) :
    SameHistogram (effectOf (.hist fmt) s).complete (effectOf (.hist fmt) u).complete := by
  refine ⟨?_, by rw [complete_countImage_hv, complete_countImage_hv]⟩
  have counts {f g : Nat → Byte} (hfg : ∀ p, p < s.npix → g p = f p) :
      countRun g s.npix = countRun f s.npix := Bank.countRun_congr hfg
  rw [complete_countImage_hist, complete_countImage_hist]
  by_cases hg : fmt = .gray
  · subst hg
    have hbank := counts fun p hp => h.sample_eq rfl hp
    rw [if_pos rfl, if_pos rfl, grayBanks_of_quiet h.quiet rfl, grayBanks_of_quiet h.quiet' rfl, h.npix_eq rfl,
      hbank]
  · have h3 := three_le_channels_of_hist h.ready.wellFormed hg
    rw [if_neg hg, if_neg hg, colourBanks_of_quiet h.quiet rfl h3, colourBanks_of_quiet h.quiet' rfl h3,
      h.npix_eq rfl]
    exact four_banks (counts fun p hp => h.pixelByte_eq rfl hp (by omega))
      (counts fun p hp => h.pixelByte_eq rfl hp (by omega))
      (counts fun p hp => h.pixelByte_eq rfl hp (by omega))
      (counts fun p hp => congrArg luma8 (h.pixelAt_eq rfl h3 hp))

theorem SameRuns.sameMap {fmt : Fmt} {b : BitVec 4} {s u : State} (h : SameRuns (.eqmap fmt b) s u) :
    SameMap (effectOf (.eqmap fmt b) s).complete (effectOf (.eqmap fmt b) u).complete := by
  obtain ⟨-, -, -, hbank, -⟩ := h.inputs
  exact ⟨congrArg Bank.equalization (hbank fmt b rfl).1, Eq.trans (b := true) rfl rfl⟩

/-- The average registers of two sums of the same image. -/
theorem sameAverage_withAverage {s u : State} (hsum : u.graySum = s.graySum) (hn : u.npix = s.npix)
    (s' u' : State) :
    SameAverage (s'.withAverage s.graySum s.npix) (u'.withAverage u.graySum u.npix) := by
  rw [hsum, hn]
  exact ⟨rfl, rfl, rfl⟩

theorem SameRuns.lvlUsed_bin {fmt : Fmt} {s u : State} (h : SameRuns (.bin fmt) s u) :
    (effectOf (.bin fmt) u).complete.lvlUsed = (effectOf (.bin fmt) s).complete.lvlUsed := by
  obtain ⟨-, -, hlevel, -⟩ := h.inputs
  exact congrArg (fun l : Word => BitVec.ofNat 8 l.toNat) (hlevel rfl)

theorem SameRuns.sameAverage_binA {fmt : Fmt} {s u : State} (h : SameRuns (.binA fmt) s u) :
    SameAverage (effectOf (.binA fmt) s).complete (effectOf (.binA fmt) u).complete :=
  sameAverage_withAverage (h.graySum_eq rfl) (h.npix_eq rfl) s u

/-- Settles O44: readiness carries over, and each output is the one the statement of the command gives, from
the bytes and registers that agree. -/
theorem outputsDependOnOperandsAndSourceOnly : Obligations.OutputsDependOnOperandsAndSourceOnly := by
  unfold Obligations.OutputsDependOnOperandsAndSourceOnly
  intro i s u t v hqs hqu hr hin hs hu
  have hr' := ready_of_sameInputs hr hin
  have h : SameRuns i s u := ⟨hqs, hqu, hr, hr', hin⟩
  obtain rfl := Host.Outcome.next.inj ((exec_of_ready hr).symm.trans hs)
  obtain rfl := Host.Outcome.next.inj ((exec_of_ready hr').symm.trans hu)
  refine ⟨completed_effect i u, fun a ha => h.stored_eq ha, ?hist, ?map, ?average, ?level⟩
  case hist =>
    rintro ⟨fmt, rfl⟩
    exact h.sameHistogram
  case map =>
    rintro ⟨fmt, b, rfl⟩
    exact h.sameMap
  case average =>
    rintro ⟨fmt, rfl | rfl⟩
    · exact sameAverage_withAverage (h.graySum_eq rfl) (h.npix_eq rfl) s u
    · exact h.sameAverage_binA
  case level =>
    rintro ⟨fmt, rfl | rfl⟩
    · exact h.lvlUsed_bin
    · exact h.sameAverage_binA.1

end Sys2Proof.Machine

/-! The colour conversions in their integer forms (`40_codec_forward.md`, `41_codec_inverse.md`,
`42_grayscale_planes.md` section 1): bytes as integers, the rounding division, and the facts that need no real
number. -/

namespace Sys2Proof.Machine

/-! ## Bytes as integers -/

theorem level_nonneg (b : Byte) : 0 ≤ level b := Int.natCast_nonneg _

theorem level_le (b : Byte) : level b ≤ 255 := by
  have := b.isLt
  unfold level
  omega

theorem level_range (b : Byte) : 0 ≤ level b ∧ level b ≤ 255 := ⟨level_nonneg b, level_le b⟩

theorem level_le_level {a b : Byte} : level a ≤ level b ↔ a.toNat ≤ b.toNat := Int.ofNat_le

theorem level_lt_level {a b : Byte} : level a < level b ↔ a.toNat < b.toNat := Int.ofNat_lt

theorem level_inj {a b : Byte} : level a = level b ↔ a = b := by
  rw [level, level, Nat.cast_inj, BitVec.toNat_inj]

/-- `clamp8` moves a number to the nearest level (R9). -/
theorem level_clamp8 (n : Int) : level (clamp8 n) = max 0 (min n 255) := by
  unfold clamp8 level
  split_ifs with hneg hbig
  · simp; omega
  · simp; omega
  · rw [BitVec.toNat_ofInt]
    omega

/-- A level needs no clamp. -/
@[simp] theorem clamp8_level (b : Byte) : clamp8 (level b) = b := by
  have := level_range b
  rw [← level_inj, level_clamp8]
  omega

theorem clamp8_zero : clamp8 0 = 0#8 := by decide

/-- A number divided by a positive one is rounded to the nearest integer; a multiple stays (R9). -/
theorem rdiv_mul_self {d : Int} (hd : 0 < d) (n : Int) : rdiv (n * d) d = n := by
  have e : 2 * (n * d) + d = d + n * (2 * d) := by ring
  rw [rdiv, e, Int.add_mul_ediv_right _ _ (by omega), Int.ediv_eq_zero_of_lt (by omega) (by omega),
    zero_add]

/-- A common factor cancels. -/
theorem rdiv_mul_mul_right {k : Int} (hk : 0 < k) (n d : Int) : rdiv (n * k) (d * k) = rdiv n d := by
  have e1 : 2 * (n * k) + d * k = (2 * n + d) * k := by ring
  have e2 : 2 * (d * k) = 2 * d * k := by ring
  rw [rdiv, e1, e2, Int.mul_ediv_mul_of_pos_left _ _ hk, rdiv]

/-! ## Luma -/

theorem luma_level_range (t : Triple) : 0 ≤ lumaLevel (level t.c0) (level t.c1) (level t.c2) ∧
    lumaLevel (level t.c0) (level t.c1) (level t.c2) ≤ 255 := by
  have := level_range t.c0
  have := level_range t.c1
  have := level_range t.c2
  unfold lumaLevel
  omega

/-- The clamp of `luma8` never acts (R180). -/
theorem level_luma8 (t : Triple) :
    level (luma8 t) = (299 * level t.c0 + 587 * level t.c1 + 114 * level t.c2 + 500) / 1000 := by
  have h := luma_level_range t
  rw [luma8, level_clamp8, ← lumaLevel]
  omega

/-- Settles O23: the weights add up to 1000 and are not negative, and the clamp never acts. -/
theorem lumaFacts : Obligations.LumaFacts := by
  unfold Obligations.LumaFacts
  refine ⟨fun x => ?grey, fun r g b r' g' b' hr hg hb => ?monotone, by decide, by decide, by decide,
    by decide, by decide, fun t ht => ?tie, by decide, by decide⟩
  case grey =>
    rw [← level_inj, level_luma8]
    dsimp only
    omega
  case monotone =>
    have h := level_luma8 ⟨r, g, b⟩
    have h' := level_luma8 ⟨r', g', b'⟩
    simp only [level] at h h'
    omega
  case tie =>
    have h := level_luma8 t
    simp only [level] at h
    omega

/-! ## Achromatic and clamped pixels -/

theorem hue8_grey (x : Int) : hue8 x x x = 0 := by simp [hue8, maxOf, minOf]

theorem hsvSat8_grey {x : Int} (hx : 0 ≤ x) : hsvSat8 x x x = 0 := by
  simp only [hsvSat8, maxOf, minOf, max_self, min_self, sub_self, mul_zero, zero_add]
  split
  · rfl
  · exact Int.ediv_eq_zero_of_lt hx (by omega)

theorem hslSat8_grey (x : Int) : hslSat8 x x x = 0 := by simp [hslSat8, maxOf, minOf]

theorem hslLight8_grey (x : Int) : hslLight8 x x x = x := by
  simp only [hslLight8, maxOf, minOf, max_self, min_self]
  omega

theorem hsiHue8_grey (x : Int) : hsiHue8 x x x = 0 := by
  have hd : hsiSquare x x x = 0 := by unfold hsiSquare; ring
  simp [hsiHue8, hd]

theorem hsiSat8_grey {x : Int} (hx : 0 ≤ x) : hsiSat8 x x x = 0 := by
  have hm : x + x + x - 3 * minOf x x x = 0 := by simp only [minOf, min_self]; ring
  simp only [hsiSat8, hm, mul_zero, zero_add]
  split
  · rfl
  · exact Int.ediv_eq_zero_of_lt (by omega) (by omega)

theorem hsiIntensity8_grey (x : Int) : hsiIntensity8 x x x = x := by
  unfold hsiIntensity8
  omega

/-- Settles O21: a grey pixel's differences are 0; the two linear forms of `CVT.YUV` reach 256 at one corner of
the cube each. -/
theorem achromaticAndClampedPixels : Obligations.AchromaticAndClampedPixels := by
  unfold Obligations.AchromaticAndClampedPixels
  refine ⟨fun x => ?grey, fun ⟨r, g, b⟩ => ?clamped, by decide, by decide⟩
  case grey =>
    have hx := level_nonneg x
    have hy : luma8 ⟨x, x, x⟩ = x := lumaFacts.1 x
    have hu : yuvU (level x) (level x) (level x) = 128 := by unfold yuvU; omega
    have hv : yuvV (level x) (level x) (level x) = 128 := by unfold yuvV; omega
    simp only [forwardHsv, forwardHsl, forwardHsi, forwardYuv, hue8_grey, hsvSat8_grey hx, hslSat8_grey,
      hslLight8_grey, hsiHue8_grey, hsiSat8_grey hx, hsiIntensity8_grey, clamp8_zero, clamp8_level, hy, hu,
      hv, maxOf, max_self, true_and]
    rfl
  case clamped =>
    have hluma := luma_level_range ⟨r, g, b⟩
    have hr := level_range r
    have hg := level_range g
    have hb := level_range b
    dsimp only at hluma ⊢
    have zero : level 0#8 = 0 := rfl
    have full : level 255#8 = 255 := rfl
    refine ⟨?_, ?_, by unfold yuvU; omega, by unfold yuvV; omega, hluma.1, hluma.2⟩
    · rw [Triple.mk.injEq, ← level_inj, ← level_inj, ← level_inj (a := b), zero, full]
      unfold yuvU
      omega
    · rw [Triple.mk.injEq, ← level_inj, ← level_inj (a := g), ← level_inj (a := b), zero, full]
      unfold yuvV
      omega

/-! ## The round trip through YUV -/

/-- The stored bytes of `CVT.YUV` are within a half of the values they round; the clamp acts towards them. -/
theorem forwardYuv_near (t : Triple) :
    |1000 * level (forwardYuv t).c0 - (299 * level t.c0 + 587 * level t.c1 + 114 * level t.c2)| ≤ 500 ∧
    |1000 * (level (forwardYuv t).c1 - 128) -
      (-169 * level t.c0 - 331 * level t.c1 + 500 * level t.c2)| ≤ 500 ∧
    |1000 * (level (forwardYuv t).c2 - 128) -
      (500 * level t.c0 - 419 * level t.c1 - 81 * level t.c2)| ≤ 500 := by
  have hr := level_range t.c0
  have hg := level_range t.c1
  have hb := level_range t.c2
  simp only [forwardYuv, level_luma8, level_clamp8, yuvU, yuvV, abs_le]
  omega

/-- A clamped value is no further from a level than the value (R9). -/
theorem abs_level_clamp8_sub_le {n x : Int} (h0 : 0 ≤ x) (h1 : x ≤ 255) (h : |n - x| ≤ 1) :
    |level (clamp8 n) - x| ≤ 1 := by
  rw [level_clamp8]
  rw [abs_le] at h ⊢
  omega

/-- Errors of a half in Y, U and V make at most 1.39 in each channel, which rounds to at most 1. -/
theorem yuvRow_near {r g b y u v : Int} (hy : |1000 * y - (299 * r + 587 * g + 114 * b)| ≤ 500)
    (hu : |1000 * (u - 128) - (-169 * r - 331 * g + 500 * b)| ≤ 500)
    (hv : |1000 * (v - 128) - (500 * r - 419 * g - 81 * b)| ≤ 500) :
    |yuvRow (-219) 331234 y u v - r| ≤ 1 ∧ |yuvRow (-81219) (-168766) y u v - g| ≤ 1 ∧
      |yuvRow 418781 234 y u v - b| ≤ 1 := by
  simp only [abs_le] at *
  unfold yuvRow
  omega

/-- Settles O19: each stored byte is off by at most a half, each row of the inverse by at most 1, and the clamp
does not add to that. -/
theorem yuvRoundTripWithinOneLevel : Obligations.YuvRoundTripWithinOneLevel := by
  unfold Obligations.YuvRoundTripWithinOneLevel
  intro t
  obtain ⟨hy, hu, hv⟩ := forwardYuv_near t
  obtain ⟨hr, hg, hb⟩ := yuvRow_near hy hu hv
  exact ⟨abs_level_clamp8_sub_le (level_nonneg _) (level_le _) hr,
    abs_level_clamp8_sub_le (level_nonneg _) (level_le _) hg,
    abs_level_clamp8_sub_le (level_nonneg _) (level_le _) hb⟩

/-- Settles O18: the two matrices multiply to the identity either way. -/
theorem yuvInverseMatrixIsExact : Obligations.YuvInverseMatrixIsExact := by
  unfold Obligations.YuvInverseMatrixIsExact Exact.yuvToRgb
  refine ⟨fun y u v => ⟨?_, ?_, ?_⟩, fun r g b => ?_⟩
  · ring
  · ring
  · ring
  · rw [Prod.mk.injEq, Prod.mk.injEq]
    refine ⟨?_, ?_, ?_⟩ <;> ring

end Sys2Proof.Machine

/-! The corner cases of the inverse conversions (`41_codec_inverse.md` section 2, `90_conflicts.md` C5). -/

namespace Sys2Proof.Machine

/-! ## The six sectors of HSV and HSL -/

theorem placeSector_grey (k : Int) (c : Byte) : placeSector k c c c = ⟨c, c, c⟩ := by
  simp [placeSector]

/-- At the start of a sector the secondary component is the smallest one (R153). -/
theorem hsvSecond_of_ramp_zero {h : Int} (hr : sectorRamp h = 0) (s v : Int) :
    hsvSecond h s v = hsvOffset s v := by
  have e : v * (21675 - 85 * s + s * sectorRamp h) = v * (255 - s) * 85 := by rw [hr]; ring
  rw [hsvSecond, e]
  exact rdiv_mul_mul_right (by norm_num) (v * (255 - s)) 255

theorem hslSecond_of_ramp_zero {h : Int} (hr : sectorRamp h = 0) (s l : Int) :
    hslSecond h s l = hslOffset s l := by
  have e : 43350 * l + hslReach l * s * (2 * sectorRamp h - 85) = (510 * l - hslReach l * s) * 85 := by
    rw [hr]; ring
  rw [hslSecond, e]
  exact rdiv_mul_mul_right (by norm_num) (510 * l - hslReach l * s) 510

/-- The hue byte 255 is the end of the last sector, where the first one begins (R153). -/
theorem sector_of_full_turn : sectorOf 255 = 5 ∧ sectorRamp 255 = 0 ∧ sectorOf 0 = 0 ∧ sectorRamp 0 = 0 := by
  decide

theorem inverseHsv_full_turn (s v : Byte) : inverseHsv ⟨255#8, s, v⟩ = inverseHsv ⟨0#8, s, v⟩ := by
  obtain ⟨hlast, hlastRamp, hfirst, hfirstRamp⟩ := sector_of_full_turn
  show placeSector (sectorOf 255) _ (clamp8 (hsvSecond 255 _ _)) _ =
    placeSector (sectorOf 0) _ (clamp8 (hsvSecond 0 _ _)) _
  rw [hlast, hfirst, hsvSecond_of_ramp_zero hlastRamp, hsvSecond_of_ramp_zero hfirstRamp]
  rfl

theorem inverseHsl_full_turn (s l : Byte) : inverseHsl ⟨255#8, s, l⟩ = inverseHsl ⟨0#8, s, l⟩ := by
  obtain ⟨hlast, hlastRamp, hfirst, hfirstRamp⟩ := sector_of_full_turn
  show placeSector (sectorOf 255) _ (clamp8 (hslSecond 255 _ _)) _ =
    placeSector (sectorOf 0) _ (clamp8 (hslSecond 0 _ _)) _
  rw [hlast, hfirst, hslSecond_of_ramp_zero hlastRamp, hslSecond_of_ramp_zero hfirstRamp]
  rfl

/-- Without saturation or value the three components are the value (R154). -/
theorem inverseHsv_grey {h s v : Byte} (hsv : level s = 0 ∨ level v = 0) :
    inverseHsv ⟨h, s, v⟩ = ⟨v, v, v⟩ := by
  have hproduct : level v * level s = 0 := by rcases hsv with e | e <;> simp [e]
  have hsecond : hsvSecond (level h) (level s) (level v) = level v := by
    have e : level v * (21675 - 85 * level s + level s * sectorRamp (level h)) = level v * 21675 := by
      linear_combination (sectorRamp (level h) - 85) * hproduct
    rw [hsvSecond, e, rdiv_mul_self (by norm_num)]
  have hoffset : hsvOffset (level s) (level v) = level v := by
    have e : level v * (255 - level s) = level v * 255 := by linear_combination -hproduct
    rw [hsvOffset, e, rdiv_mul_self (by norm_num)]
  rw [inverseHsv, hsecond, hoffset, clamp8_level, placeSector_grey]

/-- Without saturation or at either end of the lightness the three components are the lightness (R156). -/
theorem inverseHsl_grey {h s l : Byte} (hsl : hslReach (level l) * level s = 0) :
    inverseHsl ⟨h, s, l⟩ = ⟨l, l, l⟩ := by
  have hfirst : hslFirst (level s) (level l) = level l := by
    rw [hslFirst, hsl, add_zero, mul_comm, rdiv_mul_self (by norm_num)]
  have hsecond : hslSecond (level h) (level s) (level l) = level l := by
    rw [hslSecond, hsl, zero_mul, add_zero, mul_comm, rdiv_mul_self (by norm_num)]
  have hoffset : hslOffset (level s) (level l) = level l := by
    rw [hslOffset, hsl, sub_zero, mul_comm, rdiv_mul_self (by norm_num)]
  rw [inverseHsl, hfirst, hsecond, hoffset, clamp8_level, placeSector_grey]

/-! ## The three sectors of HSI -/

/-- The intensity `i` raised by `m / 255` of the ratio `rho / 2^32`, rounded: `Xc` and `Zc` of R160. -/
def hsiShare (rho m i : Int) : Int :=
  (510 * i * 4294967296 + 2 * m * rho + 255 * 4294967296) / (510 * 4294967296)

/-- The channels by sector: `x` in the sector's own, `y` opposite, `z` in the remaining one (R158). -/
def hsiPlace (k : Int) (x y z : Byte) : Triple :=
  if k = 0 then ⟨x, z, y⟩ else if k = 1 then ⟨y, x, z⟩ else ⟨z, y, x⟩

/-- The sector and the entry of the table of ratios of a hue byte (R159, R160). -/
theorem hsi_sector_ratio (h : Byte) :
    (h.toNat < 85 → hsiSector (level h) = 0 ∧ hsiRatio (level h) = rq.getD h.toNat 0) ∧
    (85 ≤ h.toNat → h.toNat < 170 →
      hsiSector (level h) = 1 ∧ hsiRatio (level h) = rq.getD (h.toNat - 85) 0) ∧
    (170 ≤ h.toNat → hsiSector (level h) = 2 ∧ hsiRatio (level h) = rq.getD (h.toNat - 170) 0) := by
  have ratio {k : Int} {j : Nat} (hk : hsiSector (level h) = k) (hj : (level h - 85 * k).toNat = j) :
      hsiSector (level h) = k ∧ hsiRatio (level h) = rq.getD j 0 := by
    rw [hsiRatio, hk, hj]
    exact ⟨rfl, rfl⟩
  have hl : level h = h.toNat := rfl
  refine ⟨fun h1 => ratio (if_pos (by omega)) (by omega), fun h1 h2 => ratio ?_ (by omega),
    fun h1 => ratio ?_ (by omega)⟩
  · rw [hsiSector, if_neg (by omega), if_pos (by omega)]
  · rw [hsiSector, if_neg (by omega), if_neg (by omega)]

/-- `INV.HSI` by its sector and ratio. -/
theorem inverseHsi_eq {h : Byte} {k rho : Int}
    (hh : hsiSector (level h) = k ∧ hsiRatio (level h) = rho) (s i : Byte) :
    inverseHsi ⟨h, s, i⟩ = hsiPlace k (clamp8 (hsiShare rho (level i * level s) (level i)))
      (clamp8 (hsiOpposite (level s) (level i)))
      (clamp8 (hsiShare (4294967296 - rho) (level i * level s) (level i))) := by
  rw [← hh.1, ← hh.2]
  rfl

theorem inverseHsi_next_sectors (h s v : Byte) (hh : h.toNat < 85) :
    let o := inverseHsi ⟨h, s, v⟩
    inverseHsi ⟨h + 85#8, s, v⟩ = ⟨o.c2, o.c0, o.c1⟩ ∧
      inverseHsi ⟨h + 170#8, s, v⟩ = ⟨o.c1, o.c2, o.c0⟩ := by
  have h85 : (h + 85#8).toNat = h.toNat + 85 := by rw [BitVec.toNat_add]; simp; omega
  have h170 : (h + 170#8).toNat = h.toNat + 170 := by rw [BitVec.toNat_add]; simp; omega
  have first := (hsi_sector_ratio h).1 hh
  have second := (hsi_sector_ratio (h + 85#8)).2.1 (by omega) (by omega)
  have third := (hsi_sector_ratio (h + 170#8)).2.2 (by omega)
  rw [h85, Nat.add_sub_cancel] at second
  rw [h170, Nat.add_sub_cancel] at third
  rw [inverseHsi_eq first, inverseHsi_eq second, inverseHsi_eq third]
  exact ⟨rfl, rfl⟩

/-- The ratio -1 takes the whole share away, as in the opposite channel (R160). -/
theorem hsiShare_neg_one (s i : Int) : hsiShare (-4294967296) (i * s) i = hsiOpposite s i := by
  have e : 510 * i * 4294967296 + 2 * (i * s) * (-4294967296) + 255 * 4294967296 =
      (2 * (i * (255 - s)) + 255) * 4294967296 := by ring
  rw [hsiShare, e, Int.mul_ediv_mul_of_pos_left _ _ (by norm_num)]
  rfl

theorem inverseHsi_full_turn (s i : Byte) : inverseHsi ⟨255#8, s, i⟩ = inverseHsi ⟨0#8, s, i⟩ := by
  have hlast : hsiSector (level 255#8) = 2 ∧ hsiRatio (level 255#8) = -4294967296 := by decide
  have hfirst : hsiSector (level 0#8) = 0 ∧ hsiRatio (level 0#8) = 8589934592 := by decide
  have elast : (4294967296 : Int) - -4294967296 = 8589934592 := by norm_num
  have efirst : (4294967296 : Int) - 8589934592 = -4294967296 := by norm_num
  rw [inverseHsi_eq hlast, inverseHsi_eq hfirst, elast, efirst, hsiShare_neg_one]
  simp [hsiPlace]

/-- Without saturation or intensity the three components are the intensity (R158). -/
theorem inverseHsi_grey {h s i : Byte} (hsi : level i * level s = 0) :
    inverseHsi ⟨h, s, i⟩ = ⟨i, i, i⟩ := by
  have hshare (rho : Int) : hsiShare rho (level i * level s) (level i) = level i := by
    rw [hsi, hsiShare]
    omega
  have hopposite : hsiOpposite (level s) (level i) = level i := by
    have e : level i * (255 - level s) = level i * 255 := by linear_combination -hsi
    rw [hsiOpposite, e, rdiv_mul_self (by norm_num)]
  rw [inverseHsi_eq ⟨rfl, rfl⟩, hshare, hshare, hopposite, clamp8_level]
  simp [hsiPlace]

/-- Settles O20: a corner is a case in which the components of a sector coincide, or in which two sectors have
the same components in other places. -/
theorem inverseCornerCases : Obligations.InverseCornerCases := by
  unfold Obligations.InverseCornerCases
  have zero : level 0#8 = 0 := rfl
  have reach : hslReach (level 0#8) = 0 ∧ hslReach (level 255#8) = 0 := by decide
  refine ⟨by decide, hsi_sector_ratio, inverseHsi_next_sectors, fun h s v => ?_⟩
  exact ⟨inverseHsv_full_turn s v, inverseHsl_full_turn s v, inverseHsi_full_turn s v,
    inverseHsv_grey (.inl zero), inverseHsl_grey (by rw [zero, mul_zero]),
    inverseHsi_grey (by rw [zero, mul_zero]), inverseHsv_grey (.inr zero),
    inverseHsl_grey (by rw [reach.1, zero_mul]), inverseHsi_grey (by rw [zero, zero_mul]),
    inverseHsl_grey (by rw [reach.2, zero_mul])⟩

end Sys2Proof.Machine

/-! The hue of HSI by its thresholds (`40_codec_forward.md` R129 to R132): the thresholds a pixel reaches come
first in the table, so their number says which ones. -/

namespace Sys2Proof.Machine

/-! ## The two integers of the hue -/

/-- `4 D = N^2 + 3 (G - B)^2` (R129). -/
theorem four_hsiSquare (r g b : Int) :
    4 * hsiSquare r g b = hsiNumerator r g b * hsiNumerator r g b + 3 * ((g - b) * (g - b)) := by
  unfold hsiSquare hsiNumerator
  ring

theorem hsiSquare_nonneg (r g b : Int) : 0 ≤ hsiSquare r g b := by
  have h := four_hsiSquare r g b
  have h1 := mul_self_nonneg (hsiNumerator r g b)
  have h2 := mul_self_nonneg (g - b)
  omega

theorem hsiSquare_eq_zero_iff (r g b : Int) : hsiSquare r g b = 0 ↔ r = g ∧ g = b := by
  constructor
  · intro h
    have h4 := four_hsiSquare r g b
    have h1 := mul_self_nonneg (hsiNumerator r g b)
    have h2 := mul_self_nonneg (g - b)
    have hn : hsiNumerator r g b = 0 := mul_self_eq_zero.1 (by omega)
    have he : g - b = 0 := mul_self_eq_zero.1 (by omega)
    unfold hsiNumerator at hn
    omega
  · rintro ⟨rfl, rfl⟩
    unfold hsiSquare
    ring

/-! ## The thresholds -/

/-- Threshold `i + 1` of the table is reached (R131). -/
def hueReaches (n d : Int) (i : Nat) : Bool := hueAtLeast (i + 1) (wt.getD i 0) n d

theorem hueReaches_low {i : Nat} (hi : i < 64) (n d : Int) :
    hueReaches n d i = true ↔ n ≤ 0 ∨ n * n * 4294967296 ≤ 4 * d * (wt.getD i 0 : Nat) := by
  simp [hueReaches, hueAtLeast, Nat.succ_le_iff.2 hi]

theorem hueReaches_high {i : Nat} (hi : 64 ≤ i) (n d : Int) :
    hueReaches n d i = true ↔ n < 0 ∧ 4 * d * (wt.getD i 0 : Nat) ≤ n * n * 4294967296 := by
  have h : ¬ i + 1 ≤ 64 := by omega
  simp only [hueReaches, hueAtLeast, if_neg h, Bool.and_eq_true, decide_eq_true_eq]

/-- The squared cosines fall over the first quarter turn and rise over the second (R132). -/
theorem wt_falls_then_rises : (∀ i < 63, wt.getD (i + 1) 0 ≤ wt.getD i 0) ∧
    ∀ i < 127, 64 ≤ i → wt.getD i 0 ≤ wt.getD (i + 1) 0 := by
  decide +kernel

/-- A pixel that reaches a threshold reaches the one before. -/
theorem hueReaches_pred {n d : Int} (hd : 0 ≤ d) {i : Nat} (hi : i + 1 < 128)
    (h : hueReaches n d (i + 1) = true) : hueReaches n d i = true := by
  obtain ⟨hfalls, hrises⟩ := wt_falls_then_rises
  rcases lt_trichotomy i 63 with hlow | rfl | hhigh
  · have hw : ((wt.getD (i + 1) 0 : Nat) : Int) ≤ (wt.getD i 0 : Nat) := by exact_mod_cast hfalls i hlow
    rw [hueReaches_low (by omega)] at h ⊢
    exact h.imp id fun hle => hle.trans (mul_le_mul_of_nonneg_left hw (by omega))
  · rw [hueReaches_high (by norm_num)] at h
    rw [hueReaches_low (by norm_num)]
    exact .inl h.1.le
  · have hw : ((wt.getD i 0 : Nat) : Int) ≤ (wt.getD (i + 1) 0 : Nat) := by
      exact_mod_cast hrises i (by omega) (by omega)
    rw [hueReaches_high (by omega)] at h ⊢
    exact ⟨h.1, (mul_le_mul_of_nonneg_left hw (by omega)).trans h.2⟩

/-- A property that passes from each index to the one before holds of the indices below the number of those that
have it. -/
theorem iff_lt_countP_range {p : Nat → Bool} {n : Nat}
    (h : ∀ i, i + 1 < n → p (i + 1) = true → p i = true) {i : Nat} (hi : i < n) :
    p i = true ↔ i < (List.range n).countP p := by
  induction n with
  | zero => omega
  | succ n ih =>
    have hle : (List.range n).countP p ≤ n := by simpa using List.countP_le_length (l := List.range n) (p := p)
    rw [List.range_succ, List.countP_append, List.countP_singleton]
    cases hn : p n with
    | false =>
      rcases Nat.lt_succ_iff_lt_or_eq.1 hi with hlt | rfl
      · simpa using ih (fun j hj => h j (by omega)) hlt
      · simp [hn]
        omega
    | true =>
      have hall {j : Nat} (hj : j ≤ n) : p j = true := by
        induction hj using Nat.decreasingInduction with
        | self => exact hn
        | of_succ k hk hp => exact h k (by omega) hp
      have hcount : (List.range n).countP p = n := by
        rw [List.countP_eq_length.2 fun j hj => hall (List.mem_range.1 hj).le, List.length_range]
      simp [hall (Nat.le_of_lt_succ hi), hcount]
      omega

theorem hueCount_eq (n d : Int) : hueCount n d = (List.range 128).countP (hueReaches n d) := by
  have htable : wt.zipIdx = (List.range 128).map fun i => (wt.getD i 0, i) := by decide +kernel
  rw [hueCount, htable, List.countP_map]
  rfl

theorem hueCount_le (n d : Int) : hueCount n d ≤ 128 := by
  rw [hueCount_eq]
  exact List.countP_le_length

/-- The thresholds reached are those below their number (R131). -/
theorem hueReaches_iff {n d : Int} (hd : 0 ≤ d) {i : Nat} (hi : i < 128) :
    hueReaches n d i = true ↔ i < hueCount n d := by
  rw [hueCount_eq]
  exact iff_lt_countP_range (fun j hj => hueReaches_pred hd hj) hi

/-- At a sixth of a turn the pixel is on threshold 43 exactly. -/
theorem hueCount_of_sixth {n d : Int} (hn : 0 < n) (h : n * n = d) : hueCount n d = 43 := by
  have hd : 0 < d := h ▸ mul_pos hn hn
  have h42 := (hueReaches_low (i := 42) (by norm_num) n d).trans (by rw [h])
  have h43 := (hueReaches_low (i := 43) (by norm_num) n d).trans (by rw [h])
  rw [hueReaches_iff hd.le (by norm_num), show wt.getD 42 0 = 1073741824 from rfl] at h42
  rw [hueReaches_iff hd.le (by norm_num), show wt.getD 43 0 = 983432928 from rfl] at h43
  have hreached : 42 < hueCount n d := h42.2 (.inr (by push_cast; omega))
  have hlast : ¬ 43 < hueCount n d := fun hlt => by
    rcases h43.1 hlt with hle | hle
    · omega
    · push_cast at hle
      omega
  omega

/-- At half a turn the pixel is on the last threshold exactly. -/
theorem hueCount_of_half {n d : Int} (hn : n < 0) (h : n * n = 4 * d) : hueCount n d = 128 := by
  have hd : 0 ≤ d := by
    have := mul_self_nonneg n
    omega
  have h127 := hueReaches_high (i := 127) (by norm_num) n d
  rw [hueReaches_iff hd (by norm_num), show wt.getD 127 0 = 4294967296 from rfl, h] at h127
  have hreached : 127 < hueCount n d := h127.2 ⟨hn, le_rfl⟩
  have := hueCount_le n d
  omega

/-! ## The hue byte -/

theorem hsiHue8_of_le {r g b : Int} (hd : hsiSquare r g b ≠ 0) (h : b ≤ g) :
    hsiHue8 r g b = hueCount (hsiNumerator r g b) (hsiSquare r g b) := by
  simp only [hsiHue8, if_neg hd, if_pos h]

theorem hsiHue8_of_gt {r g b : Int} (h : g < b) :
    hsiHue8 r g b = 255 - (hueCount (hsiNumerator r g b) (hsiSquare r g b) -
      if 0 < hsiNumerator r g b ∧
        hsiNumerator r g b * hsiNumerator r g b = hsiSquare r g b then 1 else 0) := by
  have hd : hsiSquare r g b ≠ 0 := fun h0 => by
    have := (hsiSquare_eq_zero_iff r g b).1 h0
    omega
  simp only [hsiHue8, if_neg hd, if_neg (not_le.2 h)]
  split
  · rfl
  · omega

/-- The hue byte needs no clamp (R131). -/
theorem hsiHue8_range (r g b : Int) : 0 ≤ hsiHue8 r g b ∧ hsiHue8 r g b ≤ 255 := by
  have hle := hueCount_le (hsiNumerator r g b) (hsiSquare r g b)
  by_cases hd : hsiSquare r g b = 0
  · simp [hsiHue8, hd]
  · rcases le_or_gt b g with h | h
    · rw [hsiHue8_of_le hd h]
      omega
    · rw [hsiHue8_of_gt h]
      split
      · next htie =>
        rw [hueCount_of_sixth htie.1 htie.2]
        omega
      · omega

/-- Settles O22: `4 D` is a sum of squares; the thresholds reached come first, and their number in the three ties
follows from the two exact entries of the table. -/
theorem hsiHueIsWellDefined : Obligations.HsiHueIsWellDefined := by
  unfold Obligations.HsiHueIsWellDefined
  refine ⟨fun r g b => ⟨hsiSquare_nonneg r g b, hsiSquare_eq_zero_iff r g b, ?_⟩,
    fun t => hsiHue8_range _ _ _, fun t => ?hue⟩
  · have := four_hsiSquare r g b
    omega
  case hue =>
    intro n d
    have hd : 0 ≤ d := hsiSquare_nonneg _ _ _
    have hbyte {k : Nat} (hk : k ≤ 255)
        (h : hsiHue8 (level t.c0) (level t.c1) (level t.c2) = k) :
        (forwardHsi t).c0 = BitVec.ofNat 8 k := by
      have hlevel : level (BitVec.ofNat 8 k) = k := by
        rw [level, BitVec.toNat_ofNat, Nat.mod_eq_of_lt (by omega)]
      rw [forwardHsi, h, ← hlevel, clamp8_level]
    refine ⟨fun j h1 h2 => ?below, fun hn hnd hgb => hbyte (k := 43) (by norm_num) ?_,
      fun hn hnd hgb => hbyte (k := 213) (by norm_num) ?_,
      fun hn hnd => hbyte (k := 128) (by norm_num) ?_⟩
    case below =>
      obtain ⟨i, rfl⟩ : ∃ i, j = i + 1 := ⟨j - 1, by omega⟩
      exact hueReaches_iff hd (by omega)
    · have hpos : 0 < d := hnd ▸ mul_pos hn hn
      rw [hsiHue8_of_le hpos.ne' (level_le_level.2 hgb), hueCount_of_sixth hn hnd]
    · rw [hsiHue8_of_gt (level_lt_level.2 hgb), if_pos ⟨hn, hnd⟩, hueCount_of_sixth hn hnd]
      norm_num
    · have h4 : 4 * d = n * n + 3 * _ := four_hsiSquare _ _ _
      have hpos : 0 < n * n := mul_pos_of_neg_of_neg hn hn
      have hgb : level t.c1 - level t.c2 = 0 := mul_self_eq_zero.1 (by omega)
      have hne : d ≠ 0 := by omega
      rw [hsiHue8_of_le hne (by omega), hueCount_of_half hn hnd]

end Sys2Proof.Machine

/-! The rational definitions of the conversions and their integer forms (`40_codec_forward.md` R134,
`41_codec_inverse.md` R163): a component is a quotient of integers, whose rounded value is an integer
division. -/

namespace Sys2Proof.Machine

/-! ## Rounding a quotient of integers -/

/-- The floor of a quotient of integers is their integer division. -/
theorem floor_intCast_div {K : Type*} [Field K] [LinearOrder K] [IsStrictOrderedRing K] [FloorRing K]
    (n : ℤ) {d : ℤ} (hd : 0 < d) : ⌊(n : K) / (d : K)⌋ = n / d := by
  rw [Int.floor_div_cast_of_nonneg hd.le, Int.floor_intCast]

theorem rnd_eq {x : ℚ} {n d : ℤ} (hd : 0 < d) (h : x + 1 / 2 = n / d) : Exact.rnd x = n / d := by
  rw [Exact.rnd, h, floor_intCast_div n hd]

theorem q8_eq {x : ℚ} {n d : ℤ} (hd : 0 < d) (h : 255 * x + 1 / 2 = n / d) :
    Exact.q8 x = clamp8 (n / d) := by
  rw [Exact.q8, rnd_eq hd h]

theorem q8_eq_rdiv {x : ℚ} {n d : ℤ} (hd : 0 < d) (h : 255 * x = n / d) :
    Exact.q8 x = clamp8 (rdiv n d) := by
  have hd' : (d : ℚ) ≠ 0 := by exact_mod_cast hd.ne'
  refine q8_eq (by omega) ?_
  rw [h]
  push_cast
  field_simp

theorem q8_zero : Exact.q8 0 = clamp8 0 := by
  rw [q8_eq (x := 0) (n := 1) (d := 2) (by norm_num) (by norm_num)]
  rfl

theorem q8_level {x : ℚ} (n : ℤ) (h : 255 * x = n) : Exact.q8 x = clamp8 n := by
  rw [q8_eq_rdiv (x := x) (n := n * 1) (d := 1) (by norm_num) (by push_cast; linarith),
    rdiv_mul_self (by norm_num)]

theorem unit_eq (b : Byte) : Exact.unit b = (level b : ℚ) / 255 := by simp [Exact.unit, level]

theorem toNat_cast_real (b : Byte) : (b.toNat : ℝ) = (level b : ℝ) := by simp [level]

/-! ## The forward conversions -/

theorem top_eq (r g b : ℤ) : Exact.top (r / 255) (g / 255) (b / 255) = (maxOf r g b : ℚ) / 255 := by
  simp only [Exact.top, maxOf, Int.cast_max]
  rw [max_div_div_right (by norm_num), max_div_div_right (by norm_num)]

theorem bottom_eq (r g b : ℤ) :
    Exact.bottom (r / 255) (g / 255) (b / 255) = (minOf r g b : ℚ) / 255 := by
  simp only [Exact.bottom, minOf, Int.cast_min]
  rw [min_div_div_right (by norm_num), min_div_div_right (by norm_num)]

/-- The order of the channels and their extremes. -/
theorem minOf_le_maxOf (r g b : ℤ) : minOf r g b ≤ r ∧ minOf r g b ≤ g ∧ minOf r g b ≤ b ∧
    r ≤ maxOf r g b ∧ g ≤ maxOf r g b ∧ b ≤ maxOf r g b := by
  unfold minOf maxOf
  omega

/-- A quotient of at most 1 either way, modulo 6. -/
theorem realMod_six {n d : ℤ} (hd : 0 < d) (h : |n| ≤ d) :
    Exact.realMod (n / d) 6 = ((if n < 0 then n + 6 * d else n : ℤ) : ℚ) / d := by
  have hd' : (0 : ℚ) < d := by exact_mod_cast hd
  have e : (n : ℚ) / d / 6 = (n : ℚ) / ((6 * d : ℤ) : ℚ) := by push_cast; field_simp
  obtain ⟨hlow, hhigh⟩ := abs_le.1 h
  rw [Exact.realMod, e, floor_intCast_div n (by omega)]
  split
  · next hneg =>
    have hfloor : n / (6 * d) = -1 := by
      rw [Int.ediv_eq_iff_of_pos (by omega)]
      constructor <;> linarith
    rw [hfloor]
    push_cast
    field_simp
    ring
  · next hpos =>
    rw [Int.ediv_eq_zero_of_lt (by omega) (by omega)]
    simp

/-- The hue of HSV and HSL as a quotient of integers (R125). -/
theorem hue_eq {r g b d : ℤ} (hd : maxOf r g b - minOf r g b = d) (hpos : 0 < d) :
    Exact.hue (r / 255) (g / 255) (b / 255) = (hueNumerator r g b d : ℚ) / (6 * d) := by
  have hd' : (0 : ℚ) < d := by exact_mod_cast hpos
  have hdq : (maxOf r g b : ℚ) / 255 - (minOf r g b : ℚ) / 255 = d / 255 := by
    rw [← hd]
    push_cast
    ring
  have same (x : ℤ) : ((maxOf r g b : ℚ) / 255 = (x : ℚ) / 255) = (maxOf r g b = x) := by
    rw [div_left_inj' (by norm_num), Int.cast_inj]
  have quotient (x y : ℤ) : ((x : ℚ) / 255 - (y : ℚ) / 255) / ((d : ℚ) / 255) = ((x - y : ℤ) : ℚ) / d := by
    push_cast
    field_simp
  have horder := minOf_le_maxOf r g b
  simp only [Exact.hue, top_eq, bottom_eq, hdq, same, quotient, hueNumerator]
  rw [if_neg (by positivity)]
  split_ifs with hr hneg hg
  · rw [realMod_six hpos (abs_le.2 (by omega)), if_pos hneg]
    field_simp
  · rw [realMod_six hpos (abs_le.2 (by omega)), if_neg hneg]
    field_simp
  · push_cast
    field_simp
  · push_cast
    field_simp

theorem q8_hue (r g b : ℤ) : Exact.q8 (Exact.hue (r / 255) (g / 255) (b / 255)) = clamp8 (hue8 r g b) := by
  obtain ⟨h1, -, -, h2, -⟩ := minOf_le_maxOf r g b
  rcases (h1.trans h2).eq_or_lt with heq | hlt
  · have hd : maxOf r g b - minOf r g b = 0 := by omega
    simp [Exact.hue, hue8, top_eq, bottom_eq, heq, q8_zero]
  · have hpos : 0 < maxOf r g b - minOf r g b := by omega
    have hpos' : (0 : ℚ) < ((maxOf r g b - minOf r g b : ℤ) : ℚ) := by exact_mod_cast hpos
    rw [hue_eq rfl hpos]
    simp only [hue8, if_neg hpos.ne']
    refine q8_eq (by omega) ?_
    generalize maxOf r g b - minOf r g b = d at *
    push_cast
    field_simp
    ring

theorem q8_hsvSaturation {r g b : ℤ} (h0 : 0 ≤ maxOf r g b) :
    Exact.q8 (Exact.hsvSaturation (r / 255) (g / 255) (b / 255)) = clamp8 (hsvSat8 r g b) := by
  simp only [Exact.hsvSaturation, hsvSat8, top_eq, bottom_eq]
  rcases h0.eq_or_lt with hzero | hpos
  · simp [← hzero, q8_zero]
  · have hpos' : (0 : ℚ) < (maxOf r g b : ℚ) := by exact_mod_cast hpos
    rw [if_neg (by positivity), if_neg hpos.ne']
    refine q8_eq (by omega) ?_
    push_cast
    field_simp
    ring

/-- The share of the lightness that is left for the saturation (R128). -/
theorem hslDenominator_eq (r g b : ℤ) :
    1 - |2 * Exact.lightness (r / 255) (g / 255) (b / 255) - 1| = (hslDenominator r g b : ℚ) / 255 := by
  have e : 2 * Exact.lightness (r / 255) (g / 255) (b / 255) - 1 =
      ((maxOf r g b + minOf r g b - 255 : ℤ) : ℚ) / 255 := by
    rw [Exact.lightness, top_eq, bottom_eq]
    push_cast
    ring
  rw [e, abs_div, ← Int.cast_abs]
  simp only [hslDenominator]
  split
  · next h =>
    rw [abs_of_nonpos (a := maxOf r g b + minOf r g b - 255) (by omega)]
    norm_num
    ring
  · next h =>
    rw [abs_of_nonneg (a := maxOf r g b + minOf r g b - 255) (by omega)]
    norm_num
    ring

theorem q8_hslSaturation {r g b : ℤ} (h0 : 0 ≤ minOf r g b) (h1 : maxOf r g b ≤ 255) :
    Exact.q8 (Exact.hslSaturation (r / 255) (g / 255) (b / 255)) = clamp8 (hslSat8 r g b) := by
  obtain ⟨hmin, -, -, hmax, -⟩ := minOf_le_maxOf r g b
  simp only [Exact.hslSaturation, hslDenominator_eq, hslSat8, top_eq, bottom_eq]
  rcases (hmin.trans hmax).eq_or_lt with heq | hlt
  · simp [heq, q8_zero]
  · have hden : 0 < hslDenominator r g b := by
      simp only [hslDenominator]
      split <;> omega
    have hden' : (0 : ℚ) < (hslDenominator r g b : ℚ) := by exact_mod_cast hden
    have hlt' : (minOf r g b : ℚ) < (maxOf r g b : ℚ) := by exact_mod_cast hlt
    rw [if_neg (by linarith : ¬ (maxOf r g b : ℚ) / 255 - (minOf r g b : ℚ) / 255 = 0), if_neg (by omega)]
    refine q8_eq (by omega) ?_
    push_cast
    field_simp
    ring

theorem q8_lightness (r g b : ℤ) :
    Exact.q8 (Exact.lightness (r / 255) (g / 255) (b / 255)) = clamp8 (hslLight8 r g b) := by
  refine q8_eq (by norm_num) ?_
  rw [Exact.lightness, top_eq, bottom_eq]
  push_cast
  ring

theorem q8_hsiSaturation {r g b : ℤ} (h0 : 0 ≤ r + g + b) :
    Exact.q8 (Exact.hsiSaturation (r / 255) (g / 255) (b / 255)) = clamp8 (hsiSat8 r g b) := by
  have hi : Exact.intensity (r / 255) (g / 255) (b / 255) = ((r + g + b : ℤ) : ℚ) / 765 := by
    rw [Exact.intensity]
    push_cast
    ring
  simp only [Exact.hsiSaturation, hi, bottom_eq, hsiSat8]
  rcases h0.eq_or_lt with hzero | hpos
  · simp [← hzero, q8_zero]
  · have hpos' : (0 : ℚ) < ((r + g + b : ℤ) : ℚ) := by exact_mod_cast hpos
    rw [if_neg (by positivity), if_neg hpos.ne']
    refine q8_eq (by omega) ?_
    generalize r + g + b = sg at *
    push_cast
    field_simp
    ring

theorem q8_intensity (r g b : ℤ) :
    Exact.q8 (Exact.intensity (r / 255) (g / 255) (b / 255)) = clamp8 (hsiIntensity8 r g b) := by
  refine q8_eq (by norm_num) ?_
  rw [Exact.intensity]
  push_cast
  ring

/-- The extremes of three levels are levels. -/
theorem extremes_range (t : Triple) : 0 ≤ minOf (level t.c0) (level t.c1) (level t.c2) ∧
    maxOf (level t.c0) (level t.c1) (level t.c2) ≤ 255 := by
  have h0 := level_range t.c0
  have h1 := level_range t.c1
  have h2 := level_range t.c2
  unfold minOf maxOf
  omega

theorem forwardHsv_eq_exact (t : Triple) : forwardHsv t = Exact.forwardHsv t := by
  obtain ⟨hmin, -⟩ := extremes_range t
  obtain ⟨h1, -, -, h2, -⟩ := minOf_le_maxOf (level t.c0) (level t.c1) (level t.c2)
  simp only [forwardHsv, Exact.forwardHsv, unit_eq]
  rw [q8_hue, q8_hsvSaturation (hmin.trans (h1.trans h2)), top_eq,
    q8_level (maxOf (level t.c0) (level t.c1) (level t.c2)) (by ring)]

theorem forwardHsl_eq_exact (t : Triple) : forwardHsl t = Exact.forwardHsl t := by
  obtain ⟨hmin, hmax⟩ := extremes_range t
  simp only [forwardHsl, Exact.forwardHsl, unit_eq]
  rw [q8_hue, q8_hslSaturation hmin hmax, q8_lightness]

theorem forwardYuv_eq_exact (t : Triple) : forwardYuv t = Exact.forwardYuv t := by
  simp only [forwardYuv, luma8, lumaLevel, yuvU, yuvV, Exact.forwardYuv, Exact.luma, unit_eq]
  congr 2 <;> refine (rnd_eq (by norm_num) ?_).symm <;> push_cast <;> ring

/-! ## The inverse conversions -/

/-- The sector of a stored hue and the share of the secondary component (R153). -/
theorem sector_eq (h : ℤ) : min ⌊6 * ((h : ℚ) / 255)⌋ 5 = sectorOf h ∧
    1 - |Exact.realMod (6 * ((h : ℚ) / 255)) 2 - 1| = (sectorRamp h : ℚ) / 85 := by
  have e : 6 * ((h : ℚ) / 255) = ((2 * h : ℤ) : ℚ) / ((85 : ℤ) : ℚ) := by push_cast; ring
  have e2 : 6 * ((h : ℚ) / 255) / 2 = ((2 * h : ℤ) : ℚ) / ((170 : ℤ) : ℚ) := by push_cast; ring
  constructor
  · rw [e, floor_intCast_div _ (by norm_num), sectorOf]
  · have hmod : (2 * h : ℤ) = 170 * (2 * h / 170) + 2 * h % 170 := (Int.mul_ediv_add_emod _ _).symm
    have hmod' : ((2 * h : ℤ) : ℚ) = 170 * ((2 * h / 170 : ℤ) : ℚ) + ((2 * h % 170 : ℤ) : ℚ) := by
      exact_mod_cast hmod
    have hr : Exact.realMod (6 * ((h : ℚ) / 255)) 2 - 1 = ((2 * h % 170 - 85 : ℤ) : ℚ) / 85 := by
      rw [Exact.realMod, e2, floor_intCast_div _ (by norm_num), e, hmod']
      push_cast
      ring
    rw [hr, abs_div, ← Int.cast_abs, sectorRamp]
    push_cast
    norm_num
    ring

/-- The components of a sector, quantised and placed (R151, R153). -/
theorem quantise_sectorRgb (h : ℤ) (c m : ℚ) :
    Exact.quantise (Exact.sectorRgb ((h : ℚ) / 255) c m) =
      placeSector (sectorOf h) (Exact.q8 (c + m)) (Exact.q8 (c * ((sectorRamp h : ℚ) / 85) + m))
        (Exact.q8 m) := by
  obtain ⟨hsector, hramp⟩ := sector_eq h
  simp only [Exact.sectorRgb, hsector, hramp, placeSector]
  split_ifs <;> rfl

theorem inverseHsv_eq_exact (t : Triple) : inverseHsv t = Exact.inverseHsv t := by
  simp only [inverseHsv, Exact.inverseHsv, unit_eq]
  rw [quantise_sectorRgb]
  congr 1
  · exact (q8_level _ (by ring)).symm
  · exact (q8_eq_rdiv (by norm_num) (by push_cast; ring)).symm
  · exact (q8_eq_rdiv (by norm_num) (by push_cast; ring)).symm

/-- The chroma that the lightness leaves room for (R156). -/
theorem hslReach_eq (l : ℤ) : 1 - |2 * ((l : ℚ) / 255) - 1| = (hslReach l : ℚ) / 255 := by
  have e : 2 * ((l : ℚ) / 255) - 1 = ((2 * l - 255 : ℤ) : ℚ) / 255 := by push_cast; ring
  rw [e, abs_div, ← Int.cast_abs, hslReach]
  push_cast
  norm_num
  ring

theorem inverseHsl_eq_exact (t : Triple) : inverseHsl t = Exact.inverseHsl t := by
  simp only [inverseHsl, Exact.inverseHsl, unit_eq, hslReach_eq]
  rw [quantise_sectorRgb]
  congr 1
  · exact (q8_eq_rdiv (by norm_num) (by push_cast; ring)).symm
  · exact (q8_eq_rdiv (by norm_num) (by push_cast; ring)).symm
  · exact (q8_eq_rdiv (by norm_num) (by push_cast; ring)).symm

theorem centred_eq (b : Byte) : Exact.centred b = ((level b : ℚ) - 128) / 255 := by
  simp [Exact.centred, level]

theorem inverseYuv_eq_exact (t : Triple) : inverseYuv t = Exact.inverseYuv t := by
  simp only [inverseYuv, Exact.inverseYuv, Exact.quantise, Exact.yuvToRgb, unit_eq, centred_eq, yuvRow]
  congr 1 <;> refine (q8_eq (by norm_num) ?_).symm <;> push_cast <;> ring

end Sys2Proof.Machine

/-! Where the two tables of HSI decide (`40_codec_forward.md` R131, `41_codec_inverse.md` R160): the entries are
cosine expressions rounded to 32 binary places, and a decision by an entry differs from one by the expression only
where a fraction of small integers lies in the rounding interval. For each entry a descent of the Stern-Brocot tree
finds two neighbouring fractions with the interval between them and none of the small ones. -/

namespace Sys2Proof.Machine

/-! ## Neighbouring fractions -/

/-- Between the neighbours `a / b` and `c / d` every fraction has at least the numerator `a + c` and at least the
denominator `b + d`. -/
theorem le_of_between {a b c d p m : ℕ} (hdet : b * c = a * d + 1) (hlow : a * m < p * b)
    (hhigh : p * d < c * m) : a + c ≤ p ∧ b + d ≤ m := by
  obtain ⟨x, hx⟩ : ∃ x, p * b = a * m + (x + 1) := ⟨p * b - a * m - 1, by omega⟩
  obtain ⟨y, hy⟩ : ∃ y, c * m = p * d + (y + 1) := ⟨c * m - p * d - 1, by omega⟩
  have hp : p = a * (y + 1) + c * (x + 1) := by
    zify at *
    linear_combination (c : ℤ) * hx + (a : ℤ) * hy - (p : ℤ) * hdet
  have hm : m = b * (y + 1) + d * (x + 1) := by
    zify at *
    linear_combination (d : ℤ) * hx + (b : ℤ) * hy - (m : ℤ) * hdet
  constructor
  · rw [hp]
    nlinarith
  · rw [hm]
    nlinarith

/-- Two fractions, `a / b` and `c / d`. -/
structure Fractions where
  a : ℕ
  b : ℕ
  c : ℕ
  d : ℕ

/-- Between neighbours there is no fraction with a small numerator or a small denominator. -/
theorem Fractions.le_or_le {f : Fractions} (hdet : f.b * f.c = f.a * f.d + 1) {p m : ℕ}
    (hsmall : p < f.a + f.c ∨ m < f.b + f.d) : p * f.b ≤ f.a * m ∨ f.c * m ≤ p * f.d := by
  by_contra! h
  have := le_of_between hdet h.1 h.2
  omega

/-- The inner terms of neighbours are positive. -/
theorem Fractions.pos {f : Fractions} (hdet : f.b * f.c = f.a * f.d + 1) : 0 < f.b ∧ 0 < f.c := by
  have h : 0 < f.b * f.c := by omega
  exact ⟨Nat.pos_of_mul_pos_right h, Nat.pos_of_mul_pos_left h⟩

/-! ## The thresholds of the hue -/

/-- The descent of the Stern-Brocot tree from `f`, within numerators up to 510 and denominators up to 255: the lower
fraction stays where the square of `n / e` is below `3 w / (2^32 - w)`. -/
def hueDescend (w : ℕ) : ℕ → Fractions → Fractions
  | 0, f => f
  | k + 1, f =>
    let n := f.a + f.c
    let e := f.b + f.d
    if 510 < n || 255 < e then f
    else if n * n * (2 ^ 32 - w) < 3 * e * e * w then hueDescend w k ⟨n, e, f.c, f.d⟩
    else hueDescend w k ⟨f.a, f.b, n, e⟩

/-- The descent ends at neighbours around the fractions `n / e` with `n^2 / (n^2 + 3 e^2)` from `w / 2^32` up to
`(w + 1) / 2^32`, so close that no fraction of the size of a pixel's lies between them. -/
def hueSeparate (w : ℕ) : Prop :=
  let f := hueDescend w 1000 ⟨0, 1, 1, 0⟩
  w < 2 ^ 32 ∧ f.b * f.c = f.a * f.d + 1 ∧ (510 < f.a + f.c ∨ 255 < f.b + f.d) ∧
    f.a * f.a * (2 ^ 32 - w) < 3 * f.b * f.b * w ∧ 3 * f.d * f.d * (w + 1) ≤ f.c * f.c * (2 ^ 32 - (w + 1))

/-- It holds of every entry of the table but the two that are exact. -/
theorem wt_hueSeparate : ∀ i < 128, i = 42 ∨ i = 127 ∨ hueSeparate (wt.getD i 0) := by
  unfold hueSeparate
  decide +kernel

/-- The integers of a chromatic pixel: `N`, `G - B` and `D` of R129. -/
structure ChromaticPixel (n e d : ℤ) : Prop where
  square : 4 * d = n * n + 3 * (e * e)
  numerator : n.natAbs ≤ 510
  difference : e.natAbs ≤ 255
  pos : 0 < d

/-- A chromatic pixel is off the rounding interval of `w` (R131). -/
theorem hueSeparate.below_or_above {w : ℕ} (h : hueSeparate w) {n e d : ℤ} (hpixel : ChromaticPixel n e d) :
    n * n * 2 ^ 32 < 4 * d * w ∨ 4 * d * (w + 1) ≤ n * n * 2 ^ 32 := by
  obtain ⟨hd, hn, he, hpos⟩ := hpixel
  obtain ⟨hw, hdet, hsmall, hlow, hhigh⟩ := h
  generalize hueDescend w 1000 ⟨0, 1, 1, 0⟩ = f at *
  obtain ⟨hb, hc⟩ := Fractions.pos hdet
  obtain ⟨k, hk⟩ : ∃ k, 2 ^ 32 = w + 1 + k := ⟨2 ^ 32 - (w + 1), by omega⟩
  rw [show 2 ^ 32 - w = k + 1 by omega] at hlow
  rw [show 2 ^ 32 - (w + 1) = k by omega] at hhigh
  have hk' : (2 : ℤ) ^ 32 = w + 1 + k := by exact_mod_cast hk
  rw [hk']
  rw [← Int.natAbs_mul_self' n, ← Int.natAbs_mul_self' e] at *
  generalize n.natAbs = n at *
  generalize e.natAbs = e at *
  rcases Fractions.le_or_le hdet (p := n) (m := e) (by omega) with hle | hle
  · left
    have hepos : 0 < e := by
      by_contra! he0
      obtain rfl : e = 0 := by omega
      obtain rfl : n = 0 := by nlinarith
      omega
    have key : n * n * (k + 1) < 3 * e * e * w := by
      refine lt_of_mul_lt_mul_right (a := f.b * f.b) ?_ (Nat.zero_le _)
      calc n * n * (k + 1) * (f.b * f.b) = n * f.b * (n * f.b) * (k + 1) := by ring
        _ ≤ f.a * e * (f.a * e) * (k + 1) := by gcongr
        _ = f.a * f.a * (k + 1) * (e * e) := by ring
        _ < 3 * f.b * f.b * w * (e * e) := by gcongr
        _ = 3 * e * e * w * (f.b * f.b) := by ring
    have key' : (n * n * (k + 1) : ℤ) < 3 * e * e * w := by exact_mod_cast key
    rw [hd]
    linear_combination key'
  · right
    have key : 3 * e * e * (w + 1) ≤ n * n * k := by
      refine le_of_mul_le_mul_right (a := f.c * f.c) ?_ (by positivity)
      calc 3 * e * e * (w + 1) * (f.c * f.c) = 3 * (f.c * e * (f.c * e)) * (w + 1) := by ring
        _ ≤ 3 * (n * f.d * (n * f.d)) * (w + 1) := by gcongr
        _ = n * n * (3 * f.d * f.d * (w + 1)) := by ring
        _ ≤ n * n * (f.c * f.c * k) := by gcongr
        _ = n * n * k * (f.c * f.c) := by ring
    have key' : (3 * e * e * (w + 1) : ℤ) ≤ n * n * k := by exact_mod_cast key
    rw [hd]
    linear_combination key'

/-! ## The ratios of the inverse -/

/-- The denominator of the fractions an entry is compared with: 255 times the scale of `ratioApprox`. -/
def ratioScale : ℕ := 255 * 2 ^ 40

/-- `2^41` times the ratio of cosines, to within 2. -/
def ratioApprox (j : ℕ) : ℤ :=
  2 ^ 41 * (HsiCircle.approx (2 * j)).1 / (HsiCircle.approx (85 - 2 * (j : ℤ)).natAbs).1

/-- The ends of an interval that holds both `2^41` times the ratio and `2^9` times the entry. -/
def ratioLow (j : ℕ) : ℤ := min (512 * rq.getD j 0) (ratioApprox j - 2)

def ratioHigh (j : ℕ) : ℤ := max (512 * rq.getD j 0) (ratioApprox j + 2)

/-- Two steps of Euclid's algorithm towards `l / ratioScale`: the upper fraction comes down by the lower one, then the
lower one goes up by the upper one, as long as the denominators stay within `m`. -/
def euclid (l m : ℕ) (f : Fractions) : Fractions :=
  let k := min ((f.c * ratioScale - f.d * l) / (f.b * l - f.a * ratioScale)) ((m - f.d) / f.b)
  let c := f.c + k * f.a
  let d := f.d + k * f.b
  let n := min ((f.b * l - f.a * ratioScale - 1) / (c * ratioScale - d * l)) ((m - f.b) / d)
  ⟨f.a + n * c, f.b + n * d, c, d⟩

/-- The neighbours found around an interval whose lower end is positive. -/
def ratioFractions (low : ℤ) : Fractions := (euclid low.toNat 65025)^[12] ⟨0, 1, 1, 0⟩

/-- The steps end at neighbours around the interval from `low / ratioScale` to `high / ratioScale`, so close that no
fraction with a denominator up to 65025 lies between them. -/
def ratioSeparate (low high : ℤ) : Prop :=
  let f := ratioFractions low
  0 < low ∧ f.b * f.c = f.a * f.d + 1 ∧ 65025 < f.b + f.d ∧ f.a * ratioScale < f.b * low ∧
    f.d * high < f.c * ratioScale

theorem ratioFractions_separate : ∀ j < 85, 0 < j →
    ratioSeparate (ratioLow j) (ratioHigh j) ∨ ratioSeparate (-ratioHigh j) (-ratioLow j) := by
  unfold ratioSeparate
  decide +kernel

/-- A fraction of the size of a pixel's is off the interval. -/
theorem ratioSeparate.below_or_above {low high : ℤ} (h : ratioSeparate low high) {p m : ℤ} (hm : 0 < m)
    (hm' : m ≤ 65025) : p * ratioScale < m * low ∨ m * high < p * ratioScale := by
  obtain ⟨hpos, hdet, hsmall, hlow, hhigh⟩ := h
  generalize ratioFractions low = f at *
  generalize ratioScale = scale at *
  obtain ⟨hb, hc⟩ := Fractions.pos hdet
  rcases le_or_gt p 0 with hp | hp
  · left
    calc p * scale ≤ 0 := mul_nonpos_of_nonpos_of_nonneg hp (by positivity)
      _ < m * low := mul_pos hm hpos
  lift p to ℕ using hp.le
  lift m to ℕ using hm.le
  rcases Fractions.le_or_le hdet (p := p) (m := m) (by omega) with hle | hle
  · left
    have hle' : (p * f.b : ℤ) ≤ f.a * m := by exact_mod_cast hle
    refine lt_of_mul_lt_mul_right (a := (f.b : ℤ)) ?_ (by positivity)
    calc (p * scale * f.b : ℤ) = p * f.b * scale := by ring
      _ ≤ f.a * m * scale := by gcongr
      _ = f.a * scale * m := by ring
      _ < f.b * low * m := by gcongr
      _ = m * low * f.b := by ring
  · right
    have hle' : (f.c * m : ℤ) ≤ p * f.d := by exact_mod_cast hle
    have hd : 0 < f.d := by
      by_contra! hd0
      obtain hd0 : f.d = 0 := by omega
      have : 0 < f.c * m := Nat.mul_pos hc (by omega)
      simp [hd0] at hle
      omega
    refine lt_of_mul_lt_mul_right (a := (f.d : ℤ)) ?_ (by positivity)
    calc (m * high * f.d : ℤ) = f.d * high * m := by ring
      _ < f.c * scale * m := by gcongr
      _ = f.c * m * scale := by ring
      _ ≤ p * f.d * scale := by gcongr
      _ = p * scale * f.d := by ring

end Sys2Proof.Machine

/-! The hue of HSI by the inverse cosine and by the table of thresholds (`40_codec_forward.md` R129 to R131): a pixel
reaches a threshold exactly when its angle does. -/

namespace Sys2Proof.Machine

/-- The cosine of threshold `i + 1` (R131). -/
noncomputable def thresholdCos (i : ℕ) : ℝ := Real.cos (Real.pi * (2 * (i + 1) - 1) / 255)

/-- The angle of a pixel by its two integers (R129). -/
noncomputable def hueAngle (n d : ℤ) : ℝ := Real.arccos (n / (2 * √d))

/-- An entry of the table is the floor of its squared cosine (R131). -/
theorem wt_bounds {i : ℕ} (hi : i < 128) :
    (wt.getD i 0 : ℝ) ≤ 2 ^ 32 * thresholdCos i ^ 2 ∧ 2 ^ 32 * thresholdCos i ^ 2 < wt.getD i 0 + 1 := by
  obtain ⟨hlow, hhigh⟩ := Int.floor_eq_iff.1 (wt_eq_floor i hi).symm
  rw [Int.cast_natCast] at hlow hhigh
  exact ⟨hlow, hhigh⟩

theorem thresholdCos_sixth : thresholdCos 42 = 1 / 2 := by
  rw [thresholdCos, show Real.pi * (2 * ((42 : ℕ) + 1) - 1) / 255 = Real.pi / 3 by push_cast; ring,
    Real.cos_pi_div_three]

theorem thresholdCos_half : thresholdCos 127 = -1 := by
  rw [thresholdCos, show Real.pi * (2 * ((127 : ℕ) + 1) - 1) / 255 = Real.pi by push_cast; ring, Real.cos_pi]

/-- The entries of a sixth and of half a turn are exact (R132). -/
theorem wt_exact {i : ℕ} (h : i = 42 ∨ i = 127) : 2 ^ 32 * thresholdCos i ^ 2 = wt.getD i 0 := by
  rcases h with rfl | rfl
  · rw [thresholdCos_sixth, show wt.getD 42 0 = 1073741824 from rfl]
    norm_num
  · rw [thresholdCos_half, show wt.getD 127 0 = 4294967296 from rfl]
    norm_num

/-- `n^2 / 4 d` compares with a threshold's squared cosine as it does with the entry, and but for the exact entries it
is not equal. -/
theorem square_compare_threshold {n e d : ℤ} (hpixel : ChromaticPixel n e d) {i : ℕ} (hi : i < 128) :
    (n * n * 4294967296 ≤ 4 * d * (wt.getD i 0 : ℕ) ↔ (n : ℝ) ^ 2 ≤ 4 * d * thresholdCos i ^ 2) ∧
    (4 * d * (wt.getD i 0 : ℕ) ≤ n * n * 4294967296 ↔ 4 * d * thresholdCos i ^ 2 ≤ (n : ℝ) ^ 2) ∧
    ((n : ℝ) ^ 2 = 4 * d * thresholdCos i ^ 2 → i = 42 ∨ i = 127) := by
  obtain ⟨hlow, hhigh⟩ := wt_bounds hi
  have hd' : (0 : ℝ) < d := by exact_mod_cast hpixel.pos
  have hle (x y : ℤ) : x ≤ y ↔ (x : ℝ) ≤ y := Int.cast_le.symm
  by_cases hexact : i = 42 ∨ i = 127
  · have hw := wt_exact hexact
    generalize thresholdCos i ^ 2 = c at *
    refine ⟨?_, ?_, fun _ => hexact⟩ <;> rw [hle] <;> push_cast <;> rw [← hw] <;>
      constructor <;> intro h <;> linarith
  have hsep : hueSeparate (wt.getD i 0) := by
    have := wt_hueSeparate i hi
    tauto
  generalize wt.getD i 0 = w at *
  generalize thresholdCos i ^ 2 = c at *
  rcases hsep.below_or_above hpixel with h | h
  · have hr : (n : ℝ) ^ 2 * 2 ^ 32 < 4 * d * w := by
      have : ((n * n * 2 ^ 32 : ℤ) : ℝ) < (4 * d * w : ℤ) := Int.cast_lt.2 h
      push_cast at this
      linarith
    have hlt : (n : ℝ) ^ 2 < 4 * d * c := by nlinarith
    exact ⟨iff_of_true h.le hlt.le, iff_of_false h.not_ge hlt.not_ge, fun heq => absurd heq hlt.ne⟩
  · have hr : 4 * d * ((w : ℝ) + 1) ≤ (n : ℝ) ^ 2 * 2 ^ 32 := by
      have : ((4 * d * (w + 1) : ℤ) : ℝ) ≤ (n * n * 2 ^ 32 : ℤ) := Int.cast_le.2 h
      push_cast at this
      linarith
    have hgt : 4 * d * c < (n : ℝ) ^ 2 := by nlinarith
    have hgt' : 4 * d * (w : ℤ) < n * n * 4294967296 := by linarith [hpixel.pos]
    exact ⟨iff_of_false hgt'.not_ge hgt.not_ge, iff_of_true hgt'.le hgt.le, fun heq => absurd heq hgt.ne'⟩

/-- The cosine of the first 64 thresholds is positive, that of the others negative. -/
theorem thresholdCos_sign {i : ℕ} (hi : i < 128) : if i < 64 then 0 < thresholdCos i else thresholdCos i < 0 := by
  have hpi := Real.pi_pos
  have hi' : (i : ℝ) ≤ 127 := by exact_mod_cast Nat.le_of_lt_succ hi
  split
  · next h =>
    have h' : (i : ℝ) ≤ 63 := by exact_mod_cast Nat.le_of_lt_succ h
    apply Real.cos_pos_of_mem_Ioo
    constructor <;> nlinarith
  · next h =>
    have h' : (64 : ℝ) ≤ i := by exact_mod_cast not_lt.1 h
    apply Real.cos_neg_of_pi_div_two_lt_of_lt <;> nlinarith

/-- A pixel reaches a threshold when its cosine is at most the threshold's. -/
theorem hueReaches_iff_le_thresholdCos {n e d : ℤ} (hpixel : ChromaticPixel n e d) {i : ℕ} (hi : i < 128) :
    hueReaches n d i = true ↔ (n : ℝ) / (2 * √d) ≤ thresholdCos i := by
  obtain ⟨hle, hge, -⟩ := square_compare_threshold hpixel hi
  have hsign := thresholdCos_sign hi
  have hd' : (0 : ℝ) < d := by exact_mod_cast hpixel.pos
  have hroot : 0 < √(d : ℝ) := Real.sqrt_pos.2 hd'
  have hsquare : (2 * √d * thresholdCos i) ^ 2 = 4 * d * thresholdCos i ^ 2 := by
    rw [mul_pow, mul_pow, Real.sq_sqrt hd'.le]
    ring
  rw [div_le_iff₀ (by positivity), mul_comm (thresholdCos i)]
  split at hsign
  · next h =>
    rw [hueReaches_low h, hle, ← hsquare]
    have hc : 0 < 2 * √d * thresholdCos i := by positivity
    rcases le_or_gt n 0 with h0 | h0
    · have h0' : (n : ℝ) ≤ 0 := by exact_mod_cast h0
      exact iff_of_true (.inl h0) (h0'.trans hc.le)
    · have h0' : (0 : ℝ) ≤ n := by exact_mod_cast h0.le
      simp only [not_le.2 h0, false_or]
      exact sq_le_sq₀ h0' hc.le
  · next h =>
    rw [hueReaches_high (by omega), hge, ← hsquare]
    have hc : 2 * √d * thresholdCos i < 0 := mul_neg_of_pos_of_neg (by positivity) hsign
    have neg_le_iff (h0 : (n : ℝ) < 0) :
        (2 * √d * thresholdCos i) ^ 2 ≤ (n : ℝ) ^ 2 ↔ (n : ℝ) ≤ 2 * √d * thresholdCos i := by
      rw [← neg_sq, ← neg_sq (n : ℝ), sq_le_sq₀ (by linarith) (by linarith), neg_le_neg_iff]
    constructor
    · rintro ⟨h0, hsq⟩
      exact (neg_le_iff (by exact_mod_cast h0)).1 hsq
    · intro h0
      exact ⟨by exact_mod_cast h0.trans_lt hc, (neg_le_iff (h0.trans_lt hc)).2 h0⟩

/-- The cosine of a pixel's angle. -/
theorem cos_hueAngle {n e d : ℤ} (hpixel : ChromaticPixel n e d) :
    Real.cos (hueAngle n d) = n / (2 * √d) := by
  have hd' : (0 : ℝ) < d := by exact_mod_cast hpixel.pos
  have hroot : 0 < √(d : ℝ) := Real.sqrt_pos.2 hd'
  have hle : (n : ℝ) ^ 2 ≤ (2 * √d) ^ 2 := by
    have : ((4 * d : ℤ) : ℝ) = (n * n + 3 * (e * e) : ℤ) := by rw [hpixel.square]
    push_cast at this
    rw [mul_pow, Real.sq_sqrt hd'.le]
    nlinarith [mul_self_nonneg (e : ℝ)]
  obtain ⟨h1, h2⟩ := abs_le_of_sq_le_sq' hle (by positivity)
  apply Real.cos_arccos
  · rw [le_div_iff₀ (by positivity)]
    linarith
  · rw [div_le_one (by positivity)]
    exact h2

/-- A pixel's angle in 255ths of a turn: it reaches threshold `i + 1` when that is at least `i + 1/2`. -/
noncomputable def hueTurn (n d : ℤ) : ℝ := 255 * hueAngle n d / (2 * Real.pi)

theorem hueTurn_range (n d : ℤ) : 0 ≤ hueTurn n d ∧ hueTurn n d ≤ 127.5 := by
  have hpi := Real.pi_pos
  have h0 : 0 ≤ hueAngle n d := Real.arccos_nonneg _
  have h1 : hueAngle n d ≤ Real.pi := Real.arccos_le_pi _
  rw [hueTurn, div_le_iff₀ (by positivity)]
  exact ⟨by positivity, by linarith⟩

theorem thresholdCos_eq_cos_turn (i : ℕ) :
    thresholdCos i = Real.cos ((i + 1 / 2) * (2 * Real.pi) / 255) := by
  rw [thresholdCos]
  ring_nf

theorem le_thresholdCos_iff {n d : ℤ} {i : ℕ} (hi : i < 128) :
    Real.cos (hueAngle n d) ≤ thresholdCos i ↔ (i : ℝ) + 1 / 2 ≤ hueTurn n d := by
  have hpi := Real.pi_pos
  have hi' : (i : ℝ) ≤ 127 := by exact_mod_cast Nat.le_of_lt_succ hi
  rw [thresholdCos_eq_cos_turn, Real.strictAntiOn_cos.le_iff_ge, hueTurn, le_div_iff₀ (by positivity),
    div_le_iff₀ (by norm_num), mul_comm 255]
  · exact ⟨Real.arccos_nonneg _, Real.arccos_le_pi _⟩
  · constructor
    · positivity
    · rw [div_le_iff₀ (by norm_num)]
      nlinarith

/-- A pixel reaches a threshold when its angle does (R131). -/
theorem hueReaches_iff_le_hueTurn {n e d : ℤ} (hpixel : ChromaticPixel n e d) {i : ℕ} (hi : i < 128) :
    hueReaches n d i = true ↔ (i : ℝ) + 1 / 2 ≤ hueTurn n d := by
  rw [hueReaches_iff_le_thresholdCos hpixel hi, ← cos_hueAngle hpixel, le_thresholdCos_iff hi]

/-- The number of thresholds reached is the rounded angle. -/
theorem hueCount_eq_floor {n e d : ℤ} (hpixel : ChromaticPixel n e d) : ⌊hueTurn n d + 1 / 2⌋ = hueCount n d := by
  obtain ⟨h0, h1⟩ := hueTurn_range n d
  have below {i : ℕ} (hi : i < 128) : i < hueCount n d ↔ (i : ℝ) + 1 / 2 ≤ hueTurn n d := by
    rw [← hueReaches_iff hpixel.pos.le hi, hueReaches_iff_le_hueTurn hpixel hi]
  have hcount := hueCount_le n d
  rw [Int.floor_eq_iff, Int.cast_natCast]
  constructor
  · rcases Nat.eq_zero_or_pos (hueCount n d) with hzero | hone
    · rw [hzero]
      push_cast
      linarith
    · have := (below (i := hueCount n d - 1) (by omega)).1 (by omega)
      rw [Nat.cast_pred hone] at this
      linarith
  · rcases hcount.eq_or_lt with hfull | hlt
    · rw [hfull]
      push_cast
      linarith
    · have := mt (below hlt).2 (lt_irrefl _)
      linarith

/-- A pixel with green below blue lies on a threshold at a sixth of a turn only (R131). -/
theorem hueTurn_ne_of_not_sixth {n e d : ℤ} (hpixel : ChromaticPixel n e d) (he0 : e ≠ 0)
    (htie : ¬ (0 < n ∧ n * n = d)) {i : ℕ} (hi : i < 128) : hueTurn n d ≠ i + 1 / 2 := by
  intro heq
  have hpi := Real.pi_pos
  have hd' : (0 : ℝ) < d := by exact_mod_cast hpixel.pos
  have hroot : 0 < √(d : ℝ) := Real.sqrt_pos.2 hd'
  have hangle : hueAngle n d = (i + 1 / 2) * (2 * Real.pi) / 255 := by
    rw [← heq, hueTurn]
    field_simp
  have hcos : (n : ℝ) = thresholdCos i * (2 * √d) := by
    rw [thresholdCos_eq_cos_turn, ← hangle, cos_hueAngle hpixel]
    field_simp
  have hsquare : (n : ℝ) ^ 2 = 4 * d * thresholdCos i ^ 2 := by
    rw [hcos, mul_pow, mul_pow, Real.sq_sqrt hd'.le]
    ring
  rcases (square_compare_threshold hpixel hi).2.2 hsquare with rfl | rfl
  · rw [thresholdCos_sixth] at hcos hsquare
    refine htie ⟨?_, ?_⟩
    · rify
      rw [hcos]
      positivity
    · rify
      linarith
  · rw [thresholdCos_half] at hsquare
    have : n * n = 4 * d := by
      rify
      linarith
    have := hpixel.square
    have := mul_self_pos.2 he0
    omega

/-- At a sixth of a turn the angle is on threshold 43. -/
theorem hueTurn_of_sixth {n d : ℤ} (hn : 0 < n) (h : n * n = d) : hueTurn n d = 42.5 := by
  have hn' : (0 : ℝ) < n := by exact_mod_cast hn
  have hroot : √(d : ℝ) = n := by
    rw [← h, Int.cast_mul, Real.sqrt_mul_self hn'.le]
  have hangle : hueAngle n d = Real.pi / 3 := by
    rw [hueAngle, hroot, show (n : ℝ) / (2 * n) = Real.cos (Real.pi / 3) by
      rw [Real.cos_pi_div_three]; field_simp]
    exact Real.arccos_cos (by positivity) (by linarith [Real.pi_pos])
  have hpi := Real.pi_pos
  rw [hueTurn, hangle]
  field_simp
  norm_num

/-! ## The hue byte -/

theorem chromaticPixel_of_ne {t : Triple} (hd : hsiSquare (level t.c0) (level t.c1) (level t.c2) ≠ 0) :
    ChromaticPixel (hsiNumerator (level t.c0) (level t.c1) (level t.c2)) (level t.c1 - level t.c2)
      (hsiSquare (level t.c0) (level t.c1) (level t.c2)) := by
  have h0 := level_range t.c0
  have h1 := level_range t.c1
  have h2 := level_range t.c2
  refine ⟨four_hsiSquare _ _ _, ?_, ?_, (hsiSquare_nonneg _ _ _).lt_of_ne' hd⟩
  · unfold hsiNumerator
    omega
  · omega

/-- Where blue is not above green the hue counts the thresholds. -/
theorem hsiHue8_eq_floor_of_le {r g b : ℤ}
    (hpixel : ChromaticPixel (hsiNumerator r g b) (g - b) (hsiSquare r g b)) (hgb : b ≤ g) :
    ⌊hueTurn (hsiNumerator r g b) (hsiSquare r g b) + 1 / 2⌋ = hsiHue8 r g b := by
  rw [hsiHue8_of_le hpixel.pos.ne' hgb, hueCount_eq_floor hpixel]

/-- Where blue is above green the hue goes the other way round, and a tie is rounded up there too. -/
theorem hsiHue8_eq_floor_of_gt {r g b : ℤ}
    (hpixel : ChromaticPixel (hsiNumerator r g b) (g - b) (hsiSquare r g b)) (hgb : g < b) :
    ⌊255 - hueTurn (hsiNumerator r g b) (hsiSquare r g b) + 1 / 2⌋ = hsiHue8 r g b := by
  have hcount := Int.floor_eq_iff.1 (hueCount_eq_floor hpixel)
  have hturn := (hueTurn_range (hsiNumerator r g b) (hsiSquare r g b)).1
  have hne := hueTurn_ne_of_not_sixth hpixel (by omega)
  have hle := hueCount_le (hsiNumerator r g b) (hsiSquare r g b)
  rw [hsiHue8_of_gt hgb]
  generalize hsiNumerator r g b = n at *
  generalize hsiSquare r g b = d at *
  obtain ⟨hlow, hhigh⟩ := hcount
  rw [Int.cast_natCast] at hlow hhigh
  split
  · next htie =>
    rw [hueTurn_of_sixth htie.1 htie.2, hueCount_of_sixth htie.1 htie.2, Int.floor_eq_iff]
    norm_num
  · next htie =>
    have hlt : (hueCount n d : ℝ) < hueTurn n d + 1 / 2 := by
      rcases Nat.eq_zero_or_pos (hueCount n d) with hzero | hone
      · rw [hzero]
        push_cast
        linarith
      · have h := hne htie (i := hueCount n d - 1) (by omega)
        rw [Nat.cast_pred hone] at h
        exact lt_of_le_of_ne hlow fun heq => h (by linarith)
    rw [Int.floor_eq_iff]
    push_cast
    constructor <;> linarith

/-- The hue of HSI of a pixel in 255ths of a turn (R129). -/
noncomputable def hsiTurn (r g b : ℤ) : ℝ :=
  if hsiSquare r g b = 0 then 0
  else if b ≤ g then hueTurn (hsiNumerator r g b) (hsiSquare r g b)
  else 255 - hueTurn (hsiNumerator r g b) (hsiSquare r g b)

theorem floor_hsiTurn (t : Triple) : ⌊hsiTurn (level t.c0) (level t.c1) (level t.c2) + 1 / 2⌋ =
    hsiHue8 (level t.c0) (level t.c1) (level t.c2) := by
  unfold hsiTurn
  split_ifs with hd hgb
  · rw [hsiHue8, if_pos hd]
    norm_num
  · exact hsiHue8_eq_floor_of_le (chromaticPixel_of_ne hd) hgb
  · exact hsiHue8_eq_floor_of_gt (chromaticPixel_of_ne hd) (not_le.1 hgb)

/-- The definition determines the hue. -/
theorem isHsiHue_iff (t : Triple) (h : ℝ) :
    Exact.IsHsiHue t h ↔ 255 * h = hsiTurn (level t.c0) (level t.c1) (level t.c2) := by
  have hpi := Real.pi_pos
  simp only [Exact.IsHsiHue, toNat_cast_real]
  generalize level t.c0 = r
  generalize level t.c1 = g
  generalize level t.c2 = b
  have hd : ((r : ℝ) - g) ^ 2 + (r - b) * (g - b) = (hsiSquare r g b : ℤ) := by
    unfold hsiSquare
    push_cast
    ring
  have hn : ((r : ℝ) - g) + (r - b) = (hsiNumerator r g b : ℤ) := by
    unfold hsiNumerator
    push_cast
    ring
  have hother (x : ℝ) : (2 * Real.pi - x) / (2 * Real.pi) = 1 - x / (2 * Real.pi) := by field_simp
  have hturn : hueTurn (hsiNumerator r g b) (hsiSquare r g b) =
      255 * (Real.arccos ((hsiNumerator r g b : ℤ) / (2 * √(hsiSquare r g b : ℤ))) / (2 * Real.pi)) :=
    mul_div_assoc _ _ _
  rw [hd, hn, hother, hsiTurn, hturn]
  simp only [ne_eq, Int.cast_eq_zero, Int.cast_le, Int.cast_lt]
  generalize Real.arccos _ / (2 * Real.pi) = x
  split_ifs with hd hgb
  · simp [hd]
  · simp [hd, hgb, not_lt.2 hgb]
  · simp only [hd, hgb, not_le.1 hgb, not_false_eq_true, true_implies, false_implies, implies_true, true_and]
    constructor <;> intro h <;> linarith

theorem isForwardHsi_iff (t o : Triple) : Exact.IsForwardHsi t o ↔ o = forwardHsi t := by
  have hsum : 0 ≤ level t.c0 + level t.c1 + level t.c2 := by
    have h0 := level_nonneg t.c0
    have h1 := level_nonneg t.c1
    have h2 := level_nonneg t.c2
    omega
  have hhue : (∃ h, Exact.IsHsiHue t h ∧ Exact.IsQ8 h o.c0) ↔ o.c0 = (forwardHsi t).c0 := by
    simp only [isHsiHue_iff, Exact.IsQ8]
    constructor
    · rintro ⟨h, hh, ho⟩
      rw [ho, hh, floor_hsiTurn]
      rfl
    · intro ho
      refine ⟨hsiTurn (level t.c0) (level t.c1) (level t.c2) / 255, by ring, ?_⟩
      rw [ho, mul_div_cancel₀ _ (by norm_num), floor_hsiTurn]
      rfl
  rw [Exact.IsForwardHsi, hhue, unit_eq, unit_eq, unit_eq, q8_hsiSaturation hsum, q8_intensity]
  cases o
  rw [forwardHsi, Triple.mk.injEq]

/-- Settles O16: a component is a quotient of integers, and the hue of HSI counts the thresholds its angle reaches. -/
theorem forwardIntegerFormsAreTheRealDefinitions : Obligations.ForwardIntegerFormsAreTheRealDefinitions := by
  unfold Obligations.ForwardIntegerFormsAreTheRealDefinitions
  exact fun t => ⟨forwardHsv_eq_exact t, forwardHsl_eq_exact t, isForwardHsi_iff t, forwardYuv_eq_exact t⟩

end Sys2Proof.Machine

/-! The inverse of HSI by the ratio of cosines and by the table of ratios (`41_codec_inverse.md` R158 to R161): a
component reaches a level by the entry exactly when it does by the ratio. -/

namespace Sys2Proof.Machine

/-! ## The ratio of cosines -/

/-- The ratio of cosines behind entry `j` of the table (R160). -/
noncomputable def cosRatio (j : ℕ) : ℝ :=
  Real.cos (2 * j * Real.pi / 255) / Real.cos ((85 - 2 * j) * Real.pi / 255)

/-- The interval of the ratio of cosines lies within 2 of `ratioApprox`. -/
def ratioFits (j : ℕ) : Bool :=
  let c := (HsiCircle.approx (2 * j)).1
  let d := (HsiCircle.approx (85 - 2 * (j : ℤ)).natAbs).1
  let q := ratioApprox j
  decide (4080 ≤ d ∧ 2040 * 2 ^ 41 + |2 ^ 41 * c - q * d| + |q| * 2040 ≤ 2 * (d - 2040))

theorem ratio_fits : ∀ j < 86, ratioFits j = true := by decide +kernel

/-- A quotient near the quotient of approximations. -/
theorem abs_div_sub_le {x y c d q s ε t δ : ℝ} (hs : 0 ≤ s) (ht : 0 < t) (hx : |x * t - c| ≤ ε)
    (hy : |y * t - d| ≤ ε) (hd : ε < d) (h : ε * s + |s * c - q * d| + |q| * ε ≤ δ * (d - ε)) (hδ : 0 ≤ δ) :
    |s * (x / y) - q| ≤ δ := by
  have hypos : 0 < y := by
    have := (abs_le.1 hy).1
    by_contra! h0
    nlinarith
  have e : s * (x / y) - q = (s * (x * t - c) + (s * c - q * d) + -(q * (y * t - d))) / (y * t) := by
    field_simp
    ring
  rw [e, abs_div, abs_of_pos (mul_pos hypos ht), div_le_iff₀ (by positivity)]
  calc |s * (x * t - c) + (s * c - q * d) + -(q * (y * t - d))|
      ≤ |s * (x * t - c)| + |s * c - q * d| + |-(q * (y * t - d))| := abs_add_three _ _ _
    _ = s * |x * t - c| + |s * c - q * d| + |q| * |y * t - d| := by
      rw [abs_neg, abs_mul, abs_mul, abs_of_nonneg hs]
    _ ≤ s * ε + |s * c - q * d| + |q| * ε := by gcongr
    _ ≤ δ * (d - ε) := by linarith
    _ ≤ δ * (y * t) := by
      have := (abs_le.1 hy).1
      gcongr
      linarith

open HsiCircle in
theorem cosRatio_near {j : ℕ} (hj : j < 86) : |2 ^ 41 * cosRatio j - ratioApprox j| ≤ 2 := by
  have h := ratio_fits j hj
  simp only [ratioFits, decide_eq_true_eq] at h
  obtain ⟨h0, h1⟩ := h
  have hx := cos_approx (2 * j) (by omega)
  have hy := cos_approx_int (85 - 2 * (j : ℤ)) (by omega)
  have ex : 2 * (j : ℝ) * Real.pi / 255 = ((2 * j : ℕ) : ℝ) * (Real.pi / 255) := by push_cast; ring
  have ey : (85 - 2 * (j : ℝ)) * Real.pi / 255 = ((85 - 2 * (j : ℤ) : ℤ) : ℝ) * (Real.pi / 255) := by
    push_cast
    ring
  rw [cosRatio, ex, ey]
  refine abs_div_sub_le (by norm_num) (by norm_num) hx hy ?_ (by exact_mod_cast h1) (by norm_num)
  have h0' : (4080 : ℝ) ≤ ((approx (85 - 2 * (j : ℤ)).natAbs).1 : ℝ) := by exact_mod_cast h0
  linarith

/-- The angles of the first and of the last entry are multiples of 60 degrees (R161). -/
theorem cosRatio_exact {j : ℕ} (h : j = 0 ∨ j = 85) : 2 ^ 41 * cosRatio j = 512 * (rq.getD j 0 : ℤ) := by
  rcases h with rfl | rfl
  · rw [cosRatio, show (85 - 2 * ((0 : ℕ) : ℝ)) * Real.pi / 255 = Real.pi / 3 by push_cast; ring,
      show 2 * ((0 : ℕ) : ℝ) * Real.pi / 255 = 0 by simp, Real.cos_pi_div_three, Real.cos_zero,
      show rq.getD 0 0 = 8589934592 from rfl]
    norm_num
  · rw [cosRatio, show (85 - 2 * ((85 : ℕ) : ℝ)) * Real.pi / 255 = -(Real.pi / 3) by push_cast; ring,
      show 2 * ((85 : ℕ) : ℝ) * Real.pi / 255 = Real.pi - Real.pi / 3 by push_cast; ring, Real.cos_pi_sub,
      Real.cos_neg, Real.cos_pi_div_three, show rq.getD 85 0 = -4294967296 from rfl]
    norm_num

/-- Opposite ratios of a sector add up to 1. -/
theorem cosRatio_add {j : ℕ} (hj : j ≤ 85) : cosRatio j + cosRatio (85 - j) = 1 := by
  have hj' : (j : ℝ) ≤ 85 := by exact_mod_cast hj
  have hpi := Real.pi_pos
  have hden : 0 < Real.cos ((85 - 2 * j) * Real.pi / 255) := by
    apply Real.cos_pos_of_mem_Ioo
    constructor <;> nlinarith [Nat.cast_nonneg (α := ℝ) j]
  have hflip : (85 - 2 * ((85 - j : ℕ) : ℝ)) * Real.pi / 255 = -((85 - 2 * j) * Real.pi / 255) := by
    rw [Nat.cast_sub hj]
    push_cast
    ring
  have hsum : (2 * j * Real.pi / 255 + 2 * ((85 - j : ℕ) : ℝ) * Real.pi / 255) / 2 = Real.pi / 3 := by
    rw [Nat.cast_sub hj]
    push_cast
    ring
  have hdiff : (2 * j * Real.pi / 255 - 2 * ((85 - j : ℕ) : ℝ) * Real.pi / 255) / 2 =
      -((85 - 2 * j) * Real.pi / 255) := by
    rw [Nat.cast_sub hj]
    push_cast
    ring
  rw [cosRatio, cosRatio, hflip, Real.cos_neg, ← add_div, Real.cos_add_cos, hsum, hdiff, Real.cos_neg,
    Real.cos_pi_div_three, mul_assoc, mul_div_assoc, mul_div_assoc]
  field_simp

/-! ## The levels a component reaches -/

/-- A component reaches a level by the ratio exactly when it does by the entry. -/
theorem reaches_cosRatio_iff {j : ℕ} (hj : j < 86) {m : ℤ} (h0 : 0 ≤ m) (h1 : m ≤ 65025) (p : ℤ) :
    (p : ℝ) * ratioScale ≤ m * (2 ^ 41 * cosRatio j) ↔ p * ratioScale ≤ m * (512 * rq.getD j 0) := by
  by_cases hexact : j = 0 ∨ j = 85
  · rw [cosRatio_exact hexact]
    norm_cast
  rcases h0.eq_or_lt with rfl | hpos
  · simp only [Int.cast_zero, zero_mul]
    norm_cast
  have hgap : p * ratioScale < m * ratioLow j ∨ m * ratioHigh j < p * ratioScale := by
    rcases ratioFractions_separate j (by omega) (by omega) with h | h
    · exact h.below_or_above hpos h1
    · have := h.below_or_above (p := -p) hpos h1
      rcases this with h | h
      · right
        linarith
      · left
        linarith
  have hlow : ratioLow j ≤ 512 * rq.getD j 0 := min_le_left _ _
  have hhigh : 512 * rq.getD j 0 ≤ ratioHigh j := le_max_left _ _
  have hnear := abs_le.1 (cosRatio_near hj)
  have hlow' : (ratioLow j : ℝ) ≤ 2 ^ 41 * cosRatio j := by
    have : (ratioLow j : ℝ) ≤ ratioApprox j - 2 := by exact_mod_cast min_le_right _ _
    linarith
  have hhigh' : 2 ^ 41 * cosRatio j ≤ ratioHigh j := by
    have : (ratioApprox j + 2 : ℝ) ≤ ratioHigh j := by exact_mod_cast le_max_right _ _
    linarith
  have hm : (0 : ℝ) ≤ m := by exact_mod_cast h0
  rcases hgap with h | h
  · have h' : (p : ℝ) * ratioScale < m * ratioLow j := by exact_mod_cast h
    exact iff_of_true (h'.le.trans (by gcongr)) (h.le.trans (by gcongr))
  · have h' : (m : ℝ) * ratioHigh j < p * ratioScale := by exact_mod_cast h
    exact iff_of_false (not_le.2 (lt_of_le_of_lt (by gcongr) h')) (not_le.2 (lt_of_le_of_lt (by gcongr) h))

/-- The rounded component of a sector by the ratio is the share by the entry (R160). -/
theorem floor_hsi_component {j : ℕ} (hj : j < 86) (s i : Byte) :
    ⌊255 * ((level i : ℝ) / 255 * (1 + (level s : ℝ) / 255 * cosRatio j)) + 1 / 2⌋ =
      hsiShare (rq.getD j 0) (level i * level s) (level i) := by
  obtain ⟨hi0, hi1⟩ := level_range i
  obtain ⟨hs0, hs1⟩ := level_range s
  have hm0 : 0 ≤ level i * level s := mul_nonneg hi0 hs0
  have hm1 : level i * level s ≤ 65025 := by nlinarith
  have hscale : (ratioScale : ℝ) = 255 * 2 ^ 40 ∧ (ratioScale : ℤ) = 255 * 2 ^ 40 := by
    norm_num [ratioScale]
  refine eq_of_forall_le_iff fun k => ?_
  have hreaches := reaches_cosRatio_iff hj hm0 hm1 (2 * (k - level i) - 1)
  rw [hscale.1, hscale.2] at hreaches
  push_cast at hreaches
  rw [Int.le_floor, hsiShare, Int.le_ediv_iff_mul_le (by norm_num)]
  constructor
  · intro h
    have := hreaches.1 (by linarith)
    linarith
  · intro h
    have := hreaches.2 (by linarith)
    linarith

theorem floor_hsi_opposite (s i : ℤ) :
    ⌊255 * ((i : ℝ) / 255 * (1 - (s : ℝ) / 255)) + 1 / 2⌋ = hsiOpposite s i := by
  rw [hsiOpposite, rdiv, ← floor_intCast_div (K := ℝ) _ (by norm_num)]
  congr 1
  push_cast
  ring

/-! ## The sectors -/

/-- The entries of a sector add up to 1 as their ratios do (R161). -/
theorem rq_opposite {j : ℕ} (hj : j ≤ 85) : 4294967296 - rq.getD j 0 = rq.getD (85 - j) 0 := by
  have h : ∀ j < 86, rq.getD j 0 + rq.getD (85 - j) 0 = 4294967296 := by decide
  have := h j (by omega)
  omega

/-- A sector of the definition, at the angle of entry `j`. -/
theorem isHsiSector_iff {j : ℕ} (hj : j ≤ 85) {a : ℝ} (ha : a = 24 * j / 17) (s i cx cy cz : Byte) :
    Exact.IsHsiSector a ((level s : ℝ) / 255) ((level i : ℝ) / 255) cx cy cz ↔
      cx = clamp8 (hsiShare (rq.getD j 0) (level i * level s) (level i)) ∧
      cy = clamp8 (hsiOpposite (level s) (level i)) ∧
      cz = clamp8 (hsiShare (4294967296 - rq.getD j 0) (level i * level s) (level i)) := by
  have hnum : a * Real.pi / 180 = 2 * j * Real.pi / 255 := by rw [ha]; ring
  have hden : (60 - a) * Real.pi / 180 = (85 - 2 * j) * Real.pi / 255 := by rw [ha]; ring
  have hcentre (s i : ℝ) : i * (1 + s * Real.cos (a * Real.pi / 180) / Real.cos ((60 - a) * Real.pi / 180)) =
      i * (1 + s * cosRatio j) := by
    rw [cosRatio, hnum, hden]
    ring
  have hrest (s i : ℝ) : 3 * i - (i * (1 + s * cosRatio j) + i * (1 - s)) = i * (1 + s * cosRatio (85 - j)) := by
    linear_combination -(i * s) * cosRatio_add hj
  simp only [Exact.IsHsiSector, Exact.IsQ8, hcentre, hrest]
  rw [floor_hsi_component (by omega), floor_hsi_opposite, floor_hsi_component (by omega), rq_opposite hj]

/-- A hue byte in degrees (R158). -/
noncomputable def hueDegrees (h : Byte) : ℝ := 360 * ((h.toNat : ℝ) / 255)

theorem hueDegrees_lt_iff (h : Byte) (n : ℕ) : hueDegrees h < 24 * n / 17 ↔ h.toNat < n := by
  rw [← Nat.cast_lt (α := ℝ), hueDegrees]
  constructor <;> intro h <;> linarith

/-- The definition of the inverse by the sector of the hue byte (R159). -/
theorem isInverseHsi_iff_sector (h s i : Byte) (o : Triple) :
    Exact.IsInverseHsi ⟨h, s, i⟩ o ↔
      if h.toNat < 85 then
        Exact.IsHsiSector (hueDegrees h) ((level s : ℝ) / 255) ((level i : ℝ) / 255) o.c0 o.c2 o.c1
      else if h.toNat < 170 then
        Exact.IsHsiSector (hueDegrees h - 120) ((level s : ℝ) / 255) ((level i : ℝ) / 255) o.c1 o.c0 o.c2
      else Exact.IsHsiSector (hueDegrees h - 240) ((level s : ℝ) / 255) ((level i : ℝ) / 255) o.c2 o.c1 o.c0 := by
  have hdegrees : 360 * ((h.toNat : ℝ) / 255) = hueDegrees h := rfl
  have h120 : hueDegrees h < 120 ↔ h.toNat < 85 := by
    rw [← hueDegrees_lt_iff]
    norm_num
  have h240 : hueDegrees h < 240 ↔ h.toNat < 170 := by
    rw [← hueDegrees_lt_iff]
    norm_num
  simp only [Exact.IsInverseHsi, hdegrees, toNat_cast_real s, toNat_cast_real i, ← not_lt, h120, h240]
  split_ifs with h1 h2
  · have h2 : h.toNat < 170 := by omega
    simp [h1, h2]
  · simp [h1, h2]
  · simp [h1, h2]

theorem isInverseHsi_iff (t o : Triple) : Exact.IsInverseHsi t o ↔ o = inverseHsi t := by
  obtain ⟨h, s, i⟩ := t
  obtain ⟨o0, o1, o2⟩ := o
  obtain ⟨hfirst, hsecond, hthird⟩ := hsi_sector_ratio h
  rw [isInverseHsi_iff_sector]
  split_ifs with h1 h2
  · rw [inverseHsi_eq (hfirst h1), isHsiSector_iff (j := h.toNat) (by omega) (by rw [hueDegrees]; ring), hsiPlace,
      if_pos rfl, Triple.mk.injEq]
    tauto
  · rw [inverseHsi_eq (hsecond (by omega) h2), isHsiSector_iff (j := h.toNat - 85) (by omega) ?_, hsiPlace,
      if_neg (by norm_num), if_pos rfl, Triple.mk.injEq]
    · tauto
    · rw [hueDegrees, Nat.cast_sub (by omega)]
      push_cast
      ring
  · rw [inverseHsi_eq (hthird (by omega)), isHsiSector_iff (j := h.toNat - 170) (by omega) ?_, hsiPlace,
      if_neg (by norm_num), if_neg (by norm_num), Triple.mk.injEq]
    · tauto
    · rw [hueDegrees, Nat.cast_sub (by omega)]
      push_cast
      ring

/-- Settles O17: a component is a quotient of integers, and one of HSI reaches a level by the table's entry exactly when
it does by the ratio of cosines. -/
theorem inverseIntegerFormsAreTheRealDefinitions : Obligations.InverseIntegerFormsAreTheRealDefinitions := by
  unfold Obligations.InverseIntegerFormsAreTheRealDefinitions
  exact fun t => ⟨inverseHsv_eq_exact t, inverseHsl_eq_exact t, isInverseHsi_iff t, inverseYuv_eq_exact t⟩

end Sys2Proof.Machine
